-- ==== Sys2Proof/Word.lean ====
section
/-! DEFINITION. The widths of the core (R15) and the two reference types of a command's operands (R59). -/
namespace Sys2Proof

/-- An 8-bit value: a colour channel, a byte of the stream, the port, a pin mask, the command word (R15, R22, R32). -/
abbrev Byte := BitVec 8

/-- A 16-bit value: a packed-4bpp record, or the `COUNT` operand (R15). -/
abbrev Half := BitVec 16

/-- `SRC`: a reference to a record source. The core never looks inside it (R59); in the byte-level view of R43 it is the
address of element 0. -/
abbrev Ref := Nat

end Sys2Proof
end

