-- ==== Sys2Proof/Syntax.lean ====
section
/-! DEFINITION. The syntax of commands: the record formats (R57), the six commands (R60, R68), a command as the host presents it
(R56, R59), and the record types of the source's generic `transmit` (R69). -/
namespace Sys2Proof

/-- `FMT`: the record format (R57). -/
inductive Fmt where
  | raw
  | rgb
  | rgbw
  | pack4
  deriving DecidableEq, Repr

/-- The six commands, one constructor per row of the opcode table. Every command has the same three operand slots (R56), so each
constructor carries `SRC`, `COUNT` and `MASK`; the four commands without a pin latch the `MASK` slot and ignore it (R68, R84; DESIGN CHOICE, safe, log 17). -/
inductive Instr where
  /-- `transmit_raw(bytes, length)`, `CMD 0x00` (R100). -/
  | transmitRaw (bytes : Ref) (length : Half) (mask : Byte)
  /-- `transmit_rgb(records, count)`, `CMD 0x01` (R97). -/
  | transmitRgb (records : Ref) (count : Half) (mask : Byte)
  /-- `transmit_rgbw(records, count)`, `CMD 0x02` (R99). -/
  | transmitRgbw (records : Ref) (count : Half) (mask : Byte)
  /-- `transmit_4bpp(packed, led_count)`, `CMD 0x03` (R102). -/
  | transmit4bpp (packed : Ref) (ledCount : Half) (mask : Byte)
  /-- `transmit_raw_pin(bytes, length, pin)`, `CMD 0x08` (R101). -/
  | transmitRawPin (bytes : Ref) (length : Half) (pin : Byte)
  /-- `transmit_rgb_pin(records, count, pin)`, `CMD 0x09` (R98). -/
  | transmitRgbPin (records : Ref) (count : Half) (pin : Byte)
  deriving DecidableEq, Repr

/-- The `FMT` field of a command (R57, R60). -/
def Instr.fmt : Instr → Fmt
  | .transmitRaw _ _ _ => .raw
  | .transmitRgb _ _ _ => .rgb
  | .transmitRgbw _ _ _ => .rgbw
  | .transmit4bpp _ _ _ => .pack4
  | .transmitRawPin _ _ _ => .raw
  | .transmitRgbPin _ _ _ => .rgb

/-- The `PINSEL` field of a command: does it take its pin from the `MASK` operand? (R56, R58) -/
def Instr.pinSel : Instr → Bool
  | .transmitRaw _ _ _ => false
  | .transmitRgb _ _ _ => false
  | .transmitRgbw _ _ _ => false
  | .transmit4bpp _ _ _ => false
  | .transmitRawPin _ _ _ => true
  | .transmitRgbPin _ _ _ => true

/-- The `SRC` operand (R59). -/
def Instr.src : Instr → Ref
  | .transmitRaw r _ _ => r
  | .transmitRgb r _ _ => r
  | .transmitRgbw r _ _ => r
  | .transmit4bpp r _ _ => r
  | .transmitRawPin r _ _ => r
  | .transmitRgbPin r _ _ => r

/-- The `COUNT` operand (R59). -/
def Instr.count : Instr → Half
  | .transmitRaw _ n _ => n
  | .transmitRgb _ n _ => n
  | .transmitRgbw _ n _ => n
  | .transmit4bpp _ n _ => n
  | .transmitRawPin _ n _ => n
  | .transmitRgbPin _ n _ => n

/-- The `MASK` slot (R59). -/
def Instr.mask : Instr → Byte
  | .transmitRaw _ _ m => m
  | .transmitRgb _ _ m => m
  | .transmitRgbw _ _ m => m
  | .transmit4bpp _ _ m => m
  | .transmitRawPin _ _ m => m
  | .transmitRgbPin _ _ m => m

/-- A command as the host presents it: the command word and the three operand slots (R56, R59). The spec gives the operands no
bits in the command word. -/
structure Command where
  cmd : Byte
  src : Ref
  count : Half
  mask : Byte
  deriving DecidableEq, Repr

/-- The record types of the source's generic `transmit(records, count, pin)` (R69). -/
inductive RecordType where
  | rgb
  | rgbw
  | packed
  deriving DecidableEq, Repr

end Sys2Proof
end

