-- ==== Sys2Proof/Decode.lean ====
section
/-! DEFINITION. The decoder of the 8-bit command word, field by field (R56 to R61), the encoder from the opcode map (R60), the
pseudo-operation `transmit` (R69), and the host's reading of a table word. -/
namespace Sys2Proof

/-- Why a command word is reserved (R61): each is the refusal `ReservedCommand`. -/
inductive DecodeError where
  /-- `CMD[7:4]` is not `0000` (R56). -/
  | rsvNonzero (cmd : Byte)
  /-- `FMT` is `100` to `111` (R57). -/
  | fmtReserved (cmd : Byte)
  /-- `PINSEL = 1` with `FMT = RGBW` or `FMT = PACK4` (R58). -/
  | pinNotOffered (cmd : Byte)
  deriving DecidableEq, Repr

/-- `CMD[2:0]` (R56). -/
def fmtField (cmd : Byte) : BitVec 3 := cmd.extractLsb' 0 3

/-- `CMD[3]` (R56). -/
def pinSelField (cmd : Byte) : Bool := cmd.getLsbD 3

/-- `CMD[7:4]` (R56). -/
def rsvField (cmd : Byte) : BitVec 4 := cmd.extractLsb' 4 4

/-- The format a value of `FMT` selects; `100` to `111` are reserved (R57). -/
def fmtOfBits (f : BitVec 3) : Option Fmt :=
  if f = 0b000#3 then some .raw
  else if f = 0b001#3 then some .rgb
  else if f = 0b010#3 then some .rgbw
  else if f = 0b011#3 then some .pack4
  else none

/-- Decode a command: total on every command word; every reserved word is rejected by name (R56 to R61). -/
def decode (c : Command) : Except DecodeError Instr :=
  if rsvField c.cmd ≠ 0b0000#4 then .error (.rsvNonzero c.cmd)
  else
    match fmtOfBits (fmtField c.cmd), pinSelField c.cmd with
    | none, _ => .error (.fmtReserved c.cmd)
    | some .raw, false => .ok (.transmitRaw c.src c.count c.mask)
    | some .rgb, false => .ok (.transmitRgb c.src c.count c.mask)
    | some .rgbw, false => .ok (.transmitRgbw c.src c.count c.mask)
    | some .pack4, false => .ok (.transmit4bpp c.src c.count c.mask)
    | some .raw, true => .ok (.transmitRawPin c.src c.count c.mask)
    | some .rgb, true => .ok (.transmitRgbPin c.src c.count c.mask)
    | some .rgbw, true => .error (.pinNotOffered c.cmd)
    | some .pack4, true => .error (.pinNotOffered c.cmd)

/-- The command word of a command: the opcode map, row by row (R60). -/
def opcode : Instr → Byte
  | .transmitRaw _ _ _ => 0x00#8
  | .transmitRgb _ _ _ => 0x01#8
  | .transmitRgbw _ _ _ => 0x02#8
  | .transmit4bpp _ _ _ => 0x03#8
  | .transmitRawPin _ _ _ => 0x08#8
  | .transmitRgbPin _ _ _ => 0x09#8

/-- What the host presents for a command (R59, R68). -/
def encode (i : Instr) : Command where
  cmd := opcode i
  src := i.src
  count := i.count
  mask := i.mask

/-- The pseudo-operation `transmit(records, count[, pin])`: the command it expands to, `none` where it has no expansion (R69). A
command without a pin leaves the `MASK` slot at 0, as R68 allows. -/
def expandTransmit (t : RecordType) (src : Ref) (count : Half) (pin : Option Byte) : Option Instr :=
  match t, pin with
  | .rgb, none => some (.transmitRgb src count 0)
  | .rgb, some m => some (.transmitRgbPin src count m)
  | .rgbw, none => some (.transmitRgbw src count 0)
  | .rgbw, some _ => none
  | .packed, none => some (.transmit4bpp src count 0)
  | .packed, some _ => none

/-- The command the host presents for the generic form: the reserved words `0x0A` and `0x0B` where it has no expansion (R69). -/
def encodeTransmit (t : RecordType) (src : Ref) (count : Half) (pin : Option Byte) : Command where
  cmd :=
    match t, pin with
    | .rgb, none => 0x01#8
    | .rgb, some _ => 0x09#8
    | .rgbw, none => 0x02#8
    | .rgbw, some _ => 0x0A#8
    | .packed, none => 0x03#8
    | .packed, some _ => 0x0B#8
  src := src
  count := count
  mask := pin.getD 0

/-- The command that a table word of `nbits` bits stands for, its operands zero: the spec gives the operand slots no bits (R56),
and the command word is 8 bits wide, so a set bit above them belongs to no command (DESIGN CHOICE, safe, log 21). -/
def commandOfTableWord (nbits w : Nat) : Option Command :=
  let v := w % 2 ^ nbits
  if v < 256 then some { cmd := BitVec.ofNat 8 v, src := 0, count := 0, mask := 0 } else none

/-- The instruction the decoder reads from a table word (operands zero). -/
def decodeTableWord (nbits w : Nat) : Option Instr :=
  match commandOfTableWord nbits w with
  | none => none
  | some c =>
    match decode c with
    | .ok i => some i
    | .error _ => none

end Sys2Proof
end

