-- ==== Sys2Proof/Config.lean ====
section
/-! DEFINITION. The configuration: the source's Timing Table and build-time settings (R8 to R14, R26), the two layout
parameters of the byte-level view (R43), the conditions a configuration may fail (R112), the example configuration of decision
D22, and the model's free values. -/
namespace Sys2Proof

/-- `P_PACK4_POS`: the bit offsets of the green, red and blue nibbles in a packed word (R14). -/
structure PackPos where
  gpos : Nat
  rpos : Nat
  bpos : Nat
  deriving DecidableEq, Repr

/-- `P_RECORD_LAYOUT` for RGB records: the byte offset of each channel within the three bytes of a record (R43). -/
structure RgbLayout where
  r : Fin 3
  g : Fin 3
  b : Fin 3
  deriving DecidableEq, Repr

/-- `P_RECORD_LAYOUT` for RGBW records: the byte offset of each channel within the four bytes of a record (R43). -/
structure RgbwLayout where
  r : Fin 4
  g : Fin 4
  b : Fin 4
  w : Fin 4
  deriving DecidableEq, Repr

/-- `P_WORD_ORDER`: the order of a packed word's two bytes in byte-addressed memory (R43, R44). -/
inductive WordOrder where
  | little
  | big
  deriving DecidableEq, Repr

/-- The configuration of one build (R26). Nothing writes it: `State.cfg` holds it and every step keeps it. -/
structure Config where
  /-- `P_T0H`, cycles (R8). -/
  t0h : Nat
  /-- `P_T1H`, cycles (R8). -/
  t1h : Nat
  /-- `P_TBIT`, cycles (R8). -/
  tbit : Nat
  /-- `P_RESET_US`, microseconds (R11). -/
  resetUs : Nat
  /-- `P_FCPU`, Hz (R10). -/
  fcpu : Nat
  /-- `P_LATCH_CYC`, cycles (R11). -/
  latchCyc : Nat
  /-- `P_START_LAT`, cycles (R12). -/
  startLat : Nat
  /-- `P_DEFAULT_PORT`, an identifier (R13). -/
  defaultPort : Nat
  /-- `P_DEFAULT_PIN` (R13). A natural number, so that a value outside 0..7 can be written down and refused (R112). -/
  defaultPin : Nat
  /-- `P_PACK4_POS` (R14). -/
  pack4Pos : PackPos
  /-- `P_RECORD_LAYOUT` of RGB records; read in the byte-level view only (R43). -/
  rgbLayout : RgbLayout
  /-- `P_RECORD_LAYOUT` of RGBW records; read in the byte-level view only (R43). -/
  rgbwLayout : RgbwLayout
  /-- `P_WORD_ORDER`; read in the byte-level view only (R43). -/
  wordOrder : WordOrder
  deriving DecidableEq, Repr

/-- The conditions of R112, one name each: "the failing condition" that `ConfigInvalid` records (R111). -/
inductive ConfigCondition where
  /-- `1 <= P_T0H` fails. -/
  | t0hPositive
  /-- `P_T0H < P_T1H` fails. -/
  | t0hBelowT1h
  /-- `P_T1H < P_TBIT` fails. -/
  | t1hBelowTbit
  /-- `P_RESET_US >= 1` fails. -/
  | resetUsPositive
  /-- `P_FCPU >= 1` fails. -/
  | fcpuPositive
  /-- `RESET_CYC > P_TBIT` fails. -/
  | resetLongerThanBit
  /-- `P_LATCH_CYC >= RESET_CYC` fails. -/
  | latchCoversReset
  /-- `P_DEFAULT_PIN in 0..7` fails. -/
  | defaultPinInPort
  /-- A nibble of `P_PACK4_POS` is not inside bits 15..0. -/
  | nibblesInWord
  /-- Two nibbles of `P_PACK4_POS` overlap. -/
  | nibblesDisjoint
  deriving DecidableEq, Repr

/-- DESIGN CHOICE, unsafe (log 2): the example configuration of decision D22, which `State.reset` holds so that it can be evaluated. D22
names no port, so the port is number 0; the byte-level layout is declaration order r, g, b(, w), little-endian (safe, log 13). No
statement of this package rests on these figures: each is about every configuration. -/
def Config.d22 : Config where
  t0h := 3
  t1h := 6
  tbit := 10
  resetUs := 50
  fcpu := 8000000
  latchCyc := 400
  startLat := 0
  defaultPort := 0
  defaultPin := 1
  pack4Pos := { gpos := 8, rpos := 4, bpos := 0 }
  rgbLayout := { r := 0, g := 1, b := 2 }
  rgbwLayout := { r := 0, g := 1, b := 2, w := 3 }
  wordOrder := .little

/-- FREE VALUE, safe (log 3): what the port register holds after the n-th draw. The spec: "The model takes the initial value of
PORT[7:0] as a draw: any 8-bit value" (R33, R35). -/
opaque Config.portDraw : Nat → Byte

/-- FREE VALUE, safe (log 4): which of the values a bit of the port has held is the one the core's n-th port write read (R50). Used only
for bits that held both values since acceptance. -/
opaque Config.raceRead : Nat → Byte

end Sys2Proof
end

