-- ==== Sys2Proof/Machine/State.lean ====
section
/-! DEFINITION. The state of the core and of what stands around it, as plain data: registers (R22, R28, R29), the port (R32), the
FAULT field (R31), the record sources and the byte-addressed memory (R34, R37, R43), the configuration (R26), what the outside
world does in the cycles to come (R20, R124), and the state after reset (R35). -/
namespace Sys2Proof.Machine

/-- The faults of R111: contract violations the source calls undefined behaviour. Each is first recorded in `FAULT` by a next
state, which keeps the whole state (R109, R115); from then on every step answers it as its outcome. All are SAFE: the model stops
where the hardware goes on. -/
inductive Fault where
  /-- Code 3: `0x08` or `0x09` with `popcount(MASK) != 1`. Raised at acceptance; safe. Records the mask. -/
  | invalidMask (mask : Byte)
  /-- Code 5: `COUNT > E(SRC)`. Raised at acceptance; safe. Records `COUNT` and `E`. -/
  | countExceedsExtent (count : Half) (extent : Nat)
  /-- Code 6: a stall on a cycle `t < TS` of an accepted command. Raised during the run; safe. Records the cycle `t`. -/
  | preempted (cycle : Nat)
  /-- Code 7: a write to an element `k < COUNT` before `TE`. Raised during the run; safe. Records `k` and the cycle. -/
  | sourceModified (k cycle : Nat)
  /-- Code 8: another agent's write to the selected pin before `TE`. Raised during the run; safe. Records the cycle. -/
  | pinConflict (cycle : Nat)
  deriving DecidableEq, Repr

/-- The refusals of R111: forms the spec gives no meaning. Recorded in `FAULT` like a fault (R110). All are SAFE. -/
inductive Refusal where
  /-- An instruction without a meaning, raised by an arm of `exec` only; safe. No arm of this model uses it. -/
  | notModelled (mnemonic : String)
  /-- Code 1: a reserved command word (R61). Raised by `present`; safe. Records `CMD`. -/
  | reservedCommand (cmd : Byte)
  /-- Code 2: a command presented while BUSY = 1 (R84). Raised by `present` and by every meaning; safe. Records `CMD`. -/
  | commandWhileBusy (cmd : Byte)
  /-- Code 4: a stream longer than 65535 bytes (R87). Raised at acceptance; safe. Records `COUNT`. -/
  | countTooLarge (count : Half)
  /-- Code 9: a configuration that fails a condition of R112. Answered by `build` and by every step; safe. Records the
  condition. -/
  | configInvalid (failed : ConfigCondition)
  deriving DecidableEq, Repr

/-- `FAULT`, the model-only field of R31. -/
inductive FaultReg where
  | none
  | fault (r : Fault)
  | refused (r : Refusal)
  deriving DecidableEq, Repr

/-- `PHASE` (R28). -/
inductive Phase where
  | idle
  | sending
  | latching
  deriving DecidableEq, Repr

/-- `SUB`: which half of the bit cell is being driven (R29). -/
inductive Sub where
  | hi
  | lo
  deriving DecidableEq, Repr

/-- An RGB record (R62). -/
structure Rgb where
  r : Byte
  g : Byte
  b : Byte
  deriving DecidableEq, Repr

/-- An RGBW record (R63). -/
structure Rgbw where
  r : Byte
  g : Byte
  b : Byte
  w : Byte
  deriving DecidableEq, Repr

/-- One element of a record source (R37). -/
inductive Element where
  | raw (v : Byte)
  | rgb (p : Rgb)
  | rgbw (p : Rgbw)
  | pack4 (v : Half)
  deriving DecidableEq, Repr

/-- A record source: a finite sequence of records of one kind (R37), or, in the byte-level view (R43), `extent` elements of one
kind laid out in byte-addressed memory from the address that is the source's own reference. -/
inductive Source where
  | raw (bytes : List Byte)
  | rgb (records : List Rgb)
  | rgbw (records : List Rgbw)
  | pack4 (words : List Half)
  | mem (kind : Fmt) (extent : Nat)
  deriving DecidableEq, Repr

/-- What the host or another agent writes in a cycle (R20): the port (R50), the record sources (R34, R41), or byte-addressed
memory (R43). -/
inductive WorldWrite where
  /-- Write the bits of `mask` of the port `port` to those of `value`. -/
  | port (port : Nat) (mask value : Byte)
  /-- Write element `k` of the typed record source at `ref`. -/
  | element (ref : Ref) (k : Nat) (e : Element)
  /-- Place a record source at `ref`, in place of what was there. -/
  | place (ref : Ref) (source : Source)
  /-- Take away the record source at `ref`, which leaves the reference dangling. -/
  | drop (ref : Ref)
  /-- Write one byte of byte-addressed memory. -/
  | byte (addr : Nat) (v : Byte)
  deriving DecidableEq, Repr

/-- What the outside world does in one clock cycle: the command the host presents, whether the core is stalled (R113), and the
writes of the host and of other agents. -/
structure CycleInput where
  command : Option Command := none
  stall : Bool := false
  writes : List WorldWrite := []
  deriving DecidableEq, Repr

/-- One entry of the inbox: a clock cycle with its inputs, or a reset of the core (R125). -/
inductive Event where
  | cycle (input : CycleInput)
  | reset
  deriving DecidableEq, Repr

/-- The machine. BUSY is no field: it is `PHASE != IDLE` (R25, `State.busy`); LINE is a bit of `PORT` (R32, `State.line`). -/
structure State where
  /-- The configuration, constant (R26; DEDUCED, safe, log 18). -/
  cfg : Config
  /-- `PHASE` (R28). -/
  phase : Phase
  /-- `CMD` (R22). -/
  cmd : Byte
  /-- `SRC` (R22). -/
  src : Ref
  /-- `COUNT` (R22). -/
  count : Half
  /-- `MASK` (R22). -/
  mask : Byte
  /-- `EMASK` (R22). -/
  emask : Byte
  /-- `STREAM` (R29). -/
  stream : List Byte
  /-- `BYTEIDX` (R29). -/
  byteIdx : Nat
  /-- `BITIDX` (R29). -/
  bitIdx : Nat
  /-- `SHIFT` (R29). -/
  shift : Byte
  /-- `SUB` (R29). -/
  sub : Sub
  /-- `CYC` (R29). -/
  cyc : Nat
  /-- `LATCHCNT` (R29). -/
  latchCnt : Nat
  /-- `STARTCNT` (R29). -/
  startCnt : Nat
  /-- `FAULT`, model-only (R31). -/
  fault : FaultReg
  /-- `PORT[7:0]` at `P_DEFAULT_PORT` (R32). -/
  port : Byte
  /-- The record sources by reference, strictly rising; a reference not listed is null or dangling (R34, R37, R39). -/
  sources : List (Ref × Source)
  /-- Byte-addressed memory in canonical form; an address not listed reads as 0 (R43; DESIGN CHOICE, unsafe, log 7). -/
  mem : List Host.Cell
  /-- The model's own: what the outside world does in the cycles to come, next first. Empty means quiet cycles (DESIGN CHOICE, safe, log 5). -/
  inbox : List Event
  /-- The model's own: a command is accepted and cycle `t = 0` of its schedule is not yet taken (DESIGN CHOICE, safe, log 6). -/
  fresh : Bool
  /-- The model's own: clock cycles of the command so far, that is the cycle `t` the next step of a running command takes (R19). -/
  clk : Nat
  /-- The model's own: the port bits that held 1 at some time since acceptance, from which the race of R50 draws. -/
  held1 : Byte
  /-- The model's own: the port bits that held 0 at some time since acceptance. -/
  held0 : Byte
  /-- The model's own: how many free values have been drawn. -/
  draws : Nat
  deriving DecidableEq, Repr

/-- The state after reset, for a configuration (R35, R125): IDLE, no fault, the port a draw (R33). R35 leaves the command and
datapath registers unspecified ("not read in IDLE"): the model names 0 for each (DESIGN CHOICE, unsafe, log 1). The record sources are
a parameter of the run that the host sets (R20, R34), and the spec gives no initial contents: the model starts with none (DESIGN
CHOICE, unsafe, log 22). -/
def State.resetWith (c : Config) : State where
  cfg := c
  phase := .idle
  cmd := 0
  src := 0
  count := 0
  mask := 0
  emask := 0
  stream := []
  byteIdx := 0
  bitIdx := 0
  shift := 0
  sub := .lo
  cyc := 0
  latchCnt := 0
  startCnt := 0
  fault := .none
  port := Config.portDraw 0
  sources := []
  mem := []
  inbox := []
  fresh := false
  clk := 0
  held1 := 0
  held0 := 0
  draws := 1

/-- The machine right after reset, under the example configuration of decision D22 (DESIGN CHOICE, unsafe, log 2). -/
def State.reset : State := State.resetWith Config.d22

end Sys2Proof.Machine
end

