-- ==== Sys2Proof/Machine/Timing.lean ====
section
/-! DEFINITION. What follows from a configuration: the derived durations (R9, R11, R71), `DEFAULT_MASK` (R13), the frame's
milestones (R88), the checks of R112, durations in time (R136), and the population count the mask check uses (R84). -/
namespace Sys2Proof

/-- The number of bits of an 8-bit value that are 1 (`popcount`, R84). -/
def popcount (b : Byte) : Nat :=
  (List.range 8).countP fun i => b.getLsbD i

/-- `THIGH(x)`: the high duration of a bit, which depends only on the bit (R71). -/
def Config.tHigh (c : Config) (x : Bool) : Nat :=
  if x then c.t1h else c.t0h

/-- `TLOW(x) = P_TBIT - THIGH(x)` (R71); `TLOW0` and `TLOW1` of R9 are its two values. -/
def Config.tLow (c : Config) (x : Bool) : Nat :=
  c.tbit - c.tHigh x

/-- `RESET_CYC = ceil(P_RESET_US * P_FCPU / 1_000_000)` (R11). -/
def Config.resetCyc (c : Config) : Nat :=
  (c.resetUs * c.fcpu + 999999) / 1000000

/-- `DEFAULT_MASK = 1 << P_DEFAULT_PIN`, 8 bits (R13). -/
def Config.defaultMask (c : Config) : Byte :=
  1#8 <<< c.defaultPin

/-- `TS = A + N * P_TBIT` for a stream of `len` bytes, `N = 8 * len`: the cycle LATCHING starts (R88). -/
def Config.latchStartCycle (c : Config) (len : Nat) : Nat :=
  c.startLat + 8 * len * c.tbit

/-- `TE = TS + P_LATCH_CYC`: the cycle BUSY falls (R88). -/
def Config.endCycle (c : Config) (len : Nat) : Nat :=
  c.latchStartCycle len + c.latchCyc

/-- The nibble at bit offset `p` lies inside bits 15..0 (R14). -/
def nibbleInWord (p : Nat) : Bool := decide (p + 4 ≤ 16)

/-- The nibbles at bit offsets `p` and `q` do not overlap (R14). -/
def nibblesApart (p q : Nat) : Bool := decide (p + 4 ≤ q) || decide (q + 4 ≤ p)

/-- Does this configuration meet a condition of R112? -/
def Config.meets (c : Config) : ConfigCondition → Bool
  | .t0hPositive => decide (1 ≤ c.t0h)
  | .t0hBelowT1h => decide (c.t0h < c.t1h)
  | .t1hBelowTbit => decide (c.t1h < c.tbit)
  | .resetUsPositive => decide (1 ≤ c.resetUs)
  | .fcpuPositive => decide (1 ≤ c.fcpu)
  | .resetLongerThanBit => decide (c.tbit < c.resetCyc)
  | .latchCoversReset => decide (c.resetCyc ≤ c.latchCyc)
  | .defaultPinInPort => decide (c.defaultPin ≤ 7)
  | .nibblesInWord => nibbleInWord c.pack4Pos.gpos && nibbleInWord c.pack4Pos.rpos && nibbleInWord c.pack4Pos.bpos
  | .nibblesDisjoint =>
    nibblesApart c.pack4Pos.gpos c.pack4Pos.rpos && nibblesApart c.pack4Pos.gpos c.pack4Pos.bpos &&
      nibblesApart c.pack4Pos.rpos c.pack4Pos.bpos

/-- The conditions in the order R112 lists them. -/
def ConfigCondition.all : List ConfigCondition :=
  [.t0hPositive, .t0hBelowT1h, .t1hBelowTbit, .resetUsPositive, .fcpuPositive, .resetLongerThanBit, .latchCoversReset,
    .defaultPinInPort, .nibblesInWord, .nibblesDisjoint]

/-- The first condition of R112 that fails, if one does: what `refuse(ConfigInvalid)` records. -/
def Config.firstFailure (c : Config) : Option ConfigCondition :=
  ConfigCondition.all.find? fun k => !c.meets k

/-- `d` cycles in seconds, `d / P_FCPU` (R136). No rule depends on it. -/
def Config.seconds (c : Config) (d : Nat) : Rat :=
  (d : Rat) / (c.fcpu : Rat)

end Sys2Proof
end

