-- ==== Sys2Proof/Machine/Flags.lean ====
section
/-! DEFINITION. The core has no status flags and returns no value (R24, R94). Its only outputs are BUSY (R25) and the line (R32);
both are computed from State, here. -/
namespace Sys2Proof.Machine

/-- `BUSY = 1` exactly when `PHASE != IDLE` (R25). -/
def State.busy (s : State) : Bool :=
  decide (s.phase ≠ .idle)

/-- The level of the port pin that a one-bit mask selects (R32). -/
def State.pinLevel (s : State) (m : Byte) : Bool :=
  decide (s.port &&& m ≠ 0)

/-- Is `FAULT` set? -/
def State.faulted (s : State) : Bool :=
  decide (s.fault ≠ .none)

/-- `LINE = PORT[p]`, where `EMASK = 1 << p` (R32). No level before the first command after a reset, when no pin is selected (R33),
and none after a fault or refusal during a run (R115; DEDUCED, safe, log 14). -/
def State.line (s : State) : Option Bool :=
  if s.faulted && s.busy then none
  else if popcount s.emask = 1 then some (s.pinLevel s.emask)
  else none

end Sys2Proof.Machine
end

