-- ==== Sys2Proof/Machine/Memory.lean ====
section
/-! DEFINITION. Plain data by key: lists of (key, value) pairs with strictly rising keys, and the byte-addressed memory of the
optional byte-level view (R43) as such a list. -/
namespace Sys2Proof.Machine

/-- The keys rise strictly: the canonical form of a list of (key, value) pairs. -/
abbrev KeysRise {α : Type} (l : List (Nat × α)) : Prop :=
  l.Pairwise fun a b => a.1 < b.1

/-- The value at a key, if the key is listed. -/
def lookupKey {α : Type} (k : Nat) : List (Nat × α) → Option α
  | [] => none
  | (j, v) :: l => if j = k then some v else lookupKey k l

/-- Put a value at a key, keeping the keys in rising order. -/
def insertKey {α : Type} (k : Nat) (v : α) : List (Nat × α) → List (Nat × α)
  | [] => [(k, v)]
  | (j, w) :: l =>
    if k < j then (k, v) :: (j, w) :: l
    else if k = j then (k, v) :: l
    else (j, w) :: insertKey k v l

/-- Take a key away. -/
def eraseKey {α : Type} (k : Nat) : List (Nat × α) → List (Nat × α)
  | [] => []
  | (j, w) :: l => if j = k then l else (j, w) :: eraseKey k l

/-- DESIGN CHOICE, unsafe (log 7): what a byte of memory that nothing has written reads as. -/
def unlistedByte : Byte := 0#8

/-- The canonical form of memory: strictly rising addresses, no entry equal to what an unlisted address reads as. -/
abbrev Memory.wf (m : List Host.Cell) : Prop :=
  KeysRise m ∧ ∀ x ∈ m, x.2 ≠ unlistedByte

/-- The byte at an address. -/
def readByte (m : List Host.Cell) (a : Nat) : Byte :=
  (lookupKey a m).getD unlistedByte

/-- Write one byte; writing what an unlisted address reads as takes the entry away. -/
def writeByte (m : List Host.Cell) (a : Nat) (v : Byte) : List Host.Cell :=
  if v = unlistedByte then eraseKey a m else insertKey a v m

/-- `MemRead(addr, n)`: `n` bytes from `addr`, lowest address first (R43). Addresses do not wrap: the spec fixes no address width
(R47). -/
def memRead (m : List Host.Cell) (a n : Nat) : List Byte :=
  (List.range n).map fun i => readByte m (a + i)

/-- A 16-bit word from its two bytes in memory, the lower address first, in the order `P_WORD_ORDER` (R43, R44). -/
def wordOfBytes (o : WordOrder) (b0 b1 : Byte) : Half :=
  match o with
  | .little => b1 ++ b0
  | .big => b0 ++ b1

end Sys2Proof.Machine
end

