-- ==== Sys2Proof/Machine/Operands.lean ====
section
/-! DEFINITION. The operands of a command: the effective mask (R59), the record source with its extent and elements (R37 to R39,
R43), the colour-format converter (R85) and the byte sequencer (R86), the packed layout both ways (R64, R105). -/
namespace Sys2Proof.Machine

/-- The kind of a record source (R37). -/
def Source.kind : Source → Fmt
  | .raw _ => .raw
  | .rgb _ => .rgb
  | .rgbw _ => .rgbw
  | .pack4 _ => .pack4
  | .mem k _ => k

/-- How many elements a record source holds. -/
def Source.length : Source → Nat
  | .raw l => l.length
  | .rgb l => l.length
  | .rgbw l => l.length
  | .pack4 l => l.length
  | .mem _ n => n

/-- The record source of kind `f` at a reference. A reference to nothing, or to a source of another kind, is an invalid `SRC`
(R37, R39; DEDUCED, safe, log 8). -/
def sourceAt (sources : List (Ref × Source)) (f : Fmt) (r : Ref) : Option Source :=
  match lookupKey r sources with
  | none => none
  | some x => if x.kind = f then some x else none

/-- `E(SRC)`: the extent; 0 for a null or invalid `SRC` (R39). -/
def State.extent (s : State) (f : Fmt) (r : Ref) : Nat :=
  match sourceAt s.sources f r with
  | none => 0
  | some x => x.length

/-- The bytes one element occupies in byte-addressed memory (R43). -/
def elementSize : Fmt → Nat
  | .raw => 1
  | .rgb => 3
  | .rgbw => 4
  | .pack4 => 2

/-- Element `k` of the elements of kind `f` laid out in memory from `base` (R43). -/
def memElement (c : Config) (m : List Host.Cell) (f : Fmt) (base k : Nat) : Element :=
  let at_ (i : Nat) : Byte := readByte m (base + elementSize f * k + i)
  match f with
  | .raw => .raw (at_ 0)
  | .rgb => .rgb { r := at_ c.rgbLayout.r, g := at_ c.rgbLayout.g, b := at_ c.rgbLayout.b }
  | .rgbw => .rgbw { r := at_ c.rgbwLayout.r, g := at_ c.rgbwLayout.g, b := at_ c.rgbwLayout.b, w := at_ c.rgbwLayout.w }
  | .pack4 => .pack4 (wordOfBytes c.wordOrder (at_ 0) (at_ 1))

/-- Element `k` of a record source that stands at reference `r`. -/
def elementOf (c : Config) (m : List Host.Cell) (r : Ref) (x : Source) (k : Nat) : Option Element :=
  match x with
  | .raw l => l[k]?.map .raw
  | .rgb l => l[k]?.map .rgb
  | .rgbw l => l[k]?.map .rgbw
  | .pack4 l => l[k]?.map .pack4
  | .mem f n => if k < n then some (memElement c m f r k) else none

/-- `ReadRecord(SRC, k)` for the format `f`; `none` exactly when `k >= E(SRC)` (R38), which acceptance rules out. -/
def State.readRecord (s : State) (f : Fmt) (r : Ref) (k : Nat) : Option Element :=
  match sourceAt s.sources f r with
  | none => none
  | some x => elementOf s.cfg s.mem r x k

/-- The nibble of a packed word at bit offset `p`, zero-extended to a byte: no shift, no rescale (R64). -/
def nibbleByte (v : Half) (p : Nat) : Byte :=
  (v.extractLsb' p 4).setWidth 8

/-- `unpack`: the green, red and blue bytes of a packed word, in wire order (R64, R85, R105). -/
def unpack (p : PackPos) (v : Half) : Byte × Byte × Byte :=
  (nibbleByte v p.gpos, nibbleByte v p.rpos, nibbleByte v p.bpos)

/-- `pack(g, r, b) = (g << gpos) | (r << rpos) | (b << bpos)` (R105). -/
def pack (p : PackPos) (g r b : BitVec 4) : Half :=
  (g.setWidth 16 <<< p.gpos) ||| (r.setWidth 16 <<< p.rpos) ||| (b.setWidth 16 <<< p.bpos)

/-- `Bytes(FMT, e)`: the colour-format converter, wire order green, red, blue, white (R85). -/
def bytesOf (p : PackPos) : Element → List Byte
  | .raw v => [v]
  | .rgb e => [e.g, e.r, e.b]
  | .rgbw e => [e.g, e.r, e.b, e.w]
  | .pack4 v => [(unpack p v).1, (unpack p v).2.1, (unpack p v).2.2]

/-- `BPE(FMT)`: bytes per element on the wire (R57, R85). -/
def bpe : Fmt → Nat
  | .raw => 1
  | .rgb => 3
  | .rgbw => 4
  | .pack4 => 3

/-- `L = BPE(FMT) * COUNT`, on unbounded naturals (R16, R86). -/
def streamLength (f : Fmt) (count : Half) : Nat :=
  bpe f * count.toNat

/-- The bytes of element `k`; `[]` past the extent, which acceptance rules out (R38). -/
def State.recordBytes (s : State) (f : Fmt) (r : Ref) (k : Nat) : List Byte :=
  match s.readRecord f r k with
  | none => []
  | some e => bytesOf s.cfg.pack4Pos e

/-- `Stream(FMT, SRC, COUNT)`: the bytes of elements `0 .. COUNT-1` in order (R86). -/
def State.streamOf (s : State) (f : Fmt) (r : Ref) (count : Half) : List Byte :=
  (List.range count.toNat).flatMap fun k => s.recordBytes f r k

/-- `EMASK = (PINSEL = 1) ? MASK : DEFAULT_MASK` (R59). -/
def State.effectiveMask (s : State) (pinSel : Bool) (mask : Byte) : Byte :=
  if pinSel then mask else s.cfg.defaultMask

/-- The longest stream a command may have (R87). -/
def maxStream : Nat := 65535

end Sys2Proof.Machine
end

