-- ==== Sys2Proof/Machine/Ops.lean ====
section
/-! DEFINITION. The named operations over the state: raising a fault and refusing (R109, R110), the port's read-modify-write and its
race (R49, R50), what the host and other agents write (R20, R41, R50), a reset of the core (R125). -/
namespace Sys2Proof.Machine

/-- The outcome of a step or of a meaning. -/
abbrev Out := Host.Outcome State Fault Refusal

/-- `raise Fault(reason)`: record it and keep the whole state as it is on the faulting cycle (R109, R115; DEDUCED,
safe, log 11). -/
def State.raise (s : State) (r : Fault) : State :=
  { s with fault := .fault r }

/-- `refuse(reason)`: record it, with the same stopping rule (R110). -/
def State.refuse (s : State) (r : Refusal) : State :=
  { s with fault := .refused r }

/-- `if FAULT != none: no step` (R84, R109): a faulted or refused machine takes no further step; the outcome names the reason that
`FAULT` recorded. There is no return from it (R116). -/
def whenRunning (s : State) (k : State → Out) : Out :=
  match s.fault with
  | .none => k s
  | .fault r => .fault r
  | .refused r => .refused r

/-- Go on from a next state; a fault or a refusal stays what it is. -/
def onNext (o : Out) (k : State → Out) : Out :=
  match o with
  | .next s => k s
  | .fault r => .fault r
  | .refused r => .refused r

/-- The code of a fault, a model-only number (R111). -/
def Fault.code : Fault → Nat
  | .invalidMask _ => 3
  | .countExceedsExtent _ _ => 5
  | .preempted _ => 6
  | .sourceModified _ _ => 7
  | .pinConflict _ => 8

/-- The code of a refusal, a model-only number (R111); the host's own stand-in has none. -/
def Refusal.code : Refusal → Option Nat
  | .reservedCommand _ => some 1
  | .commandWhileBusy _ => some 2
  | .countTooLarge _ => some 4
  | .configInvalid _ => some 9
  | _ => none

/-- A port value became visible: every bit has now held what it holds in it (R50). Of several outside writes in one clock cycle each
value counts as held, those between two of them too (DESIGN CHOICE, safe, log 24). -/
def State.setPort (s : State) (v : Byte) : State :=
  { s with port := v, held1 := s.held1 ||| v, held0 := s.held0 ||| ~~~v }

/-- What the read of `PortRMW` returns (R49, R50). The read may have been taken at any cycle from acceptance up to the write, so
each bit reads as a value it has held since then: a bit that held one value only reads as that value; a bit that held both reads as
a free value (DEDUCED, safe, log 4). -/
def State.racedPort (s : State) : Byte :=
  (Config.raceRead s.draws &&& s.held1) ||| (~~~ Config.raceRead s.draws &&& ~~~ s.held0)

/-- `PortRMW(EMASK, level)`: set the selected bit to `level` and write the other bits back as they were read (R49, R50). -/
def State.portRmw (s : State) (level : Bool) : State :=
  { s.setPort ((s.racedPort &&& ~~~ s.emask) ||| (if level then s.emask else 0x00#8)) with draws := s.draws + 1 }

/-- Write element `k` of a typed source; an element of another kind, an index past the extent and a source laid out in memory are
left as they are (DESIGN CHOICE, safe, log 9). -/
def Source.setElement (x : Source) (k : Nat) (e : Element) : Source :=
  match x, e with
  | .raw l, .raw v => .raw (l.set k v)
  | .rgb l, .rgb p => .rgb (l.set k p)
  | .rgbw l, .rgbw p => .rgbw (l.set k p)
  | .pack4 l, .pack4 v => .pack4 (l.set k v)
  | x, _ => x

/-- One write of the host or of another agent takes place. A write to another port than `P_DEFAULT_PORT` does not reach the core's
port register (R36, R47). -/
def State.worldWrite (s : State) : WorldWrite → State
  | .port p m v => if p = s.cfg.defaultPort then s.setPort ((s.port &&& ~~~ m) ||| (v &&& m)) else s
  | .element r k e =>
    match lookupKey r s.sources with
    | none => s
    | some x => { s with sources := insertKey r (x.setElement k e) s.sources }
  | .place r x => { s with sources := insertKey r x s.sources }
  | .drop r => { s with sources := eraseKey r s.sources }
  | .byte a v => { s with mem := writeByte s.mem a v }

/-- The writes of one cycle take place, in order. -/
def State.world (s : State) (ws : List WorldWrite) : State :=
  ws.foldl State.worldWrite s

/-- Does this write reach the selected pin? (R50) -/
def State.hitsPin (s : State) : WorldWrite → Bool
  | .port p m _ => decide (p = s.cfg.defaultPort) && decide (m &&& s.emask ≠ 0)
  | .element _ _ _ => false
  | .place _ _ => false
  | .drop _ => false
  | .byte _ _ => false

/-- The element `k < COUNT` of the running command's source that this write changes, if it changes one (R41). Placing or taking away
the whole source writes every element, so it records element 0 (DESIGN CHOICE, safe,
log 9). -/
def State.hitsElement (s : State) : WorldWrite → Option Nat
  | .port _ _ _ => none
  | .element r k _ => if r = s.src ∧ k < s.count.toNat then some k else none
  | .place r _ => if r = s.src ∧ 0 < s.count.toNat then some 0 else none
  | .drop r => if r = s.src ∧ 0 < s.count.toNat then some 0 else none
  | .byte a _ =>
    match lookupKey s.src s.sources with
    | some (.mem f _) =>
      if s.src ≤ a ∧ a < s.src + elementSize f * s.count.toNat then some ((a - s.src) / elementSize f) else none
    | _ => none

/-- A reset of the core (R125): every register of the core takes its value after reset (R35), the port is a new draw (R33); the
configuration, the record sources, memory and what the outside world will do are not the core's and stay (DESIGN CHOICE, unsafe, log 10). -/
def State.coreReset (s : State) : State :=
  { State.resetWith s.cfg with
    port := Config.portDraw s.draws
    draws := s.draws + 1
    sources := s.sources
    mem := s.mem
    inbox := s.inbox }

end Sys2Proof.Machine
end

