-- ==== Sys2Proof/Machine/Accept.lean ====
section
/-! DEFINITION. Acceptance of a command (R84): the checks in their order, and what an accepted command latches. -/
namespace Sys2Proof.Machine

/-- What acceptance latches (R84): the command registers, `STREAM`, `PHASE <- SENDING`, `STARTCNT <- 0`, `BYTEIDX <- 0`,
`BITIDX <- 0`. The schedule of R88 then runs from `t = 0`, in the same cycle (`clockEdge`). From here on the race of R50 looks back
to the port as it is now. -/
def State.latch (s : State) (f : Fmt) (cmd : Byte) (src : Ref) (count : Half) (mask emask : Byte) : State :=
  { s with
    cmd := cmd
    src := src
    count := count
    mask := mask
    emask := emask
    stream := s.streamOf f src count
    phase := .sending
    startCnt := 0
    byteIdx := 0
    bitIdx := 0
    fresh := true
    clk := 0
    held1 := s.port
    held0 := ~~~ s.port }

/-- The checks of R84 after `BUSY`, in their order, for a command word that is not reserved. -/
def State.check (s : State) (f : Fmt) (cmd : Byte) (pinSel : Bool) (src : Ref) (count : Half) (mask : Byte) : State :=
  let emask := s.effectiveMask pinSel mask
  if popcount emask ≠ 1 then s.raise (.invalidMask emask)
  else if maxStream < streamLength f count then s.refuse (.countTooLarge count)
  else if s.extent f src < count.toNat then s.raise (.countExceedsExtent count (s.extent f src))
  else s.latch f cmd src count mask emask

/-- `Accept(CMD, SRC, COUNT, MASK)` for a command word that is not reserved (R84). -/
def accept (f : Fmt) (cmd : Byte) (pinSel : Bool) (src : Ref) (count : Half) (mask : Byte) (s : State) : Out :=
  whenRunning s fun s =>
    .next (if s.busy then s.refuse (.commandWhileBusy cmd) else s.check f cmd pinSel src count mask)

end Sys2Proof.Machine
end

