-- ==== Sys2Proof/Machine/Transmit.lean ====
section
/-! DEFINITION. The six commands (R97 to R102): each meaning is its acceptance, under its own command word; the run that follows is
the schedule (`Machine/Schedule.lean`), one clock cycle a step, beginning in the cycle of acceptance. -/
namespace Sys2Proof.Machine

/-- `TRANSMIT_RAW` (R100). -/
def execTransmitRaw (bytes : Ref) (length : Half) (mask : Byte) (s : State) : Host.Outcome State Fault Refusal :=
  accept .raw 0x00#8 false bytes length mask s

/-- `TRANSMIT_RGB` (R97). -/
def execTransmitRgb (records : Ref) (count : Half) (mask : Byte) (s : State) : Host.Outcome State Fault Refusal :=
  accept .rgb 0x01#8 false records count mask s

/-- `TRANSMIT_RGBW` (R99). -/
def execTransmitRgbw (records : Ref) (count : Half) (mask : Byte) (s : State) : Host.Outcome State Fault Refusal :=
  accept .rgbw 0x02#8 false records count mask s

/-- `TRANSMIT_4BPP` (R102). -/
def execTransmit4bpp (packed : Ref) (ledCount : Half) (mask : Byte) (s : State) : Host.Outcome State Fault Refusal :=
  accept .pack4 0x03#8 false packed ledCount mask s

/-- `TRANSMIT_RAW_PIN` (R101). -/
def execTransmitRawPin (bytes : Ref) (length : Half) (pin : Byte) (s : State) : Host.Outcome State Fault Refusal :=
  accept .raw 0x08#8 true bytes length pin s

/-- `TRANSMIT_RGB_PIN` (R98). -/
def execTransmitRgbPin (records : Ref) (count : Half) (pin : Byte) (s : State) : Host.Outcome State Fault Refusal :=
  accept .rgb 0x09#8 true records count pin s

end Sys2Proof.Machine
end

