-- ==== Sys2Proof/Machine/Dispatch.lean ====
section
/-! DEFINITION. One arm per command (R60). -/
namespace Sys2Proof.Machine

def exec (i : Instr) (s : State) : Host.Outcome State Fault Refusal :=
  match i with
  | .transmitRaw bytes length mask => Sys2Proof.Machine.execTransmitRaw bytes length mask s
  | .transmitRgb records count mask => Sys2Proof.Machine.execTransmitRgb records count mask s
  | .transmitRgbw records count mask => Sys2Proof.Machine.execTransmitRgbw records count mask s
  | .transmit4bpp packed ledCount mask => Sys2Proof.Machine.execTransmit4bpp packed ledCount mask s
  | .transmitRawPin bytes length pin => Sys2Proof.Machine.execTransmitRawPin bytes length pin s
  | .transmitRgbPin records count pin => Sys2Proof.Machine.execTransmitRgbPin records count pin s

end Sys2Proof.Machine
end

