-- ==== Sys2Proof/Machine/PulseEncoder.lean ====
section
/-! DEFINITION. The Pulse Encoder (R70 to R82): the register transfers of `ENCODE_BYTE`, one clock cycle each. -/
namespace Sys2Proof.Machine

/-- The bit on the wire: `SHIFT[7]` (R29, R82). -/
def State.wireBit (s : State) : Bool :=
  s.shift.getLsbD 7

/-- `SHIFT` when a cell begins: the byte itself before its first bit, then one place to the left for each bit sent, a 0 shifted in
(R72, R82). -/
def State.nextShift (s : State) (byte bit : Nat) : Byte :=
  if bit = 0 then s.stream.getD byte 0x00#8 else s.shift <<< 1

/-- The first cycle of the cell of bit `bit` of byte `byte`: the rising edge (R72, R88). `STARTCNT` has reached `P_START_LAT`. -/
def State.beginCell (s : State) (byte bit : Nat) : State :=
  { s with
    fresh := false
    startCnt := s.cfg.startLat
    byteIdx := byte
    bitIdx := bit
    shift := s.nextShift byte bit
    sub := .hi
    cyc := 0 }.portRmw true

/-- A later cycle of a cell, `o` cycles into it: the falling edge when `o = THIGH(x)`, else nothing but the count (R72, R88). -/
def State.continueCell (s : State) (o : Nat) : State :=
  if o = s.cfg.tHigh s.wireBit then { s with cyc := o, sub := .lo }.portRmw false
  else { s with cyc := o }

end Sys2Proof.Machine
end

