-- ==== Sys2Proof/Machine/Schedule.lean ====
section
/-! DEFINITION. The cycle schedule of an accepted command (R88) as a state machine: which cycle comes next, and what the core does on
it; the reset/latch controller (R90) and the return to IDLE (R91). -/
namespace Sys2Proof.Machine

/-- The kinds of cycle of R88. -/
inductive Move where
  /-- IDLE: nothing is scheduled. -/
  | rest
  /-- Cycle `t = n` of the start latency, `t < A`. -/
  | latency (n : Nat)
  /-- The first cycle of a bit cell. -/
  | beginCell (byte bit : Nat)
  /-- A later cycle of the current bit cell, offset `o`. -/
  | continueCell (o : Nat)
  /-- Cycle `TS`: LATCHING begins. -/
  | beginLatch
  /-- A later cycle of LATCHING. -/
  | continueLatch
  deriving DecidableEq, Repr

/-- After byte `k - 1`, or at the start for `k = 0`: the first cell of byte `k`, or LATCHING after the last byte (R76, R88, R92). -/
def State.byteMove (s : State) (k : Nat) : Move :=
  if k < s.stream.length then .beginCell k 0 else .beginLatch

/-- What R88 schedules for the cycle after the current one; for a command just accepted, for cycle `t = 0`. -/
def State.nextMove (s : State) : Move :=
  match s.phase with
  | .idle => .rest
  | .latching => .continueLatch
  | .sending =>
    if s.fresh then (if 0 < s.cfg.startLat then .latency 0 else s.byteMove 0)
    else if s.startCnt < s.cfg.startLat then
      (if s.startCnt + 1 < s.cfg.startLat then .latency (s.startCnt + 1) else s.byteMove 0)
    else if s.cyc + 1 < s.cfg.tbit then .continueCell (s.cyc + 1)
    else if s.bitIdx + 1 < 8 then .beginCell s.byteIdx (s.bitIdx + 1)
    else s.byteMove (s.byteIdx + 1)

/-- Cycle `TS`: `PHASE <- LATCHING`, the line is driven low (R88, R90, R92). `BYTEIDX` has reached the stream's length (R29), and
after an eighth bit `SHIFT` is `0x00` (R72). -/
def State.beginLatch (s : State) : State :=
  { s with
    phase := .latching
    fresh := false
    startCnt := s.cfg.startLat
    byteIdx := s.stream.length
    bitIdx := 0
    shift := if s.stream.isEmpty then s.shift else s.shift <<< 1
    latchCnt := 0 }.portRmw false

/-- What the core does on a cycle (R88). -/
def State.take (s : State) : Move → State
  | .rest => s
  | .latency n => { s with fresh := false, startCnt := n }
  | .beginCell byte bit => s.beginCell byte bit
  | .continueCell o => s.continueCell o
  | .beginLatch => s.beginLatch
  | .continueLatch => { s with latchCnt := s.latchCnt + 1 }

/-- The core takes the step its rules give. -/
def State.advance (s : State) : State :=
  s.take s.nextMove

/-- Is the cycle to be taken before `TS` (start latency or bit cells)? A stall on it is a preemption (R81, R113). -/
def State.beforeLatch (s : State) : Bool :=
  match s.nextMove with
  | .rest => false
  | .latency _ => true
  | .beginCell _ _ => true
  | .continueCell _ => true
  | .beginLatch => false
  | .continueLatch => false

/-- Cycle `TE`: when LATCHING has lasted `P_LATCH_CYC` cycles, `PHASE <- IDLE` and BUSY falls (R90, R91). -/
def State.finish (s : State) : State :=
  if s.phase = .latching ∧ s.cfg.latchCyc ≤ s.latchCnt + 1 then
    { s with phase := .idle, latchCnt := s.cfg.latchCyc }
  else s

end Sys2Proof.Machine
end

