-- ==== Sys2Proof/Machine/Cycle.lean ====
section
/-! DEFINITION. One clock cycle: the return to IDLE (R91), the command the host presents (R84), the run-time conditions in their
order (R113, R114), what other agents write (R41, R50), and the schedule's step (R88). The fetch of the next event, and where the
host's table words are placed. -/
namespace Sys2Proof.Machine

/-- The host presents a command (R84): nothing while `FAULT` is set; `CommandWhileBusy` first, then `ReservedCommand` (R114), then the
command's own checks. -/
def present (c : Command) (s : State) : Out :=
  whenRunning s fun s =>
    if s.busy then .next (s.refuse (.commandWhileBusy c.cmd))
    else
      match decode c with
      | .error _ => .next (s.refuse (.reservedCommand c.cmd))
      | .ok i => exec i s

/-- The cycle of a running command (R88, R113, R114): `Preempted`, then `PinConflict`, then `SourceModified`, each on the cycle `t` it
is detected and each leaving the state as it is; else the other agents' writes take place and the core takes its step. A stall in
LATCHING delays it. -/
def State.runCycle (s : State) (e : CycleInput) : State :=
  if e.stall && s.beforeLatch then s.raise (.preempted s.clk)
  else if e.writes.any s.hitsPin then s.raise (.pinConflict s.clk)
  else
    match e.writes.findSome? s.hitsElement with
    | some k => s.raise (.sourceModified k s.clk)
    | none =>
      let s := s.world e.writes
      let s := if e.stall then s else s.advance
      { s with clk := s.clk + 1 }

/-- What a cycle does after acceptance: nothing more in a faulted state; in IDLE only the outside world acts; else the command
runs. -/
def State.clockEdge (s : State) (e : CycleInput) : State :=
  if s.faulted then s
  else if s.busy then s.runCycle e
  else s.world e.writes

/-- One clock cycle with its inputs. A LATCHING that has lasted its time ends at the start of cycle `TE` (R91); a stall on `TE` or later has
no effect on it, since only stalls with `t < TE` delay `TE` (R113; DEDUCED, unsafe, log 15). The order of things
within a cycle is the model's (DESIGN CHOICE, unsafe, log 16). -/
def cycle (e : CycleInput) (s : State) : Out :=
  let s := s.finish
  match e.command with
  | none => .next (s.clockEdge e)
  | some c => onNext (present c s) fun s => .next (s.clockEdge e)

/-- The event the next step takes: a quiet cycle when the inbox is empty. -/
def State.event (s : State) : Event :=
  match s.inbox with
  | [] => .cycle {}
  | e :: _ => e

/-- The state whose inbox has given up its next event. -/
def State.popped (s : State) : State :=
  { s with inbox := s.inbox.tail }

/-- One step of a machine that may take one: a configuration that fails a condition of R112 is refused before any run; else the next
event takes place. -/
def runEvent (s : State) : Out :=
  match s.cfg.firstFailure with
  | some k => .refused (.configInvalid k)
  | none =>
    match s.event with
    | .reset => .next s.popped.coreReset
    | .cycle e => cycle e s.popped

/-- One step: none once `FAULT` is set (R109). -/
def clockStep (s : State) : Out :=
  whenRunning s runEvent

/-- The construction of the model for a configuration (R112): refused with `ConfigInvalid`, or the state after reset. -/
def build (c : Config) : Out :=
  match c.firstFailure with
  | some k => .refused (.configInvalid k)
  | none => .next (State.resetWith c)

/-- Place a table word where the next step fetches: the host presents that command, its operands zero, in the next clock cycle; what
was in the inbox comes after it (DESIGN CHOICE, safe, log 5, log 21). A word that is no command is not placed. -/
def placeWord (s : State) (nbits w : Nat) : State :=
  match commandOfTableWord nbits w with
  | none => s
  | some c => { s with inbox := .cycle { command := some c } :: s.inbox }

end Sys2Proof.Machine
end

