-- ==== Sys2Proof/Machine/Step.lean ====
section
/-! DEFINITION. The step: one clock cycle of the core and of what stands around it (`Machine/Cycle.lean`). -/
namespace Sys2Proof.Machine

/-- One clock cycle, or one reset event. -/
def step (s : State) : Host.Outcome State Fault Refusal :=
  clockStep s

/-- The state whose very next step presents the command of a table word, operands zero. -/
def State.withFetchWord (s : State) (nbits w : Nat) : State :=
  placeWord s nbits w

end Sys2Proof.Machine
end

