-- ==== Sys2Proof/Machine/Observe.lean ====
section
/-! DEFINITION. The waveform a command drives, as R19 writes waveforms, and what is read back from it: bit cells (R66), a byte's
eight cells (R72, R73), a frame (R67, R89), the level on each cycle (R88), and `Decode` (R106). These are for stating claims; the
step does not use them. -/
namespace Sys2Proof.Machine

/-- A waveform: a list of (level, duration) pairs (R19). -/
abbrev Wave := List (Bool × Nat)

/-- One bit cell (R66). -/
def cellWave (c : Config) (x : Bool) : Wave :=
  [(true, c.tHigh x), (false, c.tLow x)]

/-- The bits of a byte in the order they are sent, most significant first (R44, R74). -/
def bitsOf (b : Byte) : List Bool :=
  (List.range 8).map fun j => b.getLsbD (7 - j)

/-- `ENCODE_BYTE(b)`: eight bit cells, back to back (R72). -/
def byteWave (c : Config) (b : Byte) : Wave :=
  (bitsOf b).flatMap (cellWave c)

/-- The waveform of an accepted command from cycle `A` to cycle `TE`: the cells of every bit of the stream, then the latch (R67,
R89). -/
def frameWave (c : Config) (stream : List Byte) : Wave :=
  stream.flatMap (byteWave c) ++ [(false, c.latchCyc)]

/-- How many cycles a waveform lasts. -/
def Wave.duration (w : Wave) : Nat :=
  (w.map Prod.snd).sum

/-- How many cycles of a waveform are high. -/
def Wave.highTime (w : Wave) : Nat :=
  ((w.filter Prod.fst).map Prod.snd).sum

/-- The level of the line cycle by cycle. -/
def Wave.samples (w : Wave) : List Bool :=
  w.flatMap fun x => List.replicate x.2 x.1

/-- The level of the line `t` cycles into `ENCODE_BYTE(b)`: the closed form of R73. -/
def byteLevel (c : Config) (b : Byte) (t : Nat) : Bool :=
  decide (t % c.tbit < c.tHigh (b.getLsbD (7 - t / c.tbit)))

/-- Bit `j` of a stream: `STREAM[j div 8][7 - (j mod 8)]` (R88, decision D25). -/
def streamBit (stream : List Byte) (j : Nat) : Bool :=
  (stream.getD (j / 8) 0x00#8).getLsbD (7 - j % 8)

/-- The level of the line on cycle `t` of a command (R88): `before` during the start latency, then the bit cells, then low. -/
def scheduleLevel (c : Config) (stream : List Byte) (before : Bool) (t : Nat) : Bool :=
  if t < c.startLat then before
  else if t < c.latchStartCycle stream.length then
    decide ((t - c.startLat) % c.tbit < c.tHigh (streamBit stream ((t - c.startLat) / c.tbit)))
  else false

/-- A line's levels cycle by cycle, as maximal runs: adjacent runs of one level merge on the wire (R89). -/
def runsOf : List Bool → Wave
  | [] => []
  | x :: l =>
    match runsOf l with
    | [] => [(x, 1)]
    | (y, n) :: w => if x = y then (y, n + 1) :: w else (x, 1) :: (y, n) :: w

/-- The bits of a frame (R106): a high of `P_T1H` cycles is a 1, a high of `P_T0H` a 0, any other high makes it undecodable; a low of at
least `RESET_CYC` cycles ends it. A frame that does not end has no decoding (DESIGN CHOICE, safe, log 12). -/
def decodeBits (c : Config) : Wave → Option (List Bool)
  | [] => none
  | (true, d) :: w =>
    if d = c.t1h then (decodeBits c w).map (true :: ·)
    else if d = c.t0h then (decodeBits c w).map (false :: ·)
    else none
  | (false, d) :: w => if c.resetCyc ≤ d then some [] else decodeBits c w

/-- Eight bits, most significant first, as a byte. -/
def byteOfBits (l : List Bool) : Byte :=
  l.foldl (fun v x => (v <<< 1) ||| (if x then 0x01#8 else 0x00#8)) 0x00#8

/-- Bits grouped eight at a time (R106); a rest of fewer than eight has no decoding (DESIGN CHOICE, safe, log 12). -/
def groupBytes : List Bool → Option (List Byte)
  | [] => some []
  | a :: b :: c :: d :: e :: f :: g :: h :: l => (groupBytes l).map (byteOfBits [a, b, c, d, e, f, g, h] :: ·)
  | _ => none

/-- `Decode`: the bytes read back from a waveform's pulse widths (R106). -/
def decodeWave (c : Config) (w : Wave) : Option (List Byte) :=
  (decodeBits c w).bind groupBytes

end Sys2Proof.Machine
end

