-- ==== Sys2Proof/WellFormed.lean ====
section
/-! DEFINITION. What the spec asks of a configuration (R112) and of a command taken by itself (R84, R124): the checks that need no
state. -/
namespace Sys2Proof

/-- A configuration is well-formed when it meets every condition of R112. -/
abbrev Config.WellFormed (c : Config) : Prop :=
  c.firstFailure = none

/-- The host's duty of R124 and R133: a single-bit `MASK` when `PINSEL = 1`. -/
def Instr.maskOk (i : Instr) : Bool :=
  !i.pinSel || decide (popcount i.mask = 1)

/-- The stream's length is at most 65535 bytes (R87). -/
def Instr.lengthOk (i : Instr) : Bool :=
  decide (Machine.streamLength i.fmt i.count ≤ Machine.maxStream)

/-- A command that passes every check of R84 that needs no state. -/
abbrev Instr.WellFormed (i : Instr) : Prop :=
  i.maskOk = true ∧ i.lengthOk = true

end Sys2Proof
end

