-- ==== Sys2Proof/Safety.lean ====
section
/-! DEFINITION. The terms claims are stated in: runs, final states (R31), the conditions under which a command is accepted (R84), the
host's duties during a run (R124), the invariant of every step, and when two states can be told apart (R30). -/
namespace Sys2Proof.Machine

/-- `n` steps; `none` when a step answers a fault or a refusal. -/
def run : Nat → State → Option State
  | 0, s => some s
  | n + 1, s =>
    match step s with
    | .next t => run n t
    | .fault _ => none
    | .refused _ => none

/-- A final state of a run: IDLE, no fault recorded, nothing more to come. The spec says only that a state with `FAULT != none` is never
final (R31); the rest is the model's (DESIGN CHOICE, safe, log 23). -/
def State.final (s : State) : Prop :=
  s.phase = .idle ∧ s.fault = .none ∧ s.inbox = []

/-- `PHASE` on the coming cycle, as the machine shows it when it is left alone in that cycle. It is an observation of a step, which reads no
register of R30: `IDLE` where BUSY is 0 on that cycle, `SENDING` where the cycle lies before `TS`, `LATCHING` from `TS` to `TE - 1` (R88). -/
def State.nextPhase (s : State) : Phase :=
  match step { s with inbox := [] } with
  | .next t => t.phase
  | .fault _ => s.phase
  | .refused _ => s.phase

/-- The state before `i` is presented in the next clock cycle with nothing else happening then or later. -/
def State.commandedBy (s : State) (i : Instr) : State :=
  { s with inbox := [.cycle { command := some (encode i) }] }

/-- `EMASK` of command `i` (R59). -/
def State.maskOf (s : State) (i : Instr) : Byte :=
  s.effectiveMask i.pinSel i.mask

/-- `STREAM` of command `i` (R86). -/
def State.streamFor (s : State) (i : Instr) : List Byte :=
  s.streamOf i.fmt i.src i.count

/-- `t` is `s` but for the registers that R30 lets no claim read: `BYTEIDX`, `BITIDX`, `SHIFT`, `SUB`, `CYC`, `LATCHCNT`, `STARTCNT`. -/
def SameButHidden (s t : State) : Prop :=
  ∃ byteIdx bitIdx shift sub cyc latchCnt startCnt, t =
    { s with
      byteIdx := byteIdx, bitIdx := bitIdx, shift := shift, sub := sub, cyc := cyc, latchCnt := latchCnt, startCnt := startCnt }

/-- The outcome is a next state, namely `s` but for the registers that R30 lets no claim read. -/
def Answers (o : Out) (s : State) : Prop :=
  ∃ t, o = .next t ∧ SameButHidden s t

/-- Command `i` passes every check of R84 in state `s`. -/
structure Accepts (s : State) (i : Instr) : Prop where
  running : s.fault = .none
  idle : s.phase = .idle
  oneBit : popcount (s.maskOf i) = 1
  short : streamLength i.fmt i.count ≤ maxStream
  inExtent : i.count.toNat ≤ s.extent i.fmt i.src

/-- The wire bytes of a byte of a RAW source (R65, R100), written out for the statements. -/
def wireRaw : Option Element → List Byte
  | some (.raw v) => [v]
  | _ => []

/-- The wire bytes of an RGB record: green, red, blue (R62, R97). -/
def wireRgb : Option Element → List Byte
  | some (.rgb p) => [p.g, p.r, p.b]
  | _ => []

/-- The wire bytes of an RGBW record: green, red, blue, white (R63, R99). -/
def wireRgbw : Option Element → List Byte
  | some (.rgbw p) => [p.g, p.r, p.b, p.w]
  | _ => []

/-- The wire bytes of a packed word: its green, red and blue nibble, each zero-extended (R64, R102). -/
def wirePack4 (p : PackPos) : Option Element → List Byte
  | some (.pack4 v) =>
    [(v.extractLsb' p.gpos 4).setWidth 8, (v.extractLsb' p.rpos 4).setWidth 8, (v.extractLsb' p.bpos 4).setWidth 8]
  | _ => []

/-- No other agent has changed a bit of the port outside the selected pin since acceptance (R49, R50). -/
structure Unraced (s : State) : Prop where
  high : s.held1 &&& ~~~ s.emask = s.port &&& ~~~ s.emask
  low : s.held0 &&& ~~~ s.emask = ~~~ s.port &&& ~~~ s.emask

/-- The host's and the platform's duties on a cycle of a running command (R124, R129, R131, R132): no stall before LATCHING, no write
to the selected pin, no write to an element that is being sent. -/
structure DutiesKept (s : State) (e : CycleInput) : Prop where
  unstalled : e.stall = true → s.nextPhase ≠ .sending
  pinAlone : ∀ w ∈ e.writes, s.hitsPin w = false
  recordsStable : ∀ w ∈ e.writes, s.hitsElement w = none

/-- What is known of a running command: it is valid, its mask has one bit, its records are still there to be read and still give the
stream (R41, R42), and the port holds only values the race of R50 knows of. -/
structure RunningOk (s : State) : Prop where
  decodes : ∃ i, decode ⟨s.cmd, s.src, s.count, s.mask⟩ = .ok i ∧ s.stream = s.streamFor i ∧
    s.count.toNat ≤ s.extent i.fmt s.src ∧ s.emask = s.maskOf i
  oneBit : popcount s.emask = 1
  short : s.stream.length ≤ maxStream
  heldHigh : s.port &&& ~~~ s.held1 = 0
  heldLow : ~~~ s.port &&& ~~~ s.held0 = 0

/-- The invariant every step keeps: memory and the record sources are in canonical form, and a running command is as acceptance and
the host's duties leave it. -/
structure Inv (s : State) : Prop where
  memory : Memory.wf s.mem
  sources : KeysRise s.sources
  running : s.phase ≠ .idle → RunningOk s

/-- Two IDLE states that differ at most in the registers R35 leaves unspecified after reset ("not read in IDLE") and in the model's
own bookkeeping of a command. -/
structure SameOutside (s t : State) : Prop where
  idleLeft : s.phase = .idle
  idleRight : t.phase = .idle
  cfg : s.cfg = t.cfg
  fault : s.fault = t.fault
  port : s.port = t.port
  sources : s.sources = t.sources
  mem : s.mem = t.mem
  inbox : s.inbox = t.inbox
  draws : s.draws = t.draws

end Sys2Proof.Machine
end

