-- ==== Sys2Proof/Certificates/Slice0/Obligations.lean ====
section
/-! DEFINITION. The statements for the provers. Each docstring names the rule of the spec it formalises, and the log entry of every
choice of the model's that it rests on. None of them rests on the example configuration, on a register value the model names at reset,
or on a free value: each is for every configuration (well-formed where it says so), every state and every operand that its hypotheses
admit. No statement reads the seven registers of R30: where one says that nothing else changes, or that two ways give one state, it says so
through `Answers` or `SameButHidden`, which leave them open, and where one asks whether a command still runs on the coming cycle, and
whether that cycle lies before `TS`, it asks `State.nextPhase`, which observes the machine and reads none of them. -/

open Sys2Proof Sys2Proof.Machine

/-! ### Encoding -/

/-- R60: the 256 values of `CMD`, row by row. -/
def Obligations.OpcodeMapDecodes : Prop :=
  ∀ c : Command,
    (c.cmd = 0x00#8 → decode c = .ok (.transmitRaw c.src c.count c.mask)) ∧
    (c.cmd = 0x01#8 → decode c = .ok (.transmitRgb c.src c.count c.mask)) ∧
    (c.cmd = 0x02#8 → decode c = .ok (.transmitRgbw c.src c.count c.mask)) ∧
    (c.cmd = 0x03#8 → decode c = .ok (.transmit4bpp c.src c.count c.mask)) ∧
    (c.cmd = 0x08#8 → decode c = .ok (.transmitRawPin c.src c.count c.mask)) ∧
    (c.cmd = 0x09#8 → decode c = .ok (.transmitRgbPin c.src c.count c.mask)) ∧
    (c.cmd ∉ [0x00#8, 0x01#8, 0x02#8, 0x03#8, 0x08#8, 0x09#8] → ∃ e, decode c = .error e)

/-- R56, R59, R60: decoding an encoded command gives it back with every operand, and every command that decodes is the encoding of
what it decodes to, so no bit is dropped and no two words mean one command. -/
def Obligations.DecodeAndEncodeAgree : Prop :=
  (∀ i : Instr, decode (encode i) = .ok i) ∧ ∀ (c : Command) (i : Instr), decode c = .ok i → encode i = c

/-- R56, R60, R61: a few command words written out from the encoding, and two reserved ones. -/
def Obligations.CommandWordsOfTheTable : Prop :=
  decode ⟨0b00000000#8, 7, 5, 0⟩ = .ok (.transmitRaw 7 5 0) ∧
  decode ⟨0b00000001#8, 7, 5, 0⟩ = .ok (.transmitRgb 7 5 0) ∧
  decode ⟨0b00000010#8, 7, 5, 0⟩ = .ok (.transmitRgbw 7 5 0) ∧
  decode ⟨0b00000011#8, 7, 5, 0⟩ = .ok (.transmit4bpp 7 5 0) ∧
  decode ⟨0b00001000#8, 7, 5, 0x80#8⟩ = .ok (.transmitRawPin 7 5 0x80#8) ∧
  decode ⟨0b00001001#8, 7, 5, 0x80#8⟩ = .ok (.transmitRgbPin 7 5 0x80#8) ∧
  decode ⟨0b00001010#8, 7, 5, 0x80#8⟩ = .error (.pinNotOffered 0x0A#8) ∧
  decode ⟨0b00010000#8, 7, 5, 0⟩ = .error (.rsvNonzero 0x10#8)

/-- R69, R68: the expansion of the generic `transmit(records, count[, pin])`; the pinned RGBW and packed forms are reserved words. "In a
command without a pin, `MASK` is ignored and a model may leave it at any value" (R68): that the slot is 0 there is the model's choice (log
17). -/
def Obligations.GenericTransmitExpands : Prop :=
  ∀ (r : Ref) (n : Half) (m : Byte),
    decode (encodeTransmit .rgb r n none) = .ok (.transmitRgb r n 0) ∧
    decode (encodeTransmit .rgb r n (some m)) = .ok (.transmitRgbPin r n m) ∧
    decode (encodeTransmit .rgbw r n none) = .ok (.transmitRgbw r n 0) ∧
    (encodeTransmit .rgbw r n (some m)).cmd = 0x0A#8 ∧
    decode (encodeTransmit .rgbw r n (some m)) = .error (.pinNotOffered 0x0A#8) ∧
    decode (encodeTransmit .packed r n none) = .ok (.transmit4bpp r n 0) ∧
    (encodeTransmit .packed r n (some m)).cmd = 0x0B#8 ∧
    decode (encodeTransmit .packed r n (some m)) = .error (.pinNotOffered 0x0B#8) ∧
    ∀ (t : RecordType) (p : Option Byte) (i : Instr), expandTransmit t r n p = some i ↔ decode (encodeTransmit t r n p) = .ok i

/-! ### The step and acceptance -/

/-- R84, R88, R91: when the next event is a clock cycle in which the host presents a command that decodes to `i`, `exec i` at the start of
that cycle answers a next state, and the step answers what the rest of the same cycle makes of it, the registers of R30 aside. That a step
is one clock cycle is the model's choice (log 6), and so is the order within it: LATCHING ends first (as R91 lets the next command be
accepted on cycle `TE`), then the command, then the outside's writes and the schedule (log 16). -/
def Obligations.StepRunsTheDecodedCommand : Prop :=
  ∀ (s : State) (e : CycleInput) (rest : List Event) (c : Command) (i : Instr),
    s.fault = .none → s.cfg.WellFormed → s.inbox = .cycle e :: rest → e.command = some c → decode c = .ok i →
    ∃ t, exec i { s with phase := (if s.nextPhase = .idle then .idle else s.phase), inbox := rest } = .next t ∧
      Answers (step s) (t.clockEdge e)

/-- R109, R112: a machine with no fault recorded and a well-formed configuration always takes its step. That a step which meets a fault or a
refusal answers a next state that records it is the model's reading (log 11). -/
def Obligations.StepCompletesUnlessFaulted : Prop :=
  ∀ s : State, s.fault = .none → s.cfg.WellFormed → ∃ t, step s = .next t

/-- R61: a reserved command word presented in IDLE: the refusal is recorded and nothing else changes, so the core stays IDLE, no operand is
latched and the port is not written. That the outside's writes of that cycle do not take place either is the model's choice (log 16). -/
def Obligations.ReservedCommandChangesNothing : Prop :=
  ∀ (s : State) (e : CycleInput) (rest : List Event) (c : Command),
    s.fault = .none → s.cfg.WellFormed → s.phase = .idle → s.inbox = .cycle e :: rest → e.command = some c →
    c.cmd ∉ [0x00#8, 0x01#8, 0x02#8, 0x03#8, 0x08#8, 0x09#8] →
    Answers (step s) { s with inbox := rest, fault := .refused (.reservedCommand c.cmd) }

/-- R84, R93, R130: any command word presented while BUSY = 1 is refused; nothing else changes, and nothing is queued. That this comes before
the run-time conditions of the same cycle, and that the outside's writes of that cycle do not take place, is the model's choice (log 16). -/
def Obligations.BusyRefusesEveryCommand : Prop :=
  ∀ (s : State) (e : CycleInput) (rest : List Event) (c : Command),
    s.fault = .none → s.cfg.WellFormed → s.inbox = .cycle e :: rest → e.command = some c →
    s.nextPhase ≠ .idle →
    Answers (step s) { s with inbox := rest, fault := .refused (.commandWhileBusy c.cmd) }

/-- R84: the checks in their order, for any command word, and what an accepted command latches. The three counters that R84 sets to 0 are
among the registers R30 lets no claim read, and are left open with the other four. The fields `fresh`, `clk`, `held1` and `held0` are the
model's own (logs 4 and 6). -/
def Obligations.AcceptanceChecksInOrder : Prop :=
  ∀ (s : State) (c : Command),
    (∀ r, s.fault = .fault r → present c s = .fault r) ∧
    (∀ r, s.fault = .refused r → present c s = .refused r) ∧
    (s.cfg.WellFormed → popcount s.cfg.defaultMask = 1) ∧
    (s.fault = .none → s.busy = true → Answers (present c s) { s with fault := .refused (.commandWhileBusy c.cmd) }) ∧
    (s.fault = .none → s.busy = false → (∃ e, decode c = .error e) →
      Answers (present c s) { s with fault := .refused (.reservedCommand c.cmd) }) ∧
    ∀ i : Instr, decode c = .ok i → s.fault = .none → s.busy = false →
      (popcount (if i.pinSel then c.mask else s.cfg.defaultMask) ≠ 1 →
        Answers (present c s) { s with fault := .fault (.invalidMask (if i.pinSel then c.mask else s.cfg.defaultMask)) }) ∧
      (popcount (if i.pinSel then c.mask else s.cfg.defaultMask) = 1 → 65535 < bpe i.fmt * c.count.toNat →
        Answers (present c s) { s with fault := .refused (.countTooLarge c.count) }) ∧
      (popcount (if i.pinSel then c.mask else s.cfg.defaultMask) = 1 → bpe i.fmt * c.count.toNat ≤ 65535 →
        s.extent i.fmt c.src < c.count.toNat →
        Answers (present c s) { s with fault := .fault (.countExceedsExtent c.count (s.extent i.fmt c.src)) }) ∧
      (popcount (if i.pinSel then c.mask else s.cfg.defaultMask) = 1 → bpe i.fmt * c.count.toNat ≤ 65535 →
        c.count.toNat ≤ s.extent i.fmt c.src →
        Answers (present c s) { s with
          cmd := c.cmd, src := c.src, count := c.count, mask := c.mask
          emask := if i.pinSel then c.mask else s.cfg.defaultMask
          stream := s.streamOf i.fmt c.src c.count
          phase := .sending, fresh := true, clk := 0, held1 := s.port, held0 := ~~~ s.port })

/-- R97: `TRANSMIT_RGB` in IDLE with a count it may have is accepted: the wire bytes are green, red, blue of each record, the pin is the
default pin, and every other part of the state stays. -/
def Obligations.TransmitRgbIsAccepted : Prop :=
  ∀ (s : State) (records : Ref) (count : Half) (mask : Byte),
    s.fault = .none → s.phase = .idle → s.cfg.WellFormed → count.toNat ≤ 21845 → count.toNat ≤ s.extent .rgb records →
    ∃ t, exec (.transmitRgb records count mask) s = .next t ∧ SameButHidden { s with
      cmd := 0x01#8, src := records, count := count, mask := mask, emask := 1#8 <<< s.cfg.defaultPin
      stream := (List.range count.toNat).flatMap fun k => wireRgb (s.readRecord .rgb records k)
      phase := .sending, fresh := true, clk := 0, held1 := s.port, held0 := ~~~ s.port } t

/-- R98: `TRANSMIT_RGB_PIN` with a one-bit mask is accepted on that pin. -/
def Obligations.TransmitRgbPinIsAccepted : Prop :=
  ∀ (s : State) (records : Ref) (count : Half) (pin : Byte),
    s.fault = .none → s.phase = .idle → popcount pin = 1 → count.toNat ≤ 21845 → count.toNat ≤ s.extent .rgb records →
    ∃ t, exec (.transmitRgbPin records count pin) s = .next t ∧ SameButHidden { s with
      cmd := 0x09#8, src := records, count := count, mask := pin, emask := pin
      stream := (List.range count.toNat).flatMap fun k => wireRgb (s.readRecord .rgb records k)
      phase := .sending, fresh := true, clk := 0, held1 := s.port, held0 := ~~~ s.port } t

/-- R99: `TRANSMIT_RGBW` is accepted; the wire bytes are green, red, blue, white of each record. -/
def Obligations.TransmitRgbwIsAccepted : Prop :=
  ∀ (s : State) (records : Ref) (count : Half) (mask : Byte),
    s.fault = .none → s.phase = .idle → s.cfg.WellFormed → count.toNat ≤ 16383 → count.toNat ≤ s.extent .rgbw records →
    ∃ t, exec (.transmitRgbw records count mask) s = .next t ∧ SameButHidden { s with
      cmd := 0x02#8, src := records, count := count, mask := mask, emask := 1#8 <<< s.cfg.defaultPin
      stream := (List.range count.toNat).flatMap fun k => wireRgbw (s.readRecord .rgbw records k)
      phase := .sending, fresh := true, clk := 0, held1 := s.port, held0 := ~~~ s.port } t

/-- R100: `TRANSMIT_RAW` is accepted for every length the source holds; the bytes go out as they are. -/
def Obligations.TransmitRawIsAccepted : Prop :=
  ∀ (s : State) (bytes : Ref) (length : Half) (mask : Byte),
    s.fault = .none → s.phase = .idle → s.cfg.WellFormed → length.toNat ≤ s.extent .raw bytes →
    ∃ t, exec (.transmitRaw bytes length mask) s = .next t ∧ SameButHidden { s with
      cmd := 0x00#8, src := bytes, count := length, mask := mask, emask := 1#8 <<< s.cfg.defaultPin
      stream := (List.range length.toNat).flatMap fun k => wireRaw (s.readRecord .raw bytes k)
      phase := .sending, fresh := true, clk := 0, held1 := s.port, held0 := ~~~ s.port } t

/-- R101: `TRANSMIT_RAW_PIN` with a one-bit mask is accepted on that pin. -/
def Obligations.TransmitRawPinIsAccepted : Prop :=
  ∀ (s : State) (bytes : Ref) (length : Half) (pin : Byte),
    s.fault = .none → s.phase = .idle → popcount pin = 1 → length.toNat ≤ s.extent .raw bytes →
    ∃ t, exec (.transmitRawPin bytes length pin) s = .next t ∧ SameButHidden { s with
      cmd := 0x08#8, src := bytes, count := length, mask := pin, emask := pin
      stream := (List.range length.toNat).flatMap fun k => wireRaw (s.readRecord .raw bytes k)
      phase := .sending, fresh := true, clk := 0, held1 := s.port, held0 := ~~~ s.port } t

/-- R102: `TRANSMIT_4BPP` is accepted; each word gives its green, red and blue nibble, zero-extended and not rescaled, from the positions
of the configuration. -/
def Obligations.Transmit4bppIsAccepted : Prop :=
  ∀ (s : State) (packed : Ref) (ledCount : Half) (mask : Byte),
    s.fault = .none → s.phase = .idle → s.cfg.WellFormed → ledCount.toNat ≤ 21845 → ledCount.toNat ≤ s.extent .pack4 packed →
    ∃ t, exec (.transmit4bpp packed ledCount mask) s = .next t ∧ SameButHidden { s with
      cmd := 0x03#8, src := packed, count := ledCount, mask := mask, emask := 1#8 <<< s.cfg.defaultPin
      stream := (List.range ledCount.toNat).flatMap fun k => wirePack4 s.cfg.pack4Pos (s.readRecord .pack4 packed k)
      phase := .sending, fresh := true, clk := 0, held1 := s.port, held0 := ~~~ s.port } t

/-- R84, R98, R101, R111: a mask without exactly one bit faults the two pin commands before their counts are looked at, and no command
without a pin can meet it. -/
def Obligations.InvalidMaskFaultsPinCommands : Prop :=
  ∀ (s : State) (r : Ref) (n : Half) (pin : Byte), s.fault = .none → s.phase = .idle →
    (popcount pin ≠ 1 →
      Answers (exec (.transmitRgbPin r n pin) s) { s with fault := .fault (.invalidMask pin) } ∧
      Answers (exec (.transmitRawPin r n pin) s) { s with fault := .fault (.invalidMask pin) }) ∧
    (s.cfg.WellFormed → ∀ (i : Instr) (t : State) (m : Byte), i.pinSel = false → exec i s = .next t → t.fault ≠ .fault (.invalidMask m))

/-- R87: the thresholds of `CountTooLarge`, format by format. -/
def Obligations.CountThresholdsRefuse : Prop :=
  ∀ (s : State) (i : Instr), s.fault = .none → s.phase = .idle → popcount (s.maskOf i) = 1 →
    (Answers (exec i s) { s with fault := .refused (.countTooLarge i.count) } ↔ 65535 < bpe i.fmt * i.count.toNat) ∧
    (65535 < bpe i.fmt * i.count.toNat ↔
      match i.fmt with
      | .rgb => 21845 < i.count.toNat
      | .rgbw => 16383 < i.count.toNat
      | .pack4 => 21845 < i.count.toNat
      | .raw => False)

/-- R38, R39: a count above the extent faults at acceptance, and a null or dangling source has extent 0. That a source of another kind
than the command's has extent 0 is the model's reading of 'invalid' (log 8). -/
def Obligations.CountBeyondExtentFaults : Prop :=
  ∀ (s : State) (i : Instr), s.fault = .none → s.phase = .idle → popcount (s.maskOf i) = 1 → streamLength i.fmt i.count ≤ 65535 →
    (s.extent i.fmt i.src < i.count.toNat →
      Answers (exec i s) { s with fault := .fault (.countExceedsExtent i.count (s.extent i.fmt i.src)) }) ∧
    (lookupKey i.src s.sources = none → s.extent i.fmt i.src = 0) ∧
    (∀ x, lookupKey i.src s.sources = some x → x.kind ≠ i.fmt → s.extent i.fmt i.src = 0) ∧
    (∀ x, lookupKey i.src s.sources = some x → x.kind = i.fmt → s.extent i.fmt i.src = x.length)

/-- R84, R115: whatever command is presented, if a fault or refusal is recorded then nothing else has changed. -/
def Obligations.StoppedCommandChangesOnlyFault : Prop :=
  ∀ (s t : State) (c : Command), present c s = .next t → t.fault ≠ .none → SameButHidden { s with fault := t.fault } t

/-- R31, R109, R110: once `FAULT` is set, no step, no command and no presentation answers a next state; the outcome names the recorded
reason, which is the model's reading (log 11); such a state is not final. -/
def Obligations.RecordedFaultStopsTheMachine : Prop :=
  ∀ s : State,
    (∀ r, s.fault = .fault r → step s = .fault r ∧ (∀ i, exec i s = .fault r) ∧ (∀ c, present c s = .fault r) ∧ ¬ s.final) ∧
    (∀ r, s.fault = .refused r → step s = .refused r ∧ (∀ i, exec i s = .refused r) ∧ (∀ c, present c s = .refused r) ∧ ¬ s.final)

/-! ### The operands -/

/-- R85: the colour-format converter and the bytes per element. -/
def Obligations.ConverterWireOrder : Prop :=
  (∀ (p : PackPos) (v r g b w : Byte),
    bytesOf p (.raw v) = [v] ∧ bytesOf p (.rgb ⟨r, g, b⟩) = [g, r, b] ∧ bytesOf p (.rgbw ⟨r, g, b, w⟩) = [g, r, b, w]) ∧
  (∀ (p : PackPos) (v : Half),
    bytesOf p (.pack4 v) =
      [(v.extractLsb' p.gpos 4).setWidth 8, (v.extractLsb' p.rpos 4).setWidth 8, (v.extractLsb' p.bpos 4).setWidth 8]) ∧
  bpe .raw = 1 ∧ bpe .rgb = 3 ∧ bpe .rgbw = 4 ∧ bpe .pack4 = 3

/-- R86: the stream is the bytes of the elements in order, element 0 first, and its length is `BPE(FMT) * COUNT`. -/
def Obligations.StreamFollowsTheRecords : Prop :=
  ∀ (s : State) (f : Fmt) (r : Ref) (n : Half), n.toNat ≤ s.extent f r →
    (s.streamOf f r n).length = bpe f * n.toNat ∧
    ∀ k, k < n.toNat → ∃ e, s.readRecord f r k = some e ∧
      ((s.streamOf f r n).drop (bpe f * k)).take (bpe f) = bytesOf s.cfg.pack4Pos e

/-- R37, R38: `ReadRecord(SRC, k)` is element `k` of the source where the source is of the format's kind and `k` is below its extent, and
nothing otherwise; its bytes are as many as the format says. That a source of another kind has no elements is log 8's reading. -/
def Obligations.ReadRecordWithinExtent : Prop :=
  ∀ (s : State) (r : Ref) (k : Nat),
    (∀ l, lookupKey r s.sources = some (.raw l) →
      s.extent .raw r = l.length ∧ s.readRecord .raw r k = l[k]?.map .raw) ∧
    (∀ l, lookupKey r s.sources = some (.rgb l) →
      s.extent .rgb r = l.length ∧ s.readRecord .rgb r k = l[k]?.map .rgb) ∧
    (∀ l, lookupKey r s.sources = some (.rgbw l) →
      s.extent .rgbw r = l.length ∧ s.readRecord .rgbw r k = l[k]?.map .rgbw) ∧
    (∀ l, lookupKey r s.sources = some (.pack4 l) →
      s.extent .pack4 r = l.length ∧ s.readRecord .pack4 r k = l[k]?.map .pack4) ∧
    (∀ f x, lookupKey r s.sources = some x → x.kind ≠ f → s.readRecord f r k = none) ∧
    (∀ f, lookupKey r s.sources = none → s.readRecord f r k = none) ∧
    (∀ f, s.extent f r ≤ k → s.readRecord f r k = none) ∧
    ∀ f, k < s.extent f r → ∃ e, s.readRecord f r k = some e ∧ (bytesOf s.cfg.pack4Pos e).length = bpe f

/-- R43 (byte-level view): where the elements of a source in byte-addressed memory lie, for any layout and word order. -/
def Obligations.ByteViewLayout : Prop :=
  ∀ (s : State) (r : Ref) (k n : Nat), k < n →
    (lookupKey r s.sources = some (.mem .raw n) → s.readRecord .raw r k = some (.raw (readByte s.mem (r + k)))) ∧
    (lookupKey r s.sources = some (.mem .pack4 n) → s.cfg.wordOrder = .little →
      s.readRecord .pack4 r k = some (.pack4 (readByte s.mem (r + 2 * k + 1) ++ readByte s.mem (r + 2 * k)))) ∧
    (lookupKey r s.sources = some (.mem .pack4 n) → s.cfg.wordOrder = .big →
      s.readRecord .pack4 r k = some (.pack4 (readByte s.mem (r + 2 * k) ++ readByte s.mem (r + 2 * k + 1)))) ∧
    (lookupKey r s.sources = some (.mem .rgb n) →
      s.readRecord .rgb r k = some (.rgb ⟨readByte s.mem (r + 3 * k + s.cfg.rgbLayout.r), readByte s.mem (r + 3 * k + s.cfg.rgbLayout.g),
        readByte s.mem (r + 3 * k + s.cfg.rgbLayout.b)⟩)) ∧
    (lookupKey r s.sources = some (.mem .rgbw n) →
      s.readRecord .rgbw r k = some (.rgbw ⟨readByte s.mem (r + 4 * k + s.cfg.rgbwLayout.r), readByte s.mem (r + 4 * k + s.cfg.rgbwLayout.g),
        readByte s.mem (r + 4 * k + s.cfg.rgbwLayout.b), readByte s.mem (r + 4 * k + s.cfg.rgbwLayout.w)⟩))

/-- R105: packing then unpacking recovers every triple of nibbles, under every well-formed layout. -/
def Obligations.PackedRoundTrip : Prop :=
  ∀ (c : Config) (g r b : BitVec 4), c.WellFormed →
    unpack c.pack4Pos (pack c.pack4Pos g r b) = (g.setWidth 8, r.setWidth 8, b.setWidth 8)

/-! ### The pulse encoder's waveform -/

/-- R71: the high and low durations of a bit. -/
def Obligations.BitDurations : Prop :=
  ∀ c : Config, c.WellFormed →
    c.tHigh true = c.t1h ∧ c.tHigh false = c.t0h ∧ c.tHigh false < c.tHigh true ∧
    ∀ x, c.tLow x = c.tbit - c.tHigh x ∧ c.tHigh x + c.tLow x = c.tbit

/-- R79: a byte takes exactly `8 * P_TBIT` cycles, and its high time counts its bits. -/
def Obligations.ByteDurationAndHighTime : Prop :=
  ∀ (c : Config) (b : Byte), c.WellFormed →
    (byteWave c b).duration = 8 * c.tbit ∧
    (byteWave c b).highTime = popcount b * c.t1h + (8 - popcount b) * c.t0h

/-- R73: the closed form of the level on each cycle of a byte is its waveform. -/
def Obligations.ByteLevelInClosedForm : Prop :=
  ∀ (c : Config) (b : Byte) (t : Nat), c.WellFormed → t < 8 * c.tbit →
    (byteWave c b).samples[t]? = some (byteLevel c b t)

/-- R106 over the waveform of R89: decoding the merged waveform of any stream gives the stream back. -/
def Obligations.DecodeReadsAnyFrameBack : Prop :=
  ∀ (c : Config) (stream : List Byte), c.WellFormed →
    decodeWave c (runsOf (frameWave c stream).samples) = some stream

/-! ### Runs of a command -/

/-- R88, R91, R93, R96: the refinement of the cycle schedule. From acceptance of any command on, with nothing else happening, every cycle `t` up to
`TE` has the PHASE, the BUSY and the line level that the schedule gives it in closed form; no fault is recorded; the other bits of the
port, the records, memory and the configuration stay. -/
def Obligations.EveryCycleFollowsTheSchedule : Prop :=
  ∀ (i : Instr) (s : State) (t : Nat), s.cfg.WellFormed → Accepts s i → t ≤ s.cfg.endCycle (s.streamFor i).length →
    ∃ u, run (t + 1) (s.commandedBy i) = some u ∧ u.fault = .none ∧
      u.phase = (if t < s.cfg.latchStartCycle (s.streamFor i).length then .sending
        else if t < s.cfg.endCycle (s.streamFor i).length then .latching else .idle) ∧
      u.busy = decide (t < s.cfg.endCycle (s.streamFor i).length) ∧
      u.line = some (scheduleLevel s.cfg (s.streamFor i) (s.pinLevel (s.maskOf i)) t) ∧
      u.port &&& ~~~ s.maskOf i = s.port &&& ~~~ s.maskOf i ∧
      u.sources = s.sources ∧ u.mem = s.mem ∧ u.cfg = s.cfg

/-- R96: how long BUSY stays 1, and what one more LED adds. -/
def Obligations.BusyForExactlyTheCommandsTime : Prop :=
  (∀ (i : Instr) (s : State) (t : Nat), s.cfg.WellFormed → Accepts s i →
    t ≤ s.cfg.startLat + 8 * (bpe i.fmt * i.count.toNat) * s.cfg.tbit + s.cfg.latchCyc →
    ∃ u, run (t + 1) (s.commandedBy i) = some u ∧
      (u.busy = true ↔ t < s.cfg.startLat + 8 * (bpe i.fmt * i.count.toNat) * s.cfg.tbit + s.cfg.latchCyc)) ∧
  ∀ (c : Config) (n : Nat),
    c.endCycle (bpe .rgb * (n + 1)) = c.endCycle (bpe .rgb * n) + 24 * c.tbit ∧
    c.endCycle (bpe .pack4 * (n + 1)) = c.endCycle (bpe .pack4 * n) + 24 * c.tbit ∧
    c.endCycle (bpe .rgbw * (n + 1)) = c.endCycle (bpe .rgbw * n) + 32 * c.tbit

/-- R89: the levels of the line from cycle `A` to cycle `TE` are, cycle by cycle, the waveform of the frame. -/
def Obligations.LineCarriesTheFrame : Prop :=
  ∀ (i : Instr) (s : State), s.cfg.WellFormed → Accepts s i →
    (List.range (s.cfg.endCycle (s.streamFor i).length - s.cfg.startLat)).map
        (fun k => (run (s.cfg.startLat + k + 1) (s.commandedBy i)).bind State.line) =
      (frameWave s.cfg (s.streamFor i)).samples.map some

/-- R106: for every accepted command that completes undisturbed, `Decode` of the line gives exactly its stream. -/
def Obligations.LineDecodesToTheStream : Prop :=
  ∀ (i : Instr) (s : State), s.cfg.WellFormed → Accepts s i →
    ∃ levels : List Bool,
      (List.range (s.cfg.endCycle (s.streamFor i).length - s.cfg.startLat)).map
          (fun k => (run (s.cfg.startLat + k + 1) (s.commandedBy i)).bind State.line) = levels.map some ∧
      decodeWave s.cfg (runsOf levels) = some (s.streamFor i)

/-- R90: LATCHING holds the line low from `TS` to `TE - 1`, for `P_LATCH_CYC >= RESET_CYC` cycles, and the core writes the port at `TS` only:
in every later cycle of LATCHING, from any state and with any writes of the outside, the port is exactly what those writes leave in it. That
those writes take place in that cycle is the model's choice (log 16). -/
def Obligations.LatchHoldsTheLineLow : Prop :=
  (∀ (i : Instr) (s : State) (t : Nat), s.cfg.WellFormed → Accepts s i →
    s.cfg.latchStartCycle (s.streamFor i).length ≤ t → t < s.cfg.endCycle (s.streamFor i).length →
    s.cfg.endCycle (s.streamFor i).length = s.cfg.latchStartCycle (s.streamFor i).length + s.cfg.latchCyc ∧
    s.cfg.resetCyc ≤ s.cfg.latchCyc ∧
    ∃ u v, run (s.cfg.latchStartCycle (s.streamFor i).length + 1) (s.commandedBy i) = some v ∧
      run (t + 1) (s.commandedBy i) = some u ∧ u.phase = .latching ∧ u.line = some false ∧ u.port = v.port) ∧
  ∀ (s t : State) (e : CycleInput), s.phase = .latching → s.nextPhase = .latching → s.event = .cycle e → step s = .next t → t.fault = .none →
    t.port = (s.world e.writes).port

/-- R92: with `COUNT = 0` there is the start latency, then LATCHING, and no bit cell. -/
def Obligations.ZeroCountOnlyLatches : Prop :=
  ∀ (i : Instr) (s : State) (t : Nat), s.cfg.WellFormed → Accepts s i → i.count = 0 → t ≤ s.cfg.startLat + s.cfg.latchCyc →
    s.streamFor i = [] ∧
    ∃ u, run (t + 1) (s.commandedBy i) = some u ∧ u.fault = .none ∧
      u.phase = (if t < s.cfg.startLat then .sending else if t < s.cfg.startLat + s.cfg.latchCyc then .latching else .idle) ∧
      u.line = some (if t < s.cfg.startLat then s.pinLevel (s.maskOf i) else false)

/-- R103: `transmit_raw` of the semantically equivalent bytes drives what `transmit_rgb` drives, cycle by cycle. -/
def Obligations.RawDrivesWhatRgbDrives : Prop :=
  ∀ (s : State) (bytes records : Ref) (c : Half) (m m' : Byte), s.cfg.WellFormed → s.fault = .none → s.phase = .idle →
    c.toNat ≤ 21845 → c.toNat ≤ s.extent .rgb records → 3 * c.toNat ≤ s.extent .raw bytes →
    (∀ k, k < c.toNat → ∃ p, s.readRecord .rgb records k = some (.rgb p) ∧
      s.readRecord .raw bytes (3 * k) = some (.raw p.g) ∧ s.readRecord .raw bytes (3 * k + 1) = some (.raw p.r) ∧
      s.readRecord .raw bytes (3 * k + 2) = some (.raw p.b)) →
    s.streamFor (.transmitRaw bytes (3 * c) m) = s.streamFor (.transmitRgb records c m') ∧
    ∀ n, (run n (s.commandedBy (.transmitRaw bytes (3 * c) m))).map (fun u => (u.phase, u.line, u.port, u.fault)) =
      (run n (s.commandedBy (.transmitRgb records c m'))).map (fun u => (u.phase, u.line, u.port, u.fault))

/-- R104: `TRANSMIT_4BPP` drives exactly what `TRANSMIT_RAW` drives on its stream, and every byte of that stream has a zero high nibble. -/
def Obligations.PackedDrivesWhatRawDrives : Prop :=
  ∀ (s : State) (packed bytes : Ref) (c : Half) (m m' : Byte), s.cfg.WellFormed → s.fault = .none → s.phase = .idle →
    c.toNat ≤ 21845 → c.toNat ≤ s.extent .pack4 packed → 3 * c.toNat ≤ s.extent .raw bytes →
    (∀ k, k < 3 * c.toNat →
      s.readRecord .raw bytes k = some (.raw ((s.streamFor (.transmit4bpp packed c m)).getD k 0x00#8))) →
    (∀ b ∈ s.streamFor (.transmit4bpp packed c m), b.extractLsb' 4 4 = 0x0#4) ∧
    ∀ n, (run n (s.commandedBy (.transmit4bpp packed c m))).map (fun u => (u.phase, u.line, u.port, u.fault)) =
      (run n (s.commandedBy (.transmitRaw bytes (3 * c) m'))).map (fun u => (u.phase, u.line, u.port, u.fault))

/-- R69, R98, R101: a pin command with `DEFAULT_MASK` drives what the command without a pin drives, cycle by cycle. -/
def Obligations.DefaultPinDrivesTheSame : Prop :=
  ∀ (s : State) (r : Ref) (n : Half) (m : Byte), s.cfg.WellFormed → s.fault = .none → s.phase = .idle →
    (∀ k, (run k (s.commandedBy (.transmitRgbPin r n s.cfg.defaultMask))).map (fun u => (u.phase, u.line, u.port, u.fault)) =
      (run k (s.commandedBy (.transmitRgb r n m))).map (fun u => (u.phase, u.line, u.port, u.fault))) ∧
    (∀ k, (run k (s.commandedBy (.transmitRawPin r n s.cfg.defaultMask))).map (fun u => (u.phase, u.line, u.port, u.fault)) =
      (run k (s.commandedBy (.transmitRaw r n m))).map (fun u => (u.phase, u.line, u.port, u.fault)))

/-- R91: a command presented on cycle `TE` of the one before is accepted on it, and the line stays low until its own schedule drives it. -/
def Obligations.NextCommandOnTheEndCycle : Prop :=
  ∀ (i j : Instr) (s : State) (t : Nat), s.cfg.WellFormed → Accepts s i → Accepts s j →
    t ≤ s.cfg.endCycle (s.streamFor j).length →
    ∃ u, run (s.cfg.endCycle (s.streamFor i).length + t + 1)
        { s with inbox := .cycle { command := some (encode i) } ::
            (List.replicate (s.cfg.endCycle (s.streamFor i).length - 1) (.cycle {}) ++ [.cycle { command := some (encode j) }]) } = some u ∧
      u.fault = .none ∧ u.busy = decide (t < s.cfg.endCycle (s.streamFor j).length) ∧
      u.line = some (scheduleLevel s.cfg (s.streamFor j)
        (if s.maskOf i = s.maskOf j then false else s.pinLevel (s.maskOf j)) t)

/-! ### Stalls, other agents, faults during a run -/

/-- R81, R113, R115: a stall on any cycle before `TS`, the cycle of acceptance among them, faults with that cycle's number and keeps the
state; on the cycle of acceptance with `TS = 0` it does not fault, and that the port write of `TS` is then delayed with it is the model's
reading (log 15). -/
def Obligations.StallBeforeLatchingFaults : Prop :=
  ∀ (i : Instr) (s : State), s.cfg.WellFormed → Accepts s i →
    (0 < s.cfg.latchStartCycle (s.streamFor i).length →
      ∃ u, step { s with inbox := [.cycle { command := some (encode i), stall := true }] } = .next u ∧
        u.fault = .fault (.preempted 0) ∧ u.busy = true ∧ u.port = s.port) ∧
    (s.cfg.latchStartCycle (s.streamFor i).length = 0 →
      ∃ u, step { s with inbox := [.cycle { command := some (encode i), stall := true }] } = .next u ∧
        u.fault = .none ∧ u.busy = true ∧ u.port = s.port) ∧
    ∀ t, t + 1 < s.cfg.latchStartCycle (s.streamFor i).length →
      ∃ u, run (t + 1) (s.commandedBy i) = some u ∧
        Answers (step { u with inbox := [.cycle { stall := true }] }) { u with inbox := [], fault := .fault (.preempted (t + 1)) }

/-- R113: a stall of `d` cycles that begins on a cycle from `TS` to `TE - 1` leaves the line and BUSY as they are while it lasts and delays the
rest of the schedule by `d`; no fault is recorded. That a stall on `TS` delays its port write, and that a stall on cycle `TE` delays nothing,
is the model's reading (log 15). -/
def Obligations.StallInLatchingDelaysTheEnd : Prop :=
  ∀ (i : Instr) (s : State), s.cfg.WellFormed → Accepts s i →
    (∀ t d : Nat, s.cfg.latchStartCycle (s.streamFor i).length ≤ t + 1 → t + 1 < s.cfg.endCycle (s.streamFor i).length →
      ∃ u, run (t + 1) (s.commandedBy i) = some u ∧
        (∀ k, k ≤ d → ∃ v, run k { u with inbox := List.replicate d (.cycle { stall := true }) } = some v ∧
          v.fault = .none ∧ v.busy = true ∧ v.line = u.line ∧ v.port = u.port) ∧
        ∀ k, k ≤ s.cfg.endCycle (s.streamFor i).length - t →
          ∃ v, run (d + k) { u with inbox := List.replicate d (.cycle { stall := true }) } = some v ∧
            v.fault = .none ∧ v.busy = decide (t + k < s.cfg.endCycle (s.streamFor i).length) ∧
            v.line = some (scheduleLevel s.cfg (s.streamFor i) (s.pinLevel (s.maskOf i)) (t + k))) ∧
    ∃ u v, run (s.cfg.endCycle (s.streamFor i).length) (s.commandedBy i) = some u ∧
      step { u with inbox := [.cycle { stall := true }] } = .next v ∧ v.fault = .none ∧ v.busy = false ∧ v.line = some false

/-- R33, R91, R113, R124, R126: in IDLE with no command, a cycle changes nothing but what the outside writes, stalled or not: the core does not
drive the line. The same holds on cycle `TE`, on which it returns to IDLE (that a stall has no part in this is log 15's reading). -/
def Obligations.IdleCycleChangesNothing : Prop :=
  ∀ (s : State) (e : CycleInput) (rest : List Event), s.fault = .none → s.cfg.WellFormed → s.inbox = .cycle e :: rest → e.command = none →
    (s.phase = .idle → e.writes = [] → Answers (step s) { s with inbox := rest }) ∧
    (s.nextPhase = .idle → Answers (step s) (({ s with phase := .idle, inbox := rest } : State).world e.writes))

/-- R50, R115, R132: another agent's write to the selected pin on a cycle of a running command faults with the cycle's number; on cycle `TE` and
in IDLE it does not. That the writes of the faulting cycle do not take place is the model's choice (log 16). -/
def Obligations.SelectedPinWriteFaults : Prop :=
  ∀ (s : State) (e : CycleInput) (rest : List Event) (m v : Byte), s.fault = .none → s.cfg.WellFormed →
    s.inbox = .cycle e :: rest → e.command = none → .port s.cfg.defaultPort m v ∈ e.writes → m &&& s.emask ≠ 0 →
    (s.nextPhase ≠ .idle → (e.stall = true → s.nextPhase ≠ .sending) →
      Answers (step s) { s with inbox := rest, fault := .fault (.pinConflict s.clk) }) ∧
    (s.nextPhase = .idle → ∃ t, step s = .next t ∧ t.fault = .none)

/-- R41, R43, R115, R131: a write to an element that is being sent faults with the element and the cycle, by whichever form of write: an
element, the whole source placed or dropped, or a byte of the element in memory; a write that reaches none of the elements below `COUNT` does
not. That an element of any kind counts, and that placing or dropping a source counts as a write to element 0, is the model's choice (log 9);
that the write of the faulting cycle does not take place is its choice too (log 16). -/
def Obligations.SentElementWriteFaults : Prop :=
  ∀ (s : State) (rest : List Event) (w : WorldWrite), s.fault = .none → s.cfg.WellFormed →
    s.inbox = .cycle { writes := [w] } :: rest → s.nextPhase ≠ .idle →
    (∀ r k x, w = .element r k x →
      (r = s.src → k < s.count.toNat → Answers (step s) { s with inbox := rest, fault := .fault (.sourceModified k s.clk) }) ∧
      (r ≠ s.src ∨ s.count.toNat ≤ k → ∃ t, step s = .next t ∧ t.fault = .none)) ∧
    (∀ r, (w = .drop r ∨ ∃ x, w = .place r x) →
      (r = s.src → 0 < s.count.toNat → Answers (step s) { s with inbox := rest, fault := .fault (.sourceModified 0 s.clk) }) ∧
      (r ≠ s.src ∨ s.count.toNat = 0 → ∃ t, step s = .next t ∧ t.fault = .none)) ∧
    (∀ a v, w = .byte a v →
      (∀ f n, lookupKey s.src s.sources = some (.mem f n) →
        (∀ k j, k < s.count.toNat → j < elementSize f → a = s.src + elementSize f * k + j →
          Answers (step s) { s with inbox := rest, fault := .fault (.sourceModified k s.clk) }) ∧
        (a < s.src ∨ s.src + elementSize f * s.count.toNat ≤ a → ∃ t, step s = .next t ∧ t.fault = .none)) ∧
      ((∀ f n, lookupKey s.src s.sources ≠ some (.mem f n)) → ∃ t, step s = .next t ∧ t.fault = .none))

/-- R114: the run-time conditions of one cycle are recorded in the order `Preempted`, `PinConflict`, `SourceModified`, and only the first. Of
several writes to sent elements the first in the cycle's list is recorded, which is the model's choice (log 9). -/
def Obligations.RunTimeConditionsInOrder : Prop :=
  ∀ (s : State) (e : CycleInput) (rest : List Event), s.fault = .none → s.cfg.WellFormed → s.inbox = .cycle e :: rest →
    e.command = none → s.nextPhase ≠ .idle →
    ∃ t, step s = .next t ∧
      t.fault =
        if e.stall = true ∧ s.nextPhase = .sending then .fault (.preempted s.clk)
        else if ∃ w ∈ e.writes, s.hitsPin w = true then .fault (.pinConflict s.clk)
        else
          match e.writes.findSome? s.hitsElement with
          | some k => .fault (.sourceModified k s.clk)
          | none => .none

/-- R124, R129, R131, R132: a cycle of a running command records a fault exactly when a duty of the host or the platform is broken on it. Which
writes change a sent element is log 9's choice. -/
def Obligations.FaultOnlyWhenADutyIsBroken : Prop :=
  ∀ (s t : State) (e : CycleInput) (rest : List Event), s.fault = .none → s.cfg.WellFormed → s.inbox = .cycle e :: rest →
    e.command = none → s.nextPhase ≠ .idle → step s = .next t →
    (t.fault = .none ↔ DutiesKept s e)

/-- R49, R50, R132: what a port write of the core can leave in each bit: the selected bit takes the level; a bit that has held one value only
since acceptance keeps it; any bit takes a value it has held. And what a cycle of a running command leaves when the outside writes in it: the
records and memory as written; the port as written where the core makes no port write on it (it then draws no free value), and otherwise in
each unselected bit a value that the bit has held, the outside's new one among them. Which values count as held within a cycle is the model's
choice (logs 16 and 24). -/
def Obligations.PortWriteTakesHeldValues : Prop :=
  (∀ (s : State) (level : Bool) (q : Nat), q < 8 →
    (s.emask.getLsbD q = true → (s.portRmw level).port.getLsbD q = level) ∧
    (s.emask.getLsbD q = false → (s.held1.getLsbD q = true ∨ s.held0.getLsbD q = true) →
      ((s.portRmw level).port.getLsbD q = true → s.held1.getLsbD q = true) ∧
      ((s.portRmw level).port.getLsbD q = false → s.held0.getLsbD q = true)) ∧
    (Unraced s → s.emask.getLsbD q = false → (s.portRmw level).port.getLsbD q = s.port.getLsbD q)) ∧
  ∀ (s t : State) (e : CycleInput), s.event = .cycle e → s.nextPhase ≠ .idle → step s = .next t → t.fault = .none →
    t.sources = (s.world e.writes).sources ∧ t.mem = (s.world e.writes).mem ∧
    (t.draws = s.draws → t.port = (s.world e.writes).port) ∧
    (s.port &&& ~~~ s.held1 = 0 → ~~~ s.port &&& ~~~ s.held0 = 0 → ∀ q, q < 8 → s.emask.getLsbD q = false →
      (t.port.getLsbD q = true → (s.world e.writes).held1.getLsbD q = true) ∧
      (t.port.getLsbD q = false → (s.world e.writes).held0.getLsbD q = true))

/-- R36, R50, R124: what each write of the host or of another agent leaves: the masked bits of the core's port (a write to another port does not
reach it) and what they have held since acceptance, element `k` of a typed source, the source at a reference, a byte of memory; and nothing
else. The writes of a cycle take place in their order. The forms of write are the model's (logs 5 and 9), and that every value counts as held is
its choice (log 24). -/
def Obligations.OutsideWritesLandAsGiven : Prop :=
  (∀ s : State, SameButHidden s (s.world [])) ∧
  (∀ (s : State) (w : WorldWrite) (ws : List WorldWrite), SameButHidden ((s.worldWrite w).world ws) (s.world (w :: ws))) ∧
  (∀ (s : State) (p : Nat) (m v : Byte),
    (p = s.cfg.defaultPort → ∃ port held1 held0,
      SameButHidden { s with port := port, held1 := held1, held0 := held0 } (s.worldWrite (.port p m v)) ∧
      ∀ q, q < 8 → port.getLsbD q = (if m.getLsbD q then v.getLsbD q else s.port.getLsbD q) ∧
        held1.getLsbD q = (s.held1.getLsbD q || port.getLsbD q) ∧ held0.getLsbD q = (s.held0.getLsbD q || !port.getLsbD q)) ∧
    (p ≠ s.cfg.defaultPort → SameButHidden s (s.worldWrite (.port p m v)))) ∧
  (∀ (s : State) (r : Ref) (k : Nat) (x : Element),
    (∃ sources, SameButHidden { s with sources := sources } (s.worldWrite (.element r k x))) ∧
    (∀ r', r' ≠ r → lookupKey r' (s.worldWrite (.element r k x)).sources = lookupKey r' s.sources) ∧
    (∀ l v, lookupKey r s.sources = some (.raw l) → x = .raw v →
      lookupKey r (s.worldWrite (.element r k x)).sources = some (.raw (l.set k v))) ∧
    (∀ l v, lookupKey r s.sources = some (.rgb l) → x = .rgb v →
      lookupKey r (s.worldWrite (.element r k x)).sources = some (.rgb (l.set k v))) ∧
    (∀ l v, lookupKey r s.sources = some (.rgbw l) → x = .rgbw v →
      lookupKey r (s.worldWrite (.element r k x)).sources = some (.rgbw (l.set k v))) ∧
    (∀ l v, lookupKey r s.sources = some (.pack4 l) → x = .pack4 v →
      lookupKey r (s.worldWrite (.element r k x)).sources = some (.pack4 (l.set k v)))) ∧
  (∀ (s : State) (r : Ref) (x : Source),
    (∃ sources, SameButHidden { s with sources := sources } (s.worldWrite (.place r x))) ∧
    lookupKey r (s.worldWrite (.place r x)).sources = some x ∧
    ∀ r', r' ≠ r → lookupKey r' (s.worldWrite (.place r x)).sources = lookupKey r' s.sources) ∧
  (∀ (s : State) (r : Ref),
    (∃ sources, SameButHidden { s with sources := sources } (s.worldWrite (.drop r))) ∧
    (KeysRise s.sources → lookupKey r (s.worldWrite (.drop r)).sources = none) ∧
    ∀ r', r' ≠ r → lookupKey r' (s.worldWrite (.drop r)).sources = lookupKey r' s.sources) ∧
  ∀ (s : State) (a : Nat) (v : Byte),
    (∃ mem, SameButHidden { s with mem := mem } (s.worldWrite (.byte a v))) ∧
    (Memory.wf s.mem → readByte (s.worldWrite (.byte a v)).mem a = v) ∧
    ∀ b, b ≠ a → readByte (s.worldWrite (.byte a v)).mem b = readByte s.mem b

/-- R32, R49, R80: a step in which no other agent writes and no command is accepted changes no bit of the port outside the selected pin, and leaves it
so that no other writer has been seen. -/
def Obligations.StepDrivesOnlyTheSelectedPin : Prop :=
  ∀ (s t : State) (e : CycleInput), s.event = .cycle e → e.command = none → e.writes = [] → Unraced s → step s = .next t →
    t.port &&& ~~~ s.emask = s.port &&& ~~~ s.emask ∧ t.emask = s.emask ∧ Unraced t

/-- R40: the core never writes the record source (nor memory): in a clock cycle in which no other agent writes, every step leaves them. -/
def Obligations.RecordsAreNeverWritten : Prop :=
  ∀ (s t : State) (e : CycleInput), s.event = .cycle e → e.writes = [] → step s = .next t → t.sources = s.sources ∧ t.mem = s.mem

/-- R26: the configuration is never written, by a reset neither (that it is a field of State, and that a reset keeps it, is the model's: logs 18 and
10). -/
def Obligations.ConfigurationNeverChanges : Prop :=
  ∀ s t : State, step s = .next t → t.cfg = s.cfg

/-- R22, R123: the command registers and the stream are held in every cycle of a running command whatever is presented, and in IDLE in every
cycle in which no command is presented ("All state survives both", R123; that EMASK stays in IDLE, so that the line goes on being that pin's,
is log 14's reading). -/
def Obligations.CommandRegistersAreHeld : Prop :=
  ∀ (s t : State) (e : CycleInput), step s = .next t → s.event = .cycle e →
    (e.command = none ∨ s.nextPhase ≠ .idle) →
    t.cmd = s.cmd ∧ t.src = s.src ∧ t.count = s.count ∧ t.mask = s.mask ∧ t.emask = s.emask ∧ t.stream = s.stream

/-- R32, R33, R115, R125: the line has no level before the first command after a reset, and none after a fault or refusal during a run; else it
is the selected bit of the port. That there is no level before the first command is the model's reading (log 14). -/
def Obligations.LineLevelOnlyWhereDefined : Prop :=
  (∀ c : Config, (State.resetWith c).line = none) ∧
  (∀ s : State, s.fault ≠ .none → s.busy = true → s.line = none) ∧
  ∀ s : State, (s.fault = .none ∨ s.busy = false) → popcount s.emask = 1 → s.line = some (s.pinLevel s.emask)

/-! ### Reset, configuration, invariants -/

/-- R35, R125, R126: the state after reset, for every configuration: IDLE, BUSY 0, no fault, the build's configuration. The port is a draw and no value of it
is stated. -/
def Obligations.StateAfterReset : Prop :=
  ∀ c : Config, (State.resetWith c).phase = .idle ∧ (State.resetWith c).busy = false ∧ (State.resetWith c).fault = .none ∧
    (State.resetWith c).cfg = c

/-- R125: a reset event in any running state, BUSY or not, leaves IDLE, BUSY 0, no fault and no level of the line; the configuration, the
record sources, memory and the events to come are not the core's and stay. That the sources and events stay is the model's choice (log 10). -/
def Obligations.ResetEventReturnsToIdle : Prop :=
  ∀ (s : State) (rest : List Event), s.fault = .none → s.cfg.WellFormed → s.inbox = .reset :: rest →
    ∃ t, step s = .next t ∧ t.phase = .idle ∧ t.busy = false ∧ t.fault = .none ∧ t.line = none ∧ t.cfg = s.cfg ∧
      t.sources = s.sources ∧ t.mem = s.mem ∧ t.inbox = rest

/-- R112: a configuration is refused before any run exactly when one of the conditions fails; no step of a machine with such a configuration answers a
next state. -/
def Obligations.ConfigurationIsChecked : Prop :=
  ∀ c : Config,
    ((∃ k, build c = .refused (.configInvalid k)) ↔
      ¬ (1 ≤ c.t0h ∧ c.t0h < c.t1h ∧ c.t1h < c.tbit ∧ 1 ≤ c.resetUs ∧ 1 ≤ c.fcpu ∧ c.tbit < c.resetCyc ∧
        c.resetCyc ≤ c.latchCyc ∧ c.defaultPin ≤ 7 ∧
        (c.pack4Pos.gpos + 4 ≤ 16 ∧ c.pack4Pos.rpos + 4 ≤ 16 ∧ c.pack4Pos.bpos + 4 ≤ 16) ∧
        (c.pack4Pos.gpos + 4 ≤ c.pack4Pos.rpos ∨ c.pack4Pos.rpos + 4 ≤ c.pack4Pos.gpos) ∧
        (c.pack4Pos.gpos + 4 ≤ c.pack4Pos.bpos ∨ c.pack4Pos.bpos + 4 ≤ c.pack4Pos.gpos) ∧
        (c.pack4Pos.rpos + 4 ≤ c.pack4Pos.bpos ∨ c.pack4Pos.bpos + 4 ≤ c.pack4Pos.rpos))) ∧
    (c.WellFormed → Answers (build c) (State.resetWith c)) ∧
    ∀ s : State, s.cfg = c → ¬ c.WellFormed → ∀ t, step s ≠ .next t

/-- R11: `RESET_CYC` is the least number of cycles that is not shorter than `P_RESET_US` microseconds. -/
def Obligations.ResetCyclesRoundUp : Prop :=
  ∀ c : Config, c.resetUs * c.fcpu ≤ c.resetCyc * 1000000 ∧ ∀ n, c.resetUs * c.fcpu ≤ n * 1000000 → c.resetCyc ≤ n

/-- The invariant `Inv` (memory and sources canonical; a running command valid, its mask one bit, its records still giving its stream, as R41 and
R42 say; the port's history complete) is kept by every step. It rests on the model's choices of which writes change a sent element (log 9),
what counts as held (logs 4 and 24), the order within a cycle (log 16) and what a reset keeps (log 10). -/
def Obligations.EveryStepKeepsInv : Prop :=
  ∀ s t : State, Inv s → step s = .next t → Inv t

/-- `Inv` holds after reset, for every configuration. -/
def Obligations.InvHoldsAfterReset : Prop :=
  ∀ c : Config, Inv (State.resetWith c)

/-- R35 ("unspecified; not readable and not read in IDLE"): two IDLE states that agree outside the registers R35 leaves unspecified can never be told apart by
the port, PHASE, FAULT, the records or, while a command runs, the line. -/
def Obligations.UnspecifiedRegistersAreNotRead : Prop :=
  ∀ (s t : State) (n : Nat), SameOutside s t →
    (run n s).map (fun u => (u.phase, u.port, u.fault, u.sources, u.mem, if u.busy then u.line else none)) =
      (run n t).map (fun u => (u.phase, u.port, u.fault, u.sources, u.mem, if u.busy then u.line else none))
end

