-- ==== Sys2Proof/Laws/Memory.lean ====
section
/-! SUPPORT. The laws of the keyed lists and of byte-addressed memory: what a lookup gives after each operation, and that each keeps
the canonical form. -/
namespace Sys2Proof.Machine

variable {α : Type}

@[simp] theorem lookupKey_nil (k : Nat) : lookupKey k ([] : List (Nat × α)) = none := rfl

theorem lookupKey_cons (k j : Nat) (v : α) (l : List (Nat × α)) :
    lookupKey k ((j, v) :: l) = if j = k then some v else lookupKey k l := rfl

/-- A key below every listed key is not listed. -/
theorem lookupKey_eq_none_of_lt {k : Nat} {l : List (Nat × α)} (h : ∀ x ∈ l, k < x.1) : lookupKey k l = none := by
  induction l with
  | nil => rfl
  | cons x l ih =>
    have hx := h x (by simp)
    rw [show x = (x.1, x.2) from rfl, lookupKey_cons, if_neg (by omega), ih fun y hy => h y (by simp [hy])]

theorem mem_insertKey {k : Nat} {v : α} {l : List (Nat × α)} {x : Nat × α} (h : x ∈ insertKey k v l) :
    x = (k, v) ∨ x ∈ l := by
  induction l with
  | nil => simpa [insertKey] using h
  | cons y l ih =>
    simp only [insertKey] at h
    split at h
    · simpa using h
    · split at h
      · rcases List.mem_cons.mp h with h | h
        · exact .inl h
        · exact .inr (by simp [h])
      · rcases List.mem_cons.mp h with h | h
        · exact .inr (by simp [h])
        · rcases ih h with h | h
          · exact .inl h
          · exact .inr (by simp [h])

theorem mem_eraseKey {k : Nat} {l : List (Nat × α)} {x : Nat × α} (h : x ∈ eraseKey k l) : x ∈ l := by
  induction l with
  | nil => simp [eraseKey] at h
  | cons y l ih =>
    simp only [eraseKey] at h
    split at h
    · simp [h]
    · rcases List.mem_cons.mp h with h | h
      · simp [h]
      · simp [ih h]

theorem insertKey_keysRise {k : Nat} {v : α} {l : List (Nat × α)} (h : KeysRise l) : KeysRise (insertKey k v l) := by
  induction l with
  | nil => simp [insertKey]
  | cons y l ih =>
    obtain ⟨hy, hl⟩ := List.pairwise_cons.mp h
    simp only [insertKey]
    split
    · rename_i hk
      refine List.pairwise_cons.mpr ⟨?_, h⟩
      intro x hx
      rcases List.mem_cons.mp hx with rfl | hx
      · exact hk
      · exact Nat.lt_trans hk (hy x hx)
    · split
      · rename_i hk
        subst hk
        exact List.pairwise_cons.mpr ⟨hy, hl⟩
      · refine List.pairwise_cons.mpr ⟨?_, ih hl⟩
        intro x hx
        rcases mem_insertKey hx with rfl | hx
        · simp only
          omega
        · exact hy x hx

theorem eraseKey_keysRise {k : Nat} {l : List (Nat × α)} (h : KeysRise l) : KeysRise (eraseKey k l) := by
  induction l with
  | nil => simp [eraseKey]
  | cons y l ih =>
    obtain ⟨hy, hl⟩ := List.pairwise_cons.mp h
    simp only [eraseKey]
    split
    · exact hl
    · exact List.pairwise_cons.mpr ⟨fun x hx => hy x (mem_eraseKey hx), ih hl⟩

/-- A lookup after an insertion: the value put there, else what was there (no order is needed). -/
theorem lookupKey_insertKey (k j : Nat) (v : α) (l : List (Nat × α)) :
    lookupKey j (insertKey k v l) = if k = j then some v else lookupKey j l := by
  induction l with
  | nil => rfl
  | cons y l ih =>
    obtain ⟨i, w⟩ := y
    simp only [insertKey]
    split
    · rfl
    · split
      · rename_i hk
        subst hk
        simp only [lookupKey_cons]
        split <;> rfl
      · simp only [lookupKey_cons, ih]
        split
        · rename_i hi
          rw [if_neg (by omega)]
        · rfl

theorem lookupKey_eraseKey_ne {k j : Nat} (h : k ≠ j) (l : List (Nat × α)) :
    lookupKey j (eraseKey k l) = lookupKey j l := by
  induction l with
  | nil => rfl
  | cons y l ih =>
    obtain ⟨i, w⟩ := y
    simp only [eraseKey]
    split
    · rename_i hi
      rw [lookupKey_cons, if_neg (by omega)]
    · simp only [lookupKey_cons, ih]

theorem lookupKey_eraseKey_self {k : Nat} {l : List (Nat × α)} (h : KeysRise l) : lookupKey k (eraseKey k l) = none := by
  induction l with
  | nil => rfl
  | cons y l ih =>
    obtain ⟨i, w⟩ := y
    obtain ⟨hy, hl⟩ := List.pairwise_cons.mp h
    simp only [eraseKey]
    split
    · rename_i hi
      exact lookupKey_eq_none_of_lt fun x hx => hi ▸ hy x hx
    · rename_i hi
      rw [lookupKey_cons, if_neg hi, ih hl]

/-- Every write of a byte keeps the canonical form of memory. -/
theorem writeByte_wf {m : List Host.Cell} (h : Memory.wf m) (a : Nat) (v : Byte) : Memory.wf (writeByte m a v) := by
  unfold writeByte
  split
  · exact ⟨eraseKey_keysRise h.1, fun x hx => h.2 x (mem_eraseKey hx)⟩
  · rename_i hv
    refine ⟨insertKey_keysRise h.1, fun x hx => ?_⟩
    rcases mem_insertKey hx with rfl | hx
    · exact hv
    · exact h.2 x hx

/-- A read after a write to another address. -/
theorem readByte_writeByte_ne {a b : Nat} (h : a ≠ b) (m : List Host.Cell) (v : Byte) :
    readByte (writeByte m a v) b = readByte m b := by
  unfold writeByte readByte
  split
  · rw [lookupKey_eraseKey_ne h]
  · rw [lookupKey_insertKey, if_neg h]

/-- A read after a write to the same address gives the value written. -/
theorem readByte_writeByte_self {m : List Host.Cell} (h : Memory.wf m) (a : Nat) (v : Byte) :
    readByte (writeByte m a v) a = v := by
  unfold writeByte readByte
  split
  · rename_i hv
    simp [lookupKey_eraseKey_self h.1, hv]
  · simp [lookupKey_insertKey]

end Sys2Proof.Machine
end

