-- ==== Sys2Proof/Laws/State.lean ====
section
/-! SUPPORT. One lemma per field and update of the state, each true by rfl, so that no later proof unfolds a record update. -/
namespace Sys2Proof.Machine

@[simp] theorem State.raise_cfg (s : State) (r : Fault) : (s.raise r).cfg = s.cfg := rfl
@[simp] theorem State.raise_phase (s : State) (r : Fault) : (s.raise r).phase = s.phase := rfl
@[simp] theorem State.raise_cmd (s : State) (r : Fault) : (s.raise r).cmd = s.cmd := rfl
@[simp] theorem State.raise_src (s : State) (r : Fault) : (s.raise r).src = s.src := rfl
@[simp] theorem State.raise_count (s : State) (r : Fault) : (s.raise r).count = s.count := rfl
@[simp] theorem State.raise_mask (s : State) (r : Fault) : (s.raise r).mask = s.mask := rfl
@[simp] theorem State.raise_emask (s : State) (r : Fault) : (s.raise r).emask = s.emask := rfl
@[simp] theorem State.raise_stream (s : State) (r : Fault) : (s.raise r).stream = s.stream := rfl
@[simp] theorem State.raise_byteIdx (s : State) (r : Fault) : (s.raise r).byteIdx = s.byteIdx := rfl
@[simp] theorem State.raise_bitIdx (s : State) (r : Fault) : (s.raise r).bitIdx = s.bitIdx := rfl
@[simp] theorem State.raise_shift (s : State) (r : Fault) : (s.raise r).shift = s.shift := rfl
@[simp] theorem State.raise_sub (s : State) (r : Fault) : (s.raise r).sub = s.sub := rfl
@[simp] theorem State.raise_cyc (s : State) (r : Fault) : (s.raise r).cyc = s.cyc := rfl
@[simp] theorem State.raise_latchCnt (s : State) (r : Fault) : (s.raise r).latchCnt = s.latchCnt := rfl
@[simp] theorem State.raise_startCnt (s : State) (r : Fault) : (s.raise r).startCnt = s.startCnt := rfl
@[simp] theorem State.raise_fault (s : State) (r : Fault) : (s.raise r).fault = .fault r := rfl
@[simp] theorem State.raise_port (s : State) (r : Fault) : (s.raise r).port = s.port := rfl
@[simp] theorem State.raise_sources (s : State) (r : Fault) : (s.raise r).sources = s.sources := rfl
@[simp] theorem State.raise_mem (s : State) (r : Fault) : (s.raise r).mem = s.mem := rfl
@[simp] theorem State.raise_inbox (s : State) (r : Fault) : (s.raise r).inbox = s.inbox := rfl
@[simp] theorem State.raise_fresh (s : State) (r : Fault) : (s.raise r).fresh = s.fresh := rfl
@[simp] theorem State.raise_clk (s : State) (r : Fault) : (s.raise r).clk = s.clk := rfl
@[simp] theorem State.raise_held1 (s : State) (r : Fault) : (s.raise r).held1 = s.held1 := rfl
@[simp] theorem State.raise_held0 (s : State) (r : Fault) : (s.raise r).held0 = s.held0 := rfl
@[simp] theorem State.raise_draws (s : State) (r : Fault) : (s.raise r).draws = s.draws := rfl

@[simp] theorem State.refuse_cfg (s : State) (r : Refusal) : (s.refuse r).cfg = s.cfg := rfl
@[simp] theorem State.refuse_phase (s : State) (r : Refusal) : (s.refuse r).phase = s.phase := rfl
@[simp] theorem State.refuse_cmd (s : State) (r : Refusal) : (s.refuse r).cmd = s.cmd := rfl
@[simp] theorem State.refuse_src (s : State) (r : Refusal) : (s.refuse r).src = s.src := rfl
@[simp] theorem State.refuse_count (s : State) (r : Refusal) : (s.refuse r).count = s.count := rfl
@[simp] theorem State.refuse_mask (s : State) (r : Refusal) : (s.refuse r).mask = s.mask := rfl
@[simp] theorem State.refuse_emask (s : State) (r : Refusal) : (s.refuse r).emask = s.emask := rfl
@[simp] theorem State.refuse_stream (s : State) (r : Refusal) : (s.refuse r).stream = s.stream := rfl
@[simp] theorem State.refuse_byteIdx (s : State) (r : Refusal) : (s.refuse r).byteIdx = s.byteIdx := rfl
@[simp] theorem State.refuse_bitIdx (s : State) (r : Refusal) : (s.refuse r).bitIdx = s.bitIdx := rfl
@[simp] theorem State.refuse_shift (s : State) (r : Refusal) : (s.refuse r).shift = s.shift := rfl
@[simp] theorem State.refuse_sub (s : State) (r : Refusal) : (s.refuse r).sub = s.sub := rfl
@[simp] theorem State.refuse_cyc (s : State) (r : Refusal) : (s.refuse r).cyc = s.cyc := rfl
@[simp] theorem State.refuse_latchCnt (s : State) (r : Refusal) : (s.refuse r).latchCnt = s.latchCnt := rfl
@[simp] theorem State.refuse_startCnt (s : State) (r : Refusal) : (s.refuse r).startCnt = s.startCnt := rfl
@[simp] theorem State.refuse_fault (s : State) (r : Refusal) : (s.refuse r).fault = .refused r := rfl
@[simp] theorem State.refuse_port (s : State) (r : Refusal) : (s.refuse r).port = s.port := rfl
@[simp] theorem State.refuse_sources (s : State) (r : Refusal) : (s.refuse r).sources = s.sources := rfl
@[simp] theorem State.refuse_mem (s : State) (r : Refusal) : (s.refuse r).mem = s.mem := rfl
@[simp] theorem State.refuse_inbox (s : State) (r : Refusal) : (s.refuse r).inbox = s.inbox := rfl
@[simp] theorem State.refuse_fresh (s : State) (r : Refusal) : (s.refuse r).fresh = s.fresh := rfl
@[simp] theorem State.refuse_clk (s : State) (r : Refusal) : (s.refuse r).clk = s.clk := rfl
@[simp] theorem State.refuse_held1 (s : State) (r : Refusal) : (s.refuse r).held1 = s.held1 := rfl
@[simp] theorem State.refuse_held0 (s : State) (r : Refusal) : (s.refuse r).held0 = s.held0 := rfl
@[simp] theorem State.refuse_draws (s : State) (r : Refusal) : (s.refuse r).draws = s.draws := rfl

@[simp] theorem State.setPort_cfg (s : State) (v : Byte) : (s.setPort v).cfg = s.cfg := rfl
@[simp] theorem State.setPort_phase (s : State) (v : Byte) : (s.setPort v).phase = s.phase := rfl
@[simp] theorem State.setPort_cmd (s : State) (v : Byte) : (s.setPort v).cmd = s.cmd := rfl
@[simp] theorem State.setPort_src (s : State) (v : Byte) : (s.setPort v).src = s.src := rfl
@[simp] theorem State.setPort_count (s : State) (v : Byte) : (s.setPort v).count = s.count := rfl
@[simp] theorem State.setPort_mask (s : State) (v : Byte) : (s.setPort v).mask = s.mask := rfl
@[simp] theorem State.setPort_emask (s : State) (v : Byte) : (s.setPort v).emask = s.emask := rfl
@[simp] theorem State.setPort_stream (s : State) (v : Byte) : (s.setPort v).stream = s.stream := rfl
@[simp] theorem State.setPort_byteIdx (s : State) (v : Byte) : (s.setPort v).byteIdx = s.byteIdx := rfl
@[simp] theorem State.setPort_bitIdx (s : State) (v : Byte) : (s.setPort v).bitIdx = s.bitIdx := rfl
@[simp] theorem State.setPort_shift (s : State) (v : Byte) : (s.setPort v).shift = s.shift := rfl
@[simp] theorem State.setPort_sub (s : State) (v : Byte) : (s.setPort v).sub = s.sub := rfl
@[simp] theorem State.setPort_cyc (s : State) (v : Byte) : (s.setPort v).cyc = s.cyc := rfl
@[simp] theorem State.setPort_latchCnt (s : State) (v : Byte) : (s.setPort v).latchCnt = s.latchCnt := rfl
@[simp] theorem State.setPort_startCnt (s : State) (v : Byte) : (s.setPort v).startCnt = s.startCnt := rfl
@[simp] theorem State.setPort_fault (s : State) (v : Byte) : (s.setPort v).fault = s.fault := rfl
@[simp] theorem State.setPort_port (s : State) (v : Byte) : (s.setPort v).port = v := rfl
@[simp] theorem State.setPort_sources (s : State) (v : Byte) : (s.setPort v).sources = s.sources := rfl
@[simp] theorem State.setPort_mem (s : State) (v : Byte) : (s.setPort v).mem = s.mem := rfl
@[simp] theorem State.setPort_inbox (s : State) (v : Byte) : (s.setPort v).inbox = s.inbox := rfl
@[simp] theorem State.setPort_fresh (s : State) (v : Byte) : (s.setPort v).fresh = s.fresh := rfl
@[simp] theorem State.setPort_clk (s : State) (v : Byte) : (s.setPort v).clk = s.clk := rfl
@[simp] theorem State.setPort_held1 (s : State) (v : Byte) : (s.setPort v).held1 = s.held1 ||| v := rfl
@[simp] theorem State.setPort_held0 (s : State) (v : Byte) : (s.setPort v).held0 = s.held0 ||| ~~~ v := rfl
@[simp] theorem State.setPort_draws (s : State) (v : Byte) : (s.setPort v).draws = s.draws := rfl

@[simp] theorem State.portRmw_cfg (s : State) (level : Bool) : (s.portRmw level).cfg = s.cfg := rfl
@[simp] theorem State.portRmw_phase (s : State) (level : Bool) : (s.portRmw level).phase = s.phase := rfl
@[simp] theorem State.portRmw_cmd (s : State) (level : Bool) : (s.portRmw level).cmd = s.cmd := rfl
@[simp] theorem State.portRmw_src (s : State) (level : Bool) : (s.portRmw level).src = s.src := rfl
@[simp] theorem State.portRmw_count (s : State) (level : Bool) : (s.portRmw level).count = s.count := rfl
@[simp] theorem State.portRmw_mask (s : State) (level : Bool) : (s.portRmw level).mask = s.mask := rfl
@[simp] theorem State.portRmw_emask (s : State) (level : Bool) : (s.portRmw level).emask = s.emask := rfl
@[simp] theorem State.portRmw_stream (s : State) (level : Bool) : (s.portRmw level).stream = s.stream := rfl
@[simp] theorem State.portRmw_byteIdx (s : State) (level : Bool) : (s.portRmw level).byteIdx = s.byteIdx := rfl
@[simp] theorem State.portRmw_bitIdx (s : State) (level : Bool) : (s.portRmw level).bitIdx = s.bitIdx := rfl
@[simp] theorem State.portRmw_shift (s : State) (level : Bool) : (s.portRmw level).shift = s.shift := rfl
@[simp] theorem State.portRmw_sub (s : State) (level : Bool) : (s.portRmw level).sub = s.sub := rfl
@[simp] theorem State.portRmw_cyc (s : State) (level : Bool) : (s.portRmw level).cyc = s.cyc := rfl
@[simp] theorem State.portRmw_latchCnt (s : State) (level : Bool) : (s.portRmw level).latchCnt = s.latchCnt := rfl
@[simp] theorem State.portRmw_startCnt (s : State) (level : Bool) : (s.portRmw level).startCnt = s.startCnt := rfl
@[simp] theorem State.portRmw_fault (s : State) (level : Bool) : (s.portRmw level).fault = s.fault := rfl
@[simp] theorem State.portRmw_port (s : State) (level : Bool) : (s.portRmw level).port = (s.racedPort &&& ~~~ s.emask) ||| (if level then s.emask else 0x00#8) := rfl
@[simp] theorem State.portRmw_sources (s : State) (level : Bool) : (s.portRmw level).sources = s.sources := rfl
@[simp] theorem State.portRmw_mem (s : State) (level : Bool) : (s.portRmw level).mem = s.mem := rfl
@[simp] theorem State.portRmw_inbox (s : State) (level : Bool) : (s.portRmw level).inbox = s.inbox := rfl
@[simp] theorem State.portRmw_fresh (s : State) (level : Bool) : (s.portRmw level).fresh = s.fresh := rfl
@[simp] theorem State.portRmw_clk (s : State) (level : Bool) : (s.portRmw level).clk = s.clk := rfl
@[simp] theorem State.portRmw_held1 (s : State) (level : Bool) : (s.portRmw level).held1 = s.held1 ||| (s.portRmw level).port := rfl
@[simp] theorem State.portRmw_held0 (s : State) (level : Bool) : (s.portRmw level).held0 = s.held0 ||| ~~~ (s.portRmw level).port := rfl
@[simp] theorem State.portRmw_draws (s : State) (level : Bool) : (s.portRmw level).draws = s.draws + 1 := rfl

@[simp] theorem State.popped_cfg (s : State) : (s.popped).cfg = s.cfg := rfl
@[simp] theorem State.popped_phase (s : State) : (s.popped).phase = s.phase := rfl
@[simp] theorem State.popped_cmd (s : State) : (s.popped).cmd = s.cmd := rfl
@[simp] theorem State.popped_src (s : State) : (s.popped).src = s.src := rfl
@[simp] theorem State.popped_count (s : State) : (s.popped).count = s.count := rfl
@[simp] theorem State.popped_mask (s : State) : (s.popped).mask = s.mask := rfl
@[simp] theorem State.popped_emask (s : State) : (s.popped).emask = s.emask := rfl
@[simp] theorem State.popped_stream (s : State) : (s.popped).stream = s.stream := rfl
@[simp] theorem State.popped_byteIdx (s : State) : (s.popped).byteIdx = s.byteIdx := rfl
@[simp] theorem State.popped_bitIdx (s : State) : (s.popped).bitIdx = s.bitIdx := rfl
@[simp] theorem State.popped_shift (s : State) : (s.popped).shift = s.shift := rfl
@[simp] theorem State.popped_sub (s : State) : (s.popped).sub = s.sub := rfl
@[simp] theorem State.popped_cyc (s : State) : (s.popped).cyc = s.cyc := rfl
@[simp] theorem State.popped_latchCnt (s : State) : (s.popped).latchCnt = s.latchCnt := rfl
@[simp] theorem State.popped_startCnt (s : State) : (s.popped).startCnt = s.startCnt := rfl
@[simp] theorem State.popped_fault (s : State) : (s.popped).fault = s.fault := rfl
@[simp] theorem State.popped_port (s : State) : (s.popped).port = s.port := rfl
@[simp] theorem State.popped_sources (s : State) : (s.popped).sources = s.sources := rfl
@[simp] theorem State.popped_mem (s : State) : (s.popped).mem = s.mem := rfl
@[simp] theorem State.popped_inbox (s : State) : (s.popped).inbox = s.inbox.tail := rfl
@[simp] theorem State.popped_fresh (s : State) : (s.popped).fresh = s.fresh := rfl
@[simp] theorem State.popped_clk (s : State) : (s.popped).clk = s.clk := rfl
@[simp] theorem State.popped_held1 (s : State) : (s.popped).held1 = s.held1 := rfl
@[simp] theorem State.popped_held0 (s : State) : (s.popped).held0 = s.held0 := rfl
@[simp] theorem State.popped_draws (s : State) : (s.popped).draws = s.draws := rfl

@[simp] theorem State.latch_cfg (s : State) (f : Fmt) (c : Byte) (r : Ref) (n : Half) (m em : Byte) : (s.latch f c r n m em).cfg = s.cfg := rfl
@[simp] theorem State.latch_phase (s : State) (f : Fmt) (c : Byte) (r : Ref) (n : Half) (m em : Byte) : (s.latch f c r n m em).phase = .sending := rfl
@[simp] theorem State.latch_cmd (s : State) (f : Fmt) (c : Byte) (r : Ref) (n : Half) (m em : Byte) : (s.latch f c r n m em).cmd = c := rfl
@[simp] theorem State.latch_src (s : State) (f : Fmt) (c : Byte) (r : Ref) (n : Half) (m em : Byte) : (s.latch f c r n m em).src = r := rfl
@[simp] theorem State.latch_count (s : State) (f : Fmt) (c : Byte) (r : Ref) (n : Half) (m em : Byte) : (s.latch f c r n m em).count = n := rfl
@[simp] theorem State.latch_mask (s : State) (f : Fmt) (c : Byte) (r : Ref) (n : Half) (m em : Byte) : (s.latch f c r n m em).mask = m := rfl
@[simp] theorem State.latch_emask (s : State) (f : Fmt) (c : Byte) (r : Ref) (n : Half) (m em : Byte) : (s.latch f c r n m em).emask = em := rfl
@[simp] theorem State.latch_stream (s : State) (f : Fmt) (c : Byte) (r : Ref) (n : Half) (m em : Byte) : (s.latch f c r n m em).stream = s.streamOf f r n := rfl
@[simp] theorem State.latch_byteIdx (s : State) (f : Fmt) (c : Byte) (r : Ref) (n : Half) (m em : Byte) : (s.latch f c r n m em).byteIdx = 0 := rfl
@[simp] theorem State.latch_bitIdx (s : State) (f : Fmt) (c : Byte) (r : Ref) (n : Half) (m em : Byte) : (s.latch f c r n m em).bitIdx = 0 := rfl
@[simp] theorem State.latch_shift (s : State) (f : Fmt) (c : Byte) (r : Ref) (n : Half) (m em : Byte) : (s.latch f c r n m em).shift = s.shift := rfl
@[simp] theorem State.latch_sub (s : State) (f : Fmt) (c : Byte) (r : Ref) (n : Half) (m em : Byte) : (s.latch f c r n m em).sub = s.sub := rfl
@[simp] theorem State.latch_cyc (s : State) (f : Fmt) (c : Byte) (r : Ref) (n : Half) (m em : Byte) : (s.latch f c r n m em).cyc = s.cyc := rfl
@[simp] theorem State.latch_latchCnt (s : State) (f : Fmt) (c : Byte) (r : Ref) (n : Half) (m em : Byte) : (s.latch f c r n m em).latchCnt = s.latchCnt := rfl
@[simp] theorem State.latch_startCnt (s : State) (f : Fmt) (c : Byte) (r : Ref) (n : Half) (m em : Byte) : (s.latch f c r n m em).startCnt = 0 := rfl
@[simp] theorem State.latch_fault (s : State) (f : Fmt) (c : Byte) (r : Ref) (n : Half) (m em : Byte) : (s.latch f c r n m em).fault = s.fault := rfl
@[simp] theorem State.latch_port (s : State) (f : Fmt) (c : Byte) (r : Ref) (n : Half) (m em : Byte) : (s.latch f c r n m em).port = s.port := rfl
@[simp] theorem State.latch_sources (s : State) (f : Fmt) (c : Byte) (r : Ref) (n : Half) (m em : Byte) : (s.latch f c r n m em).sources = s.sources := rfl
@[simp] theorem State.latch_mem (s : State) (f : Fmt) (c : Byte) (r : Ref) (n : Half) (m em : Byte) : (s.latch f c r n m em).mem = s.mem := rfl
@[simp] theorem State.latch_inbox (s : State) (f : Fmt) (c : Byte) (r : Ref) (n : Half) (m em : Byte) : (s.latch f c r n m em).inbox = s.inbox := rfl
@[simp] theorem State.latch_fresh (s : State) (f : Fmt) (c : Byte) (r : Ref) (n : Half) (m em : Byte) : (s.latch f c r n m em).fresh = true := rfl
@[simp] theorem State.latch_clk (s : State) (f : Fmt) (c : Byte) (r : Ref) (n : Half) (m em : Byte) : (s.latch f c r n m em).clk = 0 := rfl
@[simp] theorem State.latch_held1 (s : State) (f : Fmt) (c : Byte) (r : Ref) (n : Half) (m em : Byte) : (s.latch f c r n m em).held1 = s.port := rfl
@[simp] theorem State.latch_held0 (s : State) (f : Fmt) (c : Byte) (r : Ref) (n : Half) (m em : Byte) : (s.latch f c r n m em).held0 = ~~~ s.port := rfl
@[simp] theorem State.latch_draws (s : State) (f : Fmt) (c : Byte) (r : Ref) (n : Half) (m em : Byte) : (s.latch f c r n m em).draws = s.draws := rfl

@[simp] theorem State.coreReset_cfg (s : State) : (s.coreReset).cfg = s.cfg := rfl
@[simp] theorem State.coreReset_phase (s : State) : (s.coreReset).phase = .idle := rfl
@[simp] theorem State.coreReset_cmd (s : State) : (s.coreReset).cmd = 0 := rfl
@[simp] theorem State.coreReset_src (s : State) : (s.coreReset).src = 0 := rfl
@[simp] theorem State.coreReset_count (s : State) : (s.coreReset).count = 0 := rfl
@[simp] theorem State.coreReset_mask (s : State) : (s.coreReset).mask = 0 := rfl
@[simp] theorem State.coreReset_emask (s : State) : (s.coreReset).emask = 0 := rfl
@[simp] theorem State.coreReset_stream (s : State) : (s.coreReset).stream = [] := rfl
@[simp] theorem State.coreReset_byteIdx (s : State) : (s.coreReset).byteIdx = 0 := rfl
@[simp] theorem State.coreReset_bitIdx (s : State) : (s.coreReset).bitIdx = 0 := rfl
@[simp] theorem State.coreReset_shift (s : State) : (s.coreReset).shift = 0 := rfl
@[simp] theorem State.coreReset_sub (s : State) : (s.coreReset).sub = .lo := rfl
@[simp] theorem State.coreReset_cyc (s : State) : (s.coreReset).cyc = 0 := rfl
@[simp] theorem State.coreReset_latchCnt (s : State) : (s.coreReset).latchCnt = 0 := rfl
@[simp] theorem State.coreReset_startCnt (s : State) : (s.coreReset).startCnt = 0 := rfl
@[simp] theorem State.coreReset_fault (s : State) : (s.coreReset).fault = .none := rfl
@[simp] theorem State.coreReset_port (s : State) : (s.coreReset).port = Config.portDraw s.draws := rfl
@[simp] theorem State.coreReset_sources (s : State) : (s.coreReset).sources = s.sources := rfl
@[simp] theorem State.coreReset_mem (s : State) : (s.coreReset).mem = s.mem := rfl
@[simp] theorem State.coreReset_inbox (s : State) : (s.coreReset).inbox = s.inbox := rfl
@[simp] theorem State.coreReset_fresh (s : State) : (s.coreReset).fresh = false := rfl
@[simp] theorem State.coreReset_clk (s : State) : (s.coreReset).clk = 0 := rfl
@[simp] theorem State.coreReset_held1 (s : State) : (s.coreReset).held1 = 0 := rfl
@[simp] theorem State.coreReset_held0 (s : State) : (s.coreReset).held0 = 0 := rfl
@[simp] theorem State.coreReset_draws (s : State) : (s.coreReset).draws = s.draws + 1 := rfl

end Sys2Proof.Machine
end

