-- ==== Sys2Proof/Laws/Ops.lean ====
section
/-! SUPPORT. One lemma per shared operation: what the port's read-modify-write, the writes of other agents, and raising a fault can
do. -/
namespace Sys2Proof.Machine

/-! ### The port -/

/-- A bit the race reads as 1 has held 1, and a bit it reads as 0 has held 0, if the bit has held a value at all (R50). -/
theorem racedPort_held (s : State) (q : Nat) (h : s.held1.getLsbD q = true ∨ s.held0.getLsbD q = true) :
    (s.racedPort.getLsbD q = true → s.held1.getLsbD q = true) ∧
      (s.racedPort.getLsbD q = false → s.held0.getLsbD q = true) := by
  by_cases hq : q < 8
  · simp only [State.racedPort, BitVec.getLsbD_or, BitVec.getLsbD_and, BitVec.getLsbD_not, hq, decide_true, Bool.true_and]
    revert h
    cases (Config.raceRead s.draws).getLsbD q <;> cases s.held1.getLsbD q <;> cases s.held0.getLsbD q <;> simp
  · simp [BitVec.getLsbD_of_ge _ q (by omega : 8 ≤ q)] at h

/-- With no other writer the bits outside the selected pin are read as they are (R49). -/
theorem racedPort_unraced {s : State} (h : Unraced s) : s.racedPort &&& ~~~ s.emask = s.port &&& ~~~ s.emask := by
  obtain ⟨h1, h0⟩ := h
  apply BitVec.eq_of_getLsbD_eq
  intro i hi
  have a1 := congrArg (fun v => v.getLsbD i) h1
  have a0 := congrArg (fun v => v.getLsbD i) h0
  simp only [BitVec.getLsbD_and, BitVec.getLsbD_not, hi, decide_true, Bool.true_and] at a1 a0
  simp only [State.racedPort, BitVec.getLsbD_and, BitVec.getLsbD_or, BitVec.getLsbD_not, hi, decide_true, Bool.true_and]
  revert a1 a0
  cases (Config.raceRead s.draws).getLsbD i <;> cases s.held1.getLsbD i <;> cases s.held0.getLsbD i <;>
    cases s.port.getLsbD i <;> cases s.emask.getLsbD i <;> simp

/-- `PortRMW` on a mask with a bit set gives the pin the level (R49). -/
theorem portRmw_pinLevel (s : State) (level : Bool) (h : s.emask ≠ 0) :
    (s.portRmw level).pinLevel s.emask = level := by
  have hx : (s.portRmw level).port &&& s.emask = (if level then s.emask else 0x00#8) := by
    rw [State.portRmw_port]
    apply BitVec.eq_of_getLsbD_eq
    intro i hi
    cases level <;>
      simp only [BitVec.getLsbD_and, BitVec.getLsbD_or, BitVec.getLsbD_not, hi, decide_true, Bool.true_and, if_true,
        Bool.false_eq_true, if_false, BitVec.getLsbD_zero] <;>
      cases s.racedPort.getLsbD i <;> cases s.emask.getLsbD i <;> rfl
  unfold State.pinLevel
  cases level <;> simp_all

/-- With no other writer `PortRMW` leaves every bit outside the selected pin as it was (R49). -/
theorem portRmw_port_others {s : State} (h : Unraced s) (level : Bool) :
    (s.portRmw level).port &&& ~~~ s.emask = s.port &&& ~~~ s.emask := by
  rw [← racedPort_unraced h, State.portRmw_port]
  apply BitVec.eq_of_getLsbD_eq
  intro i hi
  cases level <;>
    simp only [BitVec.getLsbD_and, BitVec.getLsbD_or, BitVec.getLsbD_not, hi, decide_true, Bool.true_and, if_true,
      Bool.false_eq_true, if_false, BitVec.getLsbD_zero] <;>
    cases s.racedPort.getLsbD i <;> cases s.emask.getLsbD i <;> rfl

/-- With no other writer `PortRMW` leaves it so that no other writer has been seen (R49). -/
theorem portRmw_unraced {s : State} (h : Unraced s) (level : Bool) : Unraced (s.portRmw level) := by
  have hp := portRmw_port_others h level
  obtain ⟨h1, h0⟩ := h
  constructor <;>
    simp only [State.portRmw_held1, State.portRmw_held0, State.portRmw_emask] <;>
    generalize (s.portRmw level).port = p at hp ⊢ <;>
    apply BitVec.eq_of_getLsbD_eq <;>
    intro i hi <;>
    have ap := congrArg (fun v => v.getLsbD i) hp <;>
    have a1 := congrArg (fun v => v.getLsbD i) h1 <;>
    have a0 := congrArg (fun v => v.getLsbD i) h0 <;>
    simp only [BitVec.getLsbD_and, BitVec.getLsbD_or, BitVec.getLsbD_not, hi, decide_true, Bool.true_and] at ap a1 a0 ⊢ <;>
    revert ap a1 a0 <;>
    cases s.held1.getLsbD i <;> cases s.held0.getLsbD i <;> cases p.getLsbD i <;> cases s.port.getLsbD i <;>
    cases s.emask.getLsbD i <;> simp

/-- After any `PortRMW` the port holds only values that are counted as held (R50). -/
theorem portRmw_held (s : State) (level : Bool) :
    (s.portRmw level).port &&& ~~~ (s.portRmw level).held1 = 0 ∧
      ~~~ (s.portRmw level).port &&& ~~~ (s.portRmw level).held0 = 0 := by
  simp only [State.portRmw_held1, State.portRmw_held0]
  generalize (s.portRmw level).port = p
  constructor <;> apply BitVec.eq_of_getLsbD_eq <;> intro i hi <;>
    simp only [BitVec.getLsbD_and, BitVec.getLsbD_or, BitVec.getLsbD_not, hi, decide_true, Bool.true_and] <;>
    cases p.getLsbD i <;> simp

theorem setPort_held (s : State) (v : Byte) :
    (s.setPort v).port &&& ~~~ (s.setPort v).held1 = 0 ∧ ~~~ (s.setPort v).port &&& ~~~ (s.setPort v).held0 = 0 := by
  simp only [State.setPort_held1, State.setPort_held0, State.setPort_port]
  constructor <;> apply BitVec.eq_of_getLsbD_eq <;> intro i hi <;>
    simp only [BitVec.getLsbD_and, BitVec.getLsbD_or, BitVec.getLsbD_not, hi, decide_true, Bool.true_and] <;>
    cases v.getLsbD i <;> simp

/-- A mask with one bit is not 0. -/
theorem ne_zero_of_popcount {m : Byte} (h : popcount m = 1) : m ≠ 0 := by
  rintro rfl
  revert h
  decide

/-! ### What other agents write -/

/-- A write of another agent reaches the port with its history, the record sources and memory, and nothing else (R36). -/
theorem worldWrite_frame (s : State) (w : WorldWrite) :
    ∃ p h1 h0 so me, s.worldWrite w = { s with port := p, held1 := h1, held0 := h0, sources := so, mem := me } := by
  cases w with
  | port i m v =>
    by_cases hi : i = s.cfg.defaultPort
    · exact ⟨_, _, _, s.sources, s.mem, by simp only [State.worldWrite, if_pos hi]; rfl⟩
    · exact ⟨s.port, s.held1, s.held0, s.sources, s.mem, by simp only [State.worldWrite, if_neg hi]⟩
  | element r k e =>
    simp only [State.worldWrite]
    split
    · exact ⟨s.port, s.held1, s.held0, s.sources, s.mem, rfl⟩
    · exact ⟨s.port, s.held1, s.held0, _, s.mem, rfl⟩
  | place r x => exact ⟨s.port, s.held1, s.held0, _, s.mem, rfl⟩
  | drop r => exact ⟨s.port, s.held1, s.held0, _, s.mem, rfl⟩
  | byte a v => exact ⟨s.port, s.held1, s.held0, s.sources, _, rfl⟩

/-- The writes of a cycle reach the port with its history, the record sources and memory, and nothing else (R36). -/
theorem world_frame (s : State) (ws : List WorldWrite) :
    ∃ p h1 h0 so me, s.world ws = { s with port := p, held1 := h1, held0 := h0, sources := so, mem := me } := by
  induction ws generalizing s with
  | nil => exact ⟨s.port, s.held1, s.held0, s.sources, s.mem, rfl⟩
  | cons w ws ih =>
    obtain ⟨p, h1, h0, so, me, hw⟩ := worldWrite_frame s w
    obtain ⟨p', h1', h0', so', me', hws⟩ := ih (s.worldWrite w)
    exact ⟨p', h1', h0', so', me', by rw [show s.world (w :: ws) = (s.worldWrite w).world ws from rfl, hws, hw]⟩

@[simp] theorem world_nil (s : State) : s.world [] = s := rfl

section
variable (s : State) (ws : List WorldWrite)

@[simp] theorem world_cfg : (s.world ws).cfg = s.cfg := by obtain ⟨_, _, _, _, _, h⟩ := world_frame s ws; rw [h]
@[simp] theorem world_phase : (s.world ws).phase = s.phase := by obtain ⟨_, _, _, _, _, h⟩ := world_frame s ws; rw [h]
@[simp] theorem world_cmd : (s.world ws).cmd = s.cmd := by obtain ⟨_, _, _, _, _, h⟩ := world_frame s ws; rw [h]
@[simp] theorem world_src : (s.world ws).src = s.src := by obtain ⟨_, _, _, _, _, h⟩ := world_frame s ws; rw [h]
@[simp] theorem world_count : (s.world ws).count = s.count := by obtain ⟨_, _, _, _, _, h⟩ := world_frame s ws; rw [h]
@[simp] theorem world_mask : (s.world ws).mask = s.mask := by obtain ⟨_, _, _, _, _, h⟩ := world_frame s ws; rw [h]
@[simp] theorem world_emask : (s.world ws).emask = s.emask := by obtain ⟨_, _, _, _, _, h⟩ := world_frame s ws; rw [h]
@[simp] theorem world_stream : (s.world ws).stream = s.stream := by obtain ⟨_, _, _, _, _, h⟩ := world_frame s ws; rw [h]
@[simp] theorem world_fault : (s.world ws).fault = s.fault := by obtain ⟨_, _, _, _, _, h⟩ := world_frame s ws; rw [h]
@[simp] theorem world_inbox : (s.world ws).inbox = s.inbox := by obtain ⟨_, _, _, _, _, h⟩ := world_frame s ws; rw [h]
@[simp] theorem world_clk : (s.world ws).clk = s.clk := by obtain ⟨_, _, _, _, _, h⟩ := world_frame s ws; rw [h]
@[simp] theorem world_draws : (s.world ws).draws = s.draws := by obtain ⟨_, _, _, _, _, h⟩ := world_frame s ws; rw [h]
@[simp] theorem world_nextMove : (s.world ws).nextMove = s.nextMove := by
  obtain ⟨_, _, _, _, _, h⟩ := world_frame s ws; rw [h]; rfl

end

/-- The writes of a cycle keep memory and the record sources in canonical form. -/
theorem world_wf {s : State} (hm : Memory.wf s.mem) (hs : KeysRise s.sources) (ws : List WorldWrite) :
    Memory.wf (s.world ws).mem ∧ KeysRise (s.world ws).sources := by
  induction ws generalizing s with
  | nil => exact ⟨hm, hs⟩
  | cons w ws ih =>
    refine ih (s := s.worldWrite w) ?_ ?_ <;> cases w <;> simp only [State.worldWrite] <;>
      (try split) <;> first
        | exact hm
        | exact hs
        | exact writeByte_wf hm _ _
        | exact insertKey_keysRise hs
        | exact eraseKey_keysRise hs

/-- The events to come have no part in the writes of a cycle. -/
theorem world_withInbox (s : State) (b : List Event) (ws : List WorldWrite) :
    ({ s with inbox := b } : State).world ws = { s.world ws with inbox := b } := by
  induction ws generalizing s with
  | nil => rfl
  | cons w ws ih =>
    have h : ({ s with inbox := b } : State).worldWrite w = { s.worldWrite w with inbox := b } := by
      cases w <;> simp only [State.worldWrite] <;> split <;> rfl
    exact (congrArg (State.world · ws) h).trans (ih _)

/-- After the writes of a cycle the port still holds only values that are counted as held (R50). -/
theorem world_held {s : State} (h : s.port &&& ~~~ s.held1 = 0 ∧ ~~~ s.port &&& ~~~ s.held0 = 0) (ws : List WorldWrite) :
    (s.world ws).port &&& ~~~ (s.world ws).held1 = 0 ∧ ~~~ (s.world ws).port &&& ~~~ (s.world ws).held0 = 0 := by
  induction ws generalizing s with
  | nil => exact h
  | cons w ws ih =>
    refine ih (s := s.worldWrite w) ?_
    cases w with
    | port i m v =>
      simp only [State.worldWrite]
      split
      · exact setPort_held _ _
      · exact h
    | element r k e =>
      simp only [State.worldWrite]
      split <;> exact h
    | place r x => exact h
    | drop r => exact h
    | byte a v => exact h

/-! ### What a statement leaves open (R30) -/

/-- A state is itself but for the registers of R30. -/
theorem SameButHidden.refl (s : State) : SameButHidden s s := ⟨_, _, _, _, _, _, _, rfl⟩

/-- An outcome that is a next state answers that state. -/
theorem Answers.of_eq {o : Out} {s : State} (h : o = .next s) : Answers o s := ⟨s, h, .refl s⟩

/-- What is known of the fault recorded when an outcome answers a state. -/
theorem Answers.fault {o : Out} {s : State} (h : Answers o s) : ∃ t, o = .next t ∧ t.fault = s.fault := by
  obtain ⟨t, ht, _, _, _, _, _, _, _, rfl⟩ := h
  exact ⟨_, ht, rfl⟩

/-! ### Stopping -/

@[simp] theorem whenRunning_of_none {s : State} (h : s.fault = .none) (k : State → Out) : whenRunning s k = k s := by
  simp [whenRunning, h]

/-- A machine that answers a next state had no fault recorded (R109). -/
theorem whenRunning_next {s t : State} {k : State → Out} (h : whenRunning s k = .next t) : s.fault = .none ∧ k s = .next t := by
  unfold whenRunning at h
  split at h
  · exact ⟨‹_›, h⟩
  · cases h
  · cases h

@[simp] theorem onNext_next (s : State) (k : State → Out) : onNext (.next s) k = k s := rfl

end Sys2Proof.Machine
end

