-- ==== Sys2Proof/Laws/Accept.lean ====
section
/-! SUPPORT. The six meanings as one operation, and what acceptance can do. -/
namespace Sys2Proof.Machine

/-- Every command is acceptance under its own format, command word, pin field and operands (R97 to R102). -/
theorem exec_eq_accept (i : Instr) (s : State) : exec i s = accept i.fmt (opcode i) i.pinSel i.src i.count i.mask s := by
  cases i <;> rfl

/-- A running machine answers a presented command with a next state (R84, R109). -/
theorem exec_of_running {s : State} (h : s.fault = .none) (i : Instr) :
    exec i s = .next (if s.busy then s.refuse (.commandWhileBusy (opcode i))
      else s.check i.fmt (opcode i) i.pinSel i.src i.count i.mask) := by
  rw [exec_eq_accept, accept, whenRunning_of_none h]

section
variable {s : State} {f : Fmt} {c : Byte} {p : Bool} {r : Ref} {n : Half} {m : Byte}

/-- The first check (R84): the mask. -/
theorem check_invalidMask (h : popcount (s.effectiveMask p m) ≠ 1) :
    s.check f c p r n m = s.raise (.invalidMask (s.effectiveMask p m)) := by
  simp only [State.check, if_pos h]

/-- The second check (R84, R87): the stream's length. -/
theorem check_countTooLarge (h : popcount (s.effectiveMask p m) = 1) (hl : maxStream < streamLength f n) :
    s.check f c p r n m = s.refuse (.countTooLarge n) := by
  simp only [State.check, if_neg (not_not.mpr h), if_pos hl]

/-- The third check (R84, R38): the extent. -/
theorem check_countExceedsExtent (h : popcount (s.effectiveMask p m) = 1) (hl : streamLength f n ≤ maxStream)
    (he : s.extent f r < n.toNat) : s.check f c p r n m = s.raise (.countExceedsExtent n (s.extent f r)) := by
  simp only [State.check, if_neg (not_not.mpr h), if_neg (Nat.not_lt.mpr hl), if_pos he]

/-- A command that passes every check is latched (R84). -/
theorem check_latches (h : popcount (s.effectiveMask p m) = 1) (hl : streamLength f n ≤ maxStream)
    (he : n.toNat ≤ s.extent f r) : s.check f c p r n m = s.latch f c r n m (s.effectiveMask p m) := by
  simp only [State.check, if_neg (not_not.mpr h), if_neg (Nat.not_lt.mpr hl), if_neg (Nat.not_lt.mpr he)]

/-- The checks record a fault or a refusal and keep the rest, or latch the command (R84, R115). -/
theorem check_cases (s : State) (f : Fmt) (c : Byte) (p : Bool) (r : Ref) (n : Half) (m : Byte) :
    (∃ x, x ≠ .none ∧ s.check f c p r n m = { s with fault := x }) ∨
      (popcount (s.effectiveMask p m) = 1 ∧ streamLength f n ≤ maxStream ∧ n.toNat ≤ s.extent f r ∧
        s.check f c p r n m = s.latch f c r n m (s.effectiveMask p m)) := by
  by_cases h : popcount (s.effectiveMask p m) = 1
  · by_cases hl : maxStream < streamLength f n
    · exact .inl ⟨_, by simp, check_countTooLarge h hl⟩
    · by_cases he : s.extent f r < n.toNat
      · exact .inl ⟨_, by simp, check_countExceedsExtent h (by omega) he⟩
      · exact .inr ⟨h, by omega, by omega, check_latches h (by omega) (by omega)⟩
  · exact .inl ⟨_, by simp, check_invalidMask h⟩

end

/-- The word of a decoded command is its own, and its operands are the slots (R56, R59, R60). -/
theorem decode_inv {c : Command} {i : Instr} (h : decode c = .ok i) :
    c.cmd = opcode i ∧ c.src = i.src ∧ c.count = i.count ∧ c.mask = i.mask := by
  obtain ⟨cmd, src, count, mask⟩ := c
  have key : ∀ w : Byte, rsvField w = 0b0000#4 → ∀ f, fmtOfBits (fmtField w) = some f →
      w = (if pinSelField w then 0x08#8 else 0x00#8) ||| (match f with
        | .raw => 0x00#8 | .rgb => 0x01#8 | .rgbw => 0x02#8 | .pack4 => 0x03#8) := by decide
  unfold decode at h
  split at h
  · cases h
  · rename_i hr
    have k := key cmd (not_not.mp hr)
    split at h <;> cases h
    all_goals
      rename_i hf hp
      refine ⟨?_, rfl, rfl, rfl⟩
      rw [k _ hf, hp]
      rfl

/-- Presenting a command that decodes is executing it (R84). -/
theorem present_of_decode {c : Command} {i : Instr} (h : decode c = .ok i) (s : State) : present c s = exec i s := by
  cases hf : s.fault with
  | none =>
    rw [exec_of_running hf, present, whenRunning_of_none hf, h, (decode_inv h).1]
    simp only [exec_of_running hf]
    split <;> simp_all
  | _ => simp [exec_eq_accept, present, accept, whenRunning, hf]

end Sys2Proof.Machine
end

