-- ==== Sys2Proof/Laws/PerInstr.lean ====
section
/-! SUPPORT. One lemma per command about its word: the fields of the encoded word are the command's format and pin field, the reserved
bits are zero, and the operands stand in their slots (R56 to R60). -/
namespace Sys2Proof.Laws.Fields

/-- What the fields of a command's word say about the command. -/
def Statement (i : Instr) : Prop :=
  rsvField (encode i).cmd = 0b0000#4 ∧ fmtOfBits (fmtField (encode i).cmd) = some i.fmt ∧ pinSelField (encode i).cmd = i.pinSel ∧
    (encode i).src = i.src ∧ (encode i).count = i.count ∧ (encode i).mask = i.mask

theorem transmitRaw (r : Ref) (n : Half) (m : Byte) : Statement (.transmitRaw r n m) := by
  refine ⟨?_, ?_, ?_, rfl, rfl, rfl⟩ <;> simp [encode, opcode, rsvField, fmtField, fmtOfBits, pinSelField, Instr.fmt, Instr.pinSel]

theorem transmitRgb (r : Ref) (n : Half) (m : Byte) : Statement (.transmitRgb r n m) := by
  refine ⟨?_, ?_, ?_, rfl, rfl, rfl⟩ <;> simp [encode, opcode, rsvField, fmtField, fmtOfBits, pinSelField, Instr.fmt, Instr.pinSel]

theorem transmitRgbw (r : Ref) (n : Half) (m : Byte) : Statement (.transmitRgbw r n m) := by
  refine ⟨?_, ?_, ?_, rfl, rfl, rfl⟩ <;> simp [encode, opcode, rsvField, fmtField, fmtOfBits, pinSelField, Instr.fmt, Instr.pinSel]

theorem transmit4bpp (r : Ref) (n : Half) (m : Byte) : Statement (.transmit4bpp r n m) := by
  refine ⟨?_, ?_, ?_, rfl, rfl, rfl⟩ <;> simp [encode, opcode, rsvField, fmtField, fmtOfBits, pinSelField, Instr.fmt, Instr.pinSel]

theorem transmitRawPin (r : Ref) (n : Half) (m : Byte) : Statement (.transmitRawPin r n m) := by
  refine ⟨?_, ?_, ?_, rfl, rfl, rfl⟩ <;> simp [encode, opcode, rsvField, fmtField, fmtOfBits, pinSelField, Instr.fmt, Instr.pinSel]

theorem transmitRgbPin (r : Ref) (n : Half) (m : Byte) : Statement (.transmitRgbPin r n m) := by
  refine ⟨?_, ?_, ?_, rfl, rfl, rfl⟩ <;> simp [encode, opcode, rsvField, fmtField, fmtOfBits, pinSelField, Instr.fmt, Instr.pinSel]

end Sys2Proof.Laws.Fields
end

