-- ==== Sys2Proof/Laws/Schedule.lean ====
section
/-! SUPPORT. What the schedule's step can do, once: its frame, and each kind of cycle. -/
namespace Sys2Proof.Machine

/-- The core's step changes only the datapath registers, PHASE and the port with its history (R29, R80, R88). -/
theorem take_frame (s : State) (m : Move) :
    ∃ ph bi ti sh su cy la st po fr h1 h0 dr, s.take m =
      { s with
        phase := ph, byteIdx := bi, bitIdx := ti, shift := sh, sub := su, cyc := cy, latchCnt := la, startCnt := st
        port := po, fresh := fr, held1 := h1, held0 := h0, draws := dr } := by
  cases m with
  | continueCell o =>
    simp only [State.take, State.continueCell]
    split <;> exact ⟨_, _, _, _, _, _, _, _, _, _, _, _, _, rfl⟩
  | _ => exact ⟨_, _, _, _, _, _, _, _, _, _, _, _, _, rfl⟩

section
variable (s : State)

@[simp] theorem advance_cfg : s.advance.cfg = s.cfg := by
  obtain ⟨_, _, _, _, _, _, _, _, _, _, _, _, _, h⟩ := take_frame s s.nextMove
  rw [State.advance, h]
@[simp] theorem advance_cmd : s.advance.cmd = s.cmd := by
  obtain ⟨_, _, _, _, _, _, _, _, _, _, _, _, _, h⟩ := take_frame s s.nextMove
  rw [State.advance, h]
@[simp] theorem advance_src : s.advance.src = s.src := by
  obtain ⟨_, _, _, _, _, _, _, _, _, _, _, _, _, h⟩ := take_frame s s.nextMove
  rw [State.advance, h]
@[simp] theorem advance_count : s.advance.count = s.count := by
  obtain ⟨_, _, _, _, _, _, _, _, _, _, _, _, _, h⟩ := take_frame s s.nextMove
  rw [State.advance, h]
@[simp] theorem advance_mask : s.advance.mask = s.mask := by
  obtain ⟨_, _, _, _, _, _, _, _, _, _, _, _, _, h⟩ := take_frame s s.nextMove
  rw [State.advance, h]
@[simp] theorem advance_emask : s.advance.emask = s.emask := by
  obtain ⟨_, _, _, _, _, _, _, _, _, _, _, _, _, h⟩ := take_frame s s.nextMove
  rw [State.advance, h]
@[simp] theorem advance_stream : s.advance.stream = s.stream := by
  obtain ⟨_, _, _, _, _, _, _, _, _, _, _, _, _, h⟩ := take_frame s s.nextMove
  rw [State.advance, h]
@[simp] theorem advance_fault : s.advance.fault = s.fault := by
  obtain ⟨_, _, _, _, _, _, _, _, _, _, _, _, _, h⟩ := take_frame s s.nextMove
  rw [State.advance, h]
@[simp] theorem advance_sources : s.advance.sources = s.sources := by
  obtain ⟨_, _, _, _, _, _, _, _, _, _, _, _, _, h⟩ := take_frame s s.nextMove
  rw [State.advance, h]
@[simp] theorem advance_mem : s.advance.mem = s.mem := by
  obtain ⟨_, _, _, _, _, _, _, _, _, _, _, _, _, h⟩ := take_frame s s.nextMove
  rw [State.advance, h]
@[simp] theorem advance_inbox : s.advance.inbox = s.inbox := by
  obtain ⟨_, _, _, _, _, _, _, _, _, _, _, _, _, h⟩ := take_frame s s.nextMove
  rw [State.advance, h]
@[simp] theorem advance_clk : s.advance.clk = s.clk := by
  obtain ⟨_, _, _, _, _, _, _, _, _, _, _, _, _, h⟩ := take_frame s s.nextMove
  rw [State.advance, h]
@[simp] theorem finish_cfg : s.finish.cfg = s.cfg := by unfold State.finish; split <;> rfl
@[simp] theorem finish_cmd : s.finish.cmd = s.cmd := by unfold State.finish; split <;> rfl
@[simp] theorem finish_src : s.finish.src = s.src := by unfold State.finish; split <;> rfl
@[simp] theorem finish_count : s.finish.count = s.count := by unfold State.finish; split <;> rfl
@[simp] theorem finish_mask : s.finish.mask = s.mask := by unfold State.finish; split <;> rfl
@[simp] theorem finish_emask : s.finish.emask = s.emask := by unfold State.finish; split <;> rfl
@[simp] theorem finish_stream : s.finish.stream = s.stream := by unfold State.finish; split <;> rfl
@[simp] theorem finish_fault : s.finish.fault = s.fault := by unfold State.finish; split <;> rfl
@[simp] theorem finish_sources : s.finish.sources = s.sources := by unfold State.finish; split <;> rfl
@[simp] theorem finish_mem : s.finish.mem = s.mem := by unfold State.finish; split <;> rfl
@[simp] theorem finish_inbox : s.finish.inbox = s.inbox := by unfold State.finish; split <;> rfl
@[simp] theorem finish_clk : s.finish.clk = s.clk := by unfold State.finish; split <;> rfl
@[simp] theorem finish_port : s.finish.port = s.port := by unfold State.finish; split <;> rfl
@[simp] theorem finish_held1 : s.finish.held1 = s.held1 := by unfold State.finish; split <;> rfl
@[simp] theorem finish_held0 : s.finish.held0 = s.held0 := by unfold State.finish; split <;> rfl
@[simp] theorem finish_draws : s.finish.draws = s.draws := by unfold State.finish; split <;> rfl
@[simp] theorem finish_fresh : s.finish.fresh = s.fresh := by unfold State.finish; split <;> rfl
@[simp] theorem finish_byteIdx : s.finish.byteIdx = s.byteIdx := by unfold State.finish; split <;> rfl
@[simp] theorem finish_bitIdx : s.finish.bitIdx = s.bitIdx := by unfold State.finish; split <;> rfl
@[simp] theorem finish_shift : s.finish.shift = s.shift := by unfold State.finish; split <;> rfl
@[simp] theorem finish_sub : s.finish.sub = s.sub := by unfold State.finish; split <;> rfl
@[simp] theorem finish_cyc : s.finish.cyc = s.cyc := by unfold State.finish; split <;> rfl
@[simp] theorem finish_startCnt : s.finish.startCnt = s.startCnt := by unfold State.finish; split <;> rfl

end

/-- The events to come have no part in ending a LATCHING (R91). -/
theorem finish_withInbox (s : State) (b : List Event) : ({ s with inbox := b } : State).finish = { s.finish with inbox := b } := by
  show (if s.phase = .latching ∧ s.cfg.latchCyc ≤ s.latchCnt + 1 then _ else _) = _
  unfold State.finish
  split <;> rfl

/-- What is scheduled for a running command: in LATCHING its next cycle, else a cycle of the start latency, of a bit cell, or `TS` (R88). -/
theorem nextMove_cases {s : State} (h : s.phase ≠ .idle) :
    s.nextMove = .continueLatch ∧ s.phase = .latching ∨ s.phase = .sending ∧ s.nextMove ≠ .rest ∧ s.nextMove ≠ .continueLatch := by
  unfold State.nextMove State.byteMove
  cases hp : s.phase with
  | idle => exact absurd hp h
  | latching => exact .inl ⟨rfl, rfl⟩
  | sending => refine .inr ⟨rfl, ?_, ?_⟩ <;> dsimp only <;> (repeat' split) <;> simp

/-- A running command's step never ends it: BUSY falls only at the start of a cycle (R91). -/
theorem advance_busy {s : State} (h : s.phase ≠ .idle) : s.advance.phase ≠ .idle := by
  unfold State.advance
  cases s.nextMove <;> simp only [State.take, State.beginCell, State.continueCell, State.beginLatch, State.portRmw_phase] <;>
    first
      | exact h
      | (split <;> exact h)
      | simp

/-- What a step of a running command does to the port: nothing, or one `PortRMW` (R49, R51). -/
theorem advance_cases (s : State) :
    (s.advance.port = s.port ∧ s.advance.held1 = s.held1 ∧ s.advance.held0 = s.held0 ∧ s.advance.draws = s.draws) ∨
      ∃ (u : State) (level : Bool), s.advance = u.portRmw level ∧ u.port = s.port ∧ u.emask = s.emask ∧ u.held1 = s.held1 ∧ u.held0 = s.held0 ∧
        u.draws = s.draws := by
  unfold State.advance
  cases s.nextMove with
  | continueCell o =>
    simp only [State.take, State.continueCell]
    split
    · exact .inr ⟨_, _, rfl, rfl, rfl, rfl, rfl, rfl⟩
    · exact .inl ⟨rfl, rfl, rfl, rfl⟩
  | beginCell k j => exact .inr ⟨_, _, rfl, rfl, rfl, rfl, rfl, rfl⟩
  | beginLatch => exact .inr ⟨_, _, rfl, rfl, rfl, rfl, rfl, rfl⟩
  | _ => exact .inl ⟨rfl, rfl, rfl, rfl⟩

/-- Every step of a running command keeps it so that no other writer has been seen (R49). -/
theorem advance_unraced {s : State} (h : Unraced s) : Unraced s.advance := by
  obtain ⟨p, h1, h0, -⟩ | ⟨u, level, e, p, m, h1, h0, -⟩ := advance_cases s
  · exact ⟨by rw [h1, p, advance_emask, h.high], by rw [h0, p, advance_emask, h.low]⟩
  · rw [e]
    exact portRmw_unraced ⟨by rw [h1, p, m, h.high], by rw [h0, p, m, h.low]⟩ level

/-- With no other writer every step of a running command leaves the other bits of the port as they were (R80). -/
theorem advance_port_others {s : State} (h : Unraced s) : s.advance.port &&& ~~~ s.emask = s.port &&& ~~~ s.emask := by
  obtain ⟨p, -⟩ | ⟨u, level, e, p, m, h1, h0, -⟩ := advance_cases s
  · rw [p]
  · rw [e, ← m, ← p]
    exact portRmw_port_others ⟨by rw [h1, p, m, h.high], by rw [h0, p, m, h.low]⟩ level

/-- After a step of a running command the port still holds only values that are counted as held (R50). -/
theorem advance_held {s : State} (h : s.port &&& ~~~ s.held1 = 0 ∧ ~~~ s.port &&& ~~~ s.held0 = 0) :
    s.advance.port &&& ~~~ s.advance.held1 = 0 ∧ ~~~ s.advance.port &&& ~~~ s.advance.held0 = 0 := by
  obtain ⟨p, h1, h0, -⟩ | ⟨u, level, e, -⟩ := advance_cases s
  · rw [p, h1, h0]; exact h
  · rw [e]; exact portRmw_held u level

end Sys2Proof.Machine
end

