-- ==== Sys2Proof/Laws/Step.lean ====
section
/-! SUPPORT. What a step can do, once. -/
namespace Sys2Proof.Machine

/-- A machine that answers a next state had no fault recorded and a well-formed configuration, and took its next event (R109,
R112). -/
theorem step_cases {s t : State} (h : step s = .next t) :
    s.fault = .none ∧ s.cfg.WellFormed ∧
      ((s.event = .reset ∧ t = s.popped.coreReset) ∨ ∃ e, s.event = .cycle e ∧ cycle e s.popped = .next t) := by
  obtain ⟨hf, h⟩ := whenRunning_next (show whenRunning s runEvent = .next t from h)
  unfold runEvent at h
  split at h
  · cases h
  · refine ⟨hf, ‹_›, ?_⟩
    split at h
    · cases h
      exact .inl ⟨‹_›, rfl⟩
    · exact .inr ⟨_, ‹_›, h⟩

/-- A step whose next event is a clock cycle is that cycle. -/
theorem step_cycle {s : State} (hf : s.fault = .none) (hc : s.cfg.WellFormed) {e : CycleInput} (he : s.event = .cycle e) :
    step s = cycle e s.popped := by
  rw [step, clockStep, whenRunning_of_none hf, runEvent, hc, he]

/-- A step whose next event is a reset (R125). -/
theorem step_reset {s : State} (hf : s.fault = .none) (hc : s.cfg.WellFormed) (he : s.event = .reset) :
    step s = .next s.popped.coreReset := by
  rw [step, clockStep, whenRunning_of_none hf, runEvent, hc, he]

/-- A clock cycle in which the host presents nothing. -/
theorem cycle_none {e : CycleInput} (h : e.command = none) (s : State) :
    cycle e s = .next ((s.finish).clockEdge e) := by
  simp [cycle, h]

/-- The start of a cycle does nothing in IDLE. -/
theorem finish_of_idle {s : State} (h : s.phase = .idle) : s.finish = s := by
  simp [State.finish, h]

/-- The start of a cycle of a running command does nothing before `TE` (R91). -/
theorem finish_of_busy {s : State} (h : s.finish.busy = true) : s.finish = s := by
  unfold State.finish at *
  split at h
  · simp [State.busy] at h
  · rename_i hn
    exact if_neg hn

/-- A clock cycle in which the host presents a command that decodes is that command's meaning, then the rest of the cycle (R84,
R88). -/
theorem cycle_decoded {e : CycleInput} {c : Command} {i : Instr} (hc : e.command = some c) (hi : decode c = .ok i) (s : State) :
    cycle e s = onNext (exec i (s.finish)) fun t => .next (t.clockEdge e) := by
  simp [cycle, hc, present_of_decode hi]

/-- Every clock cycle of a machine without a fault answers a next state. -/
theorem cycle_next {s : State} (h : s.fault = .none) (e : CycleInput) : ∃ t, cycle e s = .next t := by
  have hb : (s.finish).fault = .none := by simp [h]
  unfold cycle
  cases e.command with
  | none => exact ⟨_, rfl⟩
  | some c =>
    simp only [present, whenRunning_of_none hb]
    split
    · exact ⟨_, rfl⟩
    · split
      · exact ⟨_, rfl⟩
      · rw [exec_of_running hb]
        exact ⟨_, rfl⟩

/-- A cycle of a running command records one of the run-time conditions and keeps the state, or meets none of them: then the writes of
the outside take place and, if the core is not stalled, its step (R113 to R115). -/
theorem runCycle_cases (s : State) (e : CycleInput) :
    (∃ r, s.runCycle e = s.raise r) ∨
      ((e.stall && s.beforeLatch) = false ∧ e.writes.any s.hitsPin = false ∧ e.writes.findSome? s.hitsElement = none ∧
        s.runCycle e =
          { (if e.stall then s.world e.writes else (s.world e.writes).advance) with
            clk := (if e.stall then s.world e.writes else (s.world e.writes).advance).clk + 1 }) := by
  unfold State.runCycle
  cases e.stall && s.beforeLatch
  · cases e.writes.any s.hitsPin
    · cases e.writes.findSome? s.hitsElement with
      | some k => exact .inl ⟨_, rfl⟩
      | none => exact .inr ⟨rfl, rfl, rfl, rfl⟩
    · exact .inl ⟨_, rfl⟩
  · exact .inl ⟨_, rfl⟩

/-- The cycle of a running command (R88). -/
theorem clockEdge_busy {s : State} (hf : s.fault = .none) (hb : s.busy = true) (e : CycleInput) : s.clockEdge e = s.runCycle e := by
  simp [State.clockEdge, State.faulted, hf, hb]

/-- In IDLE only the outside acts (R124). -/
theorem clockEdge_idle {s : State} (hf : s.fault = .none) (hb : s.busy = false) (e : CycleInput) : s.clockEdge e = s.world e.writes := by
  simp [State.clockEdge, State.faulted, hf, hb]

/-- The step of a running command in a cycle in which nothing is presented is the command's cycle. -/
theorem step_running {s : State} (hf : s.fault = .none) (hc : s.cfg.WellFormed) {e : CycleInput} (he : s.event = .cycle e)
    (hn : e.command = none) (hb : s.finish.busy = true) : step s = .next (s.popped.runCycle e) := by
  have hs : s.popped.finish = s.popped := by rw [State.popped, finish_withInbox, finish_of_busy hb]
  have hp : s.popped.busy = true := by rw [← finish_of_busy hb]; exact hb
  rw [step_cycle hf hc he, cycle_none hn, hs, clockEdge_busy (s := s.popped) hf hp]

/-- A step of a running command that records nothing: no command was presented, no run-time condition was met, and the writes of
the outside and the core's step took place. -/
theorem step_running_unfaulted {s t : State} {e : CycleInput} (he : s.event = .cycle e) (hb : s.finish.busy = true)
    (h : step s = .next t) (ht : t.fault = .none) :
    s.fault = .none ∧ s.cfg.WellFormed ∧ e.command = none ∧ (e.stall && s.popped.beforeLatch) = false ∧
      t = { (if e.stall then s.popped.world e.writes else (s.popped.world e.writes).advance) with clk := s.clk + 1 } := by
  obtain ⟨hf, hc, -⟩ := step_cases h
  refine ⟨hf, hc, ?_⟩
  have hn : e.command = none := by
    cases hcm : e.command with
    | none => rfl
    | some c =>
      exfalso
      have hs : s.popped.finish = s.popped := by rw [State.popped, finish_withInbox, finish_of_busy hb]
      have hp : s.popped.busy = true := by rw [← finish_of_busy hb]; exact hb
      rw [step_cycle hf hc he, cycle, hs, hcm] at h
      simp only [present, whenRunning_of_none (show s.popped.fault = .none from hf), hp, if_true, onNext_next] at h
      cases h
      simp [State.clockEdge, State.faulted] at ht
  rw [step_running hf hc he hn hb] at h
  obtain rfl := Host.Outcome.next.inj h
  rcases runCycle_cases s.popped e with ⟨r, hr⟩ | ⟨h1, -, -, hr⟩
  · rw [hr] at ht
    cases ht
  · refine ⟨hn, h1, ?_⟩
    rw [hr]
    cases e.stall <;> simp

/-- The command cycle of a running command when nothing else happens. -/
theorem runCycle_quiet (s : State) (e : CycleInput) (hs : e.stall = false) (hw : e.writes = []) :
    s.runCycle e = { s.advance with clk := s.clk + 1 } := by
  simp [State.runCycle, hs, hw]

/-- What `PHASE` shows on the coming cycle tells whether a command still runs on it (R25, R91). -/
theorem nextPhase_idle_iff {s : State} (hf : s.fault = .none) (hc : s.cfg.WellFormed) : s.nextPhase = .idle ↔ s.finish.busy = false := by
  have hq : step { s with inbox := [] } = .next (({ s.finish with inbox := [] } : State).clockEdge {}) := by
    rw [step_cycle (s := { s with inbox := [] }) hf hc rfl, cycle_none rfl]
    exact congrArg (fun u : State => Host.Outcome.next (u.clockEdge {})) (finish_withInbox s [])
  unfold State.nextPhase
  rw [hq]
  cases hb : s.finish.busy with
  | false =>
    rw [clockEdge_idle (s := { s.finish with inbox := [] }) (by simp [hf]) hb, world_nil]
    simpa [State.busy] using hb
  | true =>
    have := advance_busy (s := { s.finish with inbox := [] }) (by simpa [State.busy] using hb)
    rw [clockEdge_busy (s := { s.finish with inbox := [] }) (by simp [hf]) hb, runCycle_quiet _ _ rfl rfl]
    simpa using this

/-- A command still runs on the coming cycle: the start of that cycle does not end it. -/
theorem nextPhase_ne_idle {s : State} (hf : s.fault = .none) (hc : s.cfg.WellFormed) : s.nextPhase ≠ .idle ↔ s.finish.busy = true := by
  rw [ne_eq, nextPhase_idle_iff hf hc, Bool.not_eq_false]

/-- What `PHASE` shows on the coming cycle tells whether that cycle lies before `TS` (R81, R88). -/
theorem nextPhase_sending_iff {s : State} (hf : s.fault = .none) (hc : s.cfg.WellFormed) :
    s.nextPhase = .sending ↔ s.beforeLatch = true := by
  by_cases hb : s.finish.busy = true
  · have hs := step_running (s := { s with inbox := [] }) hf hc rfl rfl (by rw [finish_withInbox]; exact hb)
    have hn : s.nextPhase = ({ s with inbox := [] } : State).advance.phase := by
      unfold State.nextPhase
      rw [hs, show ({ s with inbox := [] } : State).popped = { s with inbox := [] } from rfl, runCycle_quiet _ _ rfl rfl]
    have hp : s.phase ≠ .idle := by
      intro h
      rw [finish_of_idle h] at hb
      simp [State.busy, h] at hb
    rw [hn]
    unfold State.advance State.beforeLatch
    rw [show ({ s with inbox := [] } : State).nextMove = s.nextMove from rfl]
    rcases nextMove_cases hp with ⟨hm, h⟩ | ⟨h, h1, h2⟩
    · simp [hm, State.take, h]
    · cases hm : s.nextMove with
      | rest => exact absurd hm h1
      | continueLatch => exact absurd hm h2
      | beginLatch => simp [State.take, State.beginLatch]
      | latency n => simp [State.take, h]
      | beginCell k j => simp [State.take, State.beginCell, h]
      | continueCell o =>
        simp only [State.take, State.continueCell]
        split <;> simp [h]
  · have hi : s.nextPhase = .idle := (nextPhase_idle_iff hf hc).mpr (by simpa using hb)
    have hx : s.phase ≠ .sending := by
      intro h
      apply hb
      simp [State.finish, State.busy, h]
    rw [hi]
    unfold State.beforeLatch State.nextMove
    cases h : s.phase with
    | sending => exact absurd h hx
    | idle => simp
    | latching => simp

end Sys2Proof.Machine
end

