-- ==== Sys2Proof/Laws/Run.lean ====
section
/-! SUPPORT. An undisturbed run, cycle by cycle: where it is on cycle `t`, the first cycle, one more cycle, the last one (R88). -/
namespace Sys2Proof.Machine

/-- What every state of an undisturbed run shares with the state `s` at acceptance. -/
structure Shared (s : State) (em : Byte) (st : List Byte) (t : Nat) (u : State) : Prop where
  cfg : u.cfg = s.cfg
  emask : u.emask = em
  stream : u.stream = st
  fault : u.fault = .none
  inbox : u.inbox = []
  clk : u.clk = t + 1
  unraced : Unraced u
  others : u.port &&& ~~~ em = s.port &&& ~~~ em
  sources : u.sources = s.sources
  mem : u.mem = s.mem

/-- Where a run is on cycle `t`. -/
inductive Place (c : Config) (st : List Byte) (before : Bool) (em : Byte) : Nat → State → Prop where
  | latency (t : Nat) (u : State) (h : t < c.startLat) (ph : u.phase = .sending) (fr : u.fresh = false)
      (cnt : u.startCnt = t) (lv : u.pinLevel em = before) : Place c st before em t u
  | cell (j o : Nat) (u : State) (hj : j < 8 * st.length) (ho : o < c.tbit) (ph : u.phase = .sending) (fr : u.fresh = false)
      (cnt : u.startCnt = c.startLat) (byte : u.byteIdx = j / 8) (bit : u.bitIdx = j % 8) (cyc : u.cyc = o)
      (shift : u.shift = st.getD (j / 8) 0x00#8 <<< (j % 8)) (lv : u.pinLevel em = decide (o < c.tHigh (streamBit st j))) :
      Place c st before em (c.startLat + j * c.tbit + o) u
  | latch (d : Nat) (u : State) (hd : d < c.latchCyc) (ph : u.phase = .latching) (cnt : u.latchCnt = d)
      (lv : u.pinLevel em = false) : Place c st before em (c.latchStartCycle st.length + d) u

/-- A well-formed configuration meets each condition of R112. -/
theorem meets_of_wf {c : Config} (h : c.WellFormed) (k : ConfigCondition) : c.meets k = true := by
  have h' := List.find?_eq_none.mp (show ConfigCondition.all.find? (fun k => !c.meets k) = none from h) k
    (by cases k <;> simp [ConfigCondition.all])
  simpa using h'

/-- The order of the durations of a well-formed configuration (R8, R11). -/
theorem wf_times {c : Config} (h : c.WellFormed) :
    1 ≤ c.t0h ∧ c.t0h < c.t1h ∧ c.t1h < c.tbit ∧ c.tbit < c.resetCyc ∧ c.resetCyc ≤ c.latchCyc := by
  have a := meets_of_wf h .t0hPositive
  have b := meets_of_wf h .t0hBelowT1h
  have d := meets_of_wf h .t1hBelowTbit
  have e := meets_of_wf h .resetLongerThanBit
  have f := meets_of_wf h .latchCoversReset
  simp only [Config.meets, decide_eq_true_eq] at a b d e f
  exact ⟨a, b, d, e, f⟩

/-- Every bit has a high and a low period (R77). -/
theorem tHigh_bounds {c : Config} (h : c.WellFormed) (x : Bool) : 0 < c.tHigh x ∧ c.tHigh x < c.tbit := by
  obtain ⟨a, b, d, -, -⟩ := wf_times h
  unfold Config.tHigh
  cases x <;> simp <;> omega

section
variable {s : State} {em : Byte} {st : List Byte} {before : Bool}

/-- A cell begins where it should, with the line high (R72, R88). -/
theorem cell_begun {u : State} (hc : s.cfg.WellFormed) (hem : em ≠ 0) {t : Nat} (hu : u.cfg = s.cfg) (he : u.emask = em)
    (ph : u.phase = .sending)
    {j : Nat} (hj : j < 8 * st.length) (hsh : u.nextShift (j / 8) (j % 8) = st.getD (j / 8) 0x00#8 <<< (j % 8)) :
    Place s.cfg st before em (s.cfg.startLat + j * s.cfg.tbit + 0) { u.beginCell (j / 8) (j % 8) with clk := t } := by
  refine .cell j 0 _ hj ?_ ph rfl ?_ rfl rfl rfl hsh ?_
  · have := tHigh_bounds hc true; omega
  · show u.cfg.startLat = _
    rw [hu]
  · have := tHigh_bounds hc (streamBit st j)
    simp only [this.1, decide_true]
    subst he
    exact portRmw_pinLevel (s := { u with
      fresh := false, startCnt := u.cfg.startLat, byteIdx := j / 8, bitIdx := j % 8, shift := u.nextShift (j / 8) (j % 8)
      sub := .hi, cyc := 0 }) true hem

/-- LATCHING begins with the line low (R88, R90). -/
theorem latch_begun {u : State} (hc : s.cfg.WellFormed) (hem : em ≠ 0) {t : Nat} (he : u.emask = em) :
    Place s.cfg st before em (s.cfg.latchStartCycle st.length + 0) { u.beginLatch with clk := t } := by
  refine .latch 0 _ ?_ rfl rfl ?_
  · have := wf_times hc; omega
  · subst he
    exact portRmw_pinLevel (s := { u with
      phase := .latching, fresh := false, startCnt := u.cfg.startLat, byteIdx := u.stream.length, bitIdx := 0
      shift := if u.stream.isEmpty then u.shift else u.shift <<< 1, latchCnt := 0 }) false hem

/-- After byte `k - 1` the next byte's first cell begins, or LATCHING (R76, R88). -/
theorem byte_begun {u : State} (hc : s.cfg.WellFormed) (hem : em ≠ 0) {t : Nat} (hu : u.cfg = s.cfg) (he : u.emask = em)
    (hst : u.stream = st) (ph : u.phase = .sending) {k : Nat} (hk : k ≤ st.length) :
    Place s.cfg st before em (s.cfg.startLat + 8 * k * s.cfg.tbit) { u.take (u.byteMove k) with clk := t } := by
  unfold State.byteMove
  rw [hst]
  by_cases hlt : k < st.length
  · rw [if_pos hlt]
    have := cell_begun (before := before) (st := st) (t := t) (j := 8 * k) hc hem hu he ph (by omega)
      (by simp [State.nextShift, Nat.mul_mod_right, hst])
    rw [Nat.mul_mod_right, Nat.mul_div_cancel_left _ (by omega)] at this
    exact this
  · rw [if_neg hlt]
    have hkl : k = st.length := by omega
    subst hkl
    exact latch_begun (s := s) (st := st) (before := before) (t := t) (u := u) hc hem he

/-- One more cycle of a cell (R72, R88). -/
theorem cell_continued {u : State} (hc : s.cfg.WellFormed) (hem : em ≠ 0) {t j o : Nat}
    (hu : u.cfg = s.cfg) (he : u.emask = em)
    (hj : j < 8 * st.length) (ho : o + 1 < s.cfg.tbit) (ph : u.phase = .sending) (fr : u.fresh = false)
    (cnt : u.startCnt = s.cfg.startLat) (byte : u.byteIdx = j / 8) (bit : u.bitIdx = j % 8)
    (shift : u.shift = st.getD (j / 8) 0x00#8 <<< (j % 8)) (lv : u.pinLevel em = decide (o < s.cfg.tHigh (streamBit st j))) :
    Place s.cfg st before em (s.cfg.startLat + j * s.cfg.tbit + (o + 1)) { u.continueCell (o + 1) with clk := t } := by
  have hw : u.wireBit = streamBit st j := by
    have : j % 8 < 8 := Nat.mod_lt _ (by omega)
    simp only [State.wireBit, streamBit, shift, BitVec.getLsbD_shiftLeft]
    have h2 : ¬ 7 < j % 8 := by omega
    simp [h2]
  have hb := tHigh_bounds hc (streamBit st j)
  unfold State.continueCell
  rw [hu, hw]
  split
  · rename_i heq
    refine .cell j (o + 1) _ hj ho ph fr cnt byte bit rfl shift ?_
    rw [decide_eq_false (by omega)]
    subst he
    exact portRmw_pinLevel (s := { u with cyc := o + 1, sub := .lo }) false hem
  · rename_i hne
    refine .cell j (o + 1) _ hj ho ph fr cnt byte bit rfl shift ?_
    show u.pinLevel em = _
    rw [lv]
    congr 1
    simp only [eq_iff_iff]
    omega

/-- One more bit sent (R82). -/
theorem shift_next (b : Byte) (m : Nat) : (b <<< m) <<< 1 = b <<< (m + 1) := by
  rw [BitVec.shiftLeft_add]

/-- One undisturbed cycle of a run. -/
theorem place_step {u : State} {t : Nat} (hc : s.cfg.WellFormed) (hem : em ≠ 0) (h : Shared s em st t u)
    (hp : Place s.cfg st before em t u) (ht : t + 1 < s.cfg.endCycle st.length) :
    u.finish = u ∧ Place s.cfg st before em (t + 1) { u.advance with clk := t + 2 } := by
  have hcfg := h.cfg
  cases hp with
  | latency _ _ hA ph fr cnt lv =>
    refine ⟨by simp [State.finish, ph], ?_⟩
    unfold State.advance State.nextMove
    simp only [ph, fr, hcfg, cnt, hA]
    simp only [Bool.false_eq_true, if_false, if_true]
    by_cases hA' : t + 1 < s.cfg.startLat
    · rw [if_pos hA']
      exact .latency _ _ hA' ph rfl rfl lv
    · rw [if_neg hA']
      have := byte_begun (before := before) (t := t + 2) (k := 0) hc hem hcfg h.emask h.stream ph (by omega)
      have e : t + 1 = s.cfg.startLat + 8 * 0 * s.cfg.tbit := by omega
      rw [e]
      exact this
  | cell j o _ hj ho ph fr cnt byte bit cyc shift lv =>
    refine ⟨by simp [State.finish, ph], ?_⟩
    unfold State.advance State.nextMove
    simp only [ph, fr, hcfg, cnt, cyc, bit, byte]
    simp only [Bool.false_eq_true, if_false, Nat.lt_irrefl]
    by_cases ho' : o + 1 < s.cfg.tbit
    · rw [if_pos ho']
      exact cell_continued hc hem hcfg h.emask hj ho' ph fr cnt byte bit shift lv
    · rw [if_neg ho']
      have ho2 : o + 1 = s.cfg.tbit := by omega
      have e : s.cfg.startLat + j * s.cfg.tbit + o + 1 = s.cfg.startLat + (j + 1) * s.cfg.tbit := by
        rw [Nat.add_mul]; omega
      rw [e]
      by_cases hb : j % 8 + 1 < 8
      · rw [if_pos hb]
        have d8 : (j + 1) / 8 = j / 8 := by omega
        have m8 : (j + 1) % 8 = j % 8 + 1 := by omega
        have hj1 : j + 1 < 8 * st.length := by omega
        have := cell_begun (before := before) (t := s.cfg.startLat + j * s.cfg.tbit + o + 2) hc hem hcfg h.emask ph hj1
          (by rw [d8, m8, State.nextShift, if_neg (by omega), shift, shift_next])
        rw [d8, m8] at this
        exact this
      · rw [if_neg hb]
        have e8 : (j + 1) * s.cfg.tbit = 8 * (j / 8 + 1) * s.cfg.tbit := by congr 1; omega
        rw [e8]
        exact byte_begun (k := j / 8 + 1) hc hem hcfg h.emask h.stream ph (by omega)
  | latch d _ hd ph cnt lv =>
    have hd' : d + 1 < s.cfg.latchCyc := by simp only [Config.endCycle] at ht; omega
    refine ⟨by simp only [State.finish, ph, cnt, hcfg]; rw [if_neg]; omega, ?_⟩
    unfold State.advance State.nextMove
    simp only [ph]
    exact .latch (d + 1) _ hd' ph (by simp [State.take, cnt]) lv

/-- What an undisturbed cycle keeps. -/
theorem shared_step {u : State} {t : Nat} (h : Shared s em st t u) : Shared s em st (t + 1) { u.advance with clk := t + 2 } := by
  have hu := advance_unraced h.unraced
  have ho := advance_port_others h.unraced
  rw [h.emask] at ho
  exact ⟨by simp [h.cfg], by simp [h.emask], by simp [h.stream], by simp [h.fault], by simp [h.inbox], rfl,
    ⟨hu.high, hu.low⟩, by rw [← h.others]; exact ho, by simp [h.sources], by simp [h.mem]⟩

/-- BUSY is 1 everywhere in a run (R25). -/
theorem place_busy {u : State} {t : Nat} (hp : Place s.cfg st before em t u) : u.phase ≠ .idle := by
  cases hp <;> simp_all

/-- A step with nothing to come. -/
theorem step_quiet {u : State} (hc : u.cfg.WellFormed) (hf : u.fault = .none) (hi : u.inbox = []) :
    step u = .next (u.finish.clockEdge {}) := by
  have hp : u.popped = u := by
    cases u; simp_all [State.popped]
  rw [step_cycle hf hc (e := {}) (by simp [State.event, hi]), cycle_none rfl, hp]

/-- A run goes on by one cycle before `TE`. -/
theorem run_step {u : State} {t : Nat} (hc : s.cfg.WellFormed) (hem : em ≠ 0) (h : Shared s em st t u)
    (hp : Place s.cfg st before em t u) (ht : t + 1 < s.cfg.endCycle st.length) :
    ∃ v, step u = .next v ∧ Shared s em st (t + 1) v ∧ Place s.cfg st before em (t + 1) v := by
  obtain ⟨hfin, hpl⟩ := place_step hc hem h hp ht
  refine ⟨{ u.advance with clk := t + 2 }, ?_, shared_step h, hpl⟩
  rw [step_quiet (h.cfg ▸ hc) h.fault h.inbox, hfin]
  have hb := place_busy hp
  have e : u.clockEdge {} = u.runCycle {} := by
    simp [State.clockEdge, State.faulted, h.fault, State.busy, hb]
  rw [e, runCycle_quiet _ _ rfl rfl, h.clk]

/-- Cycle `TE`: back to IDLE, the line low (R91). -/
theorem run_last {u : State} {t : Nat} (h : Shared s em st t u) (hc : s.cfg.WellFormed)
    (hp : Place s.cfg st before em t u) (ht : t + 1 = s.cfg.endCycle st.length) :
    step u = .next { u with phase := .idle, latchCnt := s.cfg.latchCyc } ∧ u.pinLevel em = false := by
  have key : u.phase = .latching ∧ s.cfg.latchCyc ≤ u.latchCnt + 1 ∧ u.pinLevel em = false := by
    have hl := wf_times hc
    simp only [Config.endCycle, Config.latchStartCycle] at ht
    cases hp with
    | latency _ _ hA ph fr cnt lv =>
      exfalso; omega
    | cell j o _ hj ho =>
      exfalso
      have : (j + 1) * s.cfg.tbit ≤ 8 * st.length * s.cfg.tbit := Nat.mul_le_mul_right _ hj
      rw [Nat.add_mul] at this
      omega
    | latch d _ hd ph cnt lv =>
      refine ⟨ph, ?_, lv⟩
      simp only [Config.latchStartCycle] at ht
      omega
  obtain ⟨ph, hl, lv⟩ := key
  refine ⟨?_, lv⟩
  rw [step_quiet (h.cfg ▸ hc) h.fault h.inbox]
  have : u.finish = { u with phase := .idle, latchCnt := s.cfg.latchCyc } := by
    unfold State.finish
    rw [if_pos ⟨ph, by rw [h.cfg]; exact hl⟩, h.cfg]
  rw [this]
  simp [State.clockEdge, State.faulted, h.fault, State.busy]

/-- The level of the schedule at a place. -/
theorem place_level {u : State} {t : Nat} (hc : s.cfg.WellFormed) (hp : Place s.cfg st before em t u) :
    u.pinLevel em = scheduleLevel s.cfg st before t ∧ t < s.cfg.endCycle st.length := by
  have hb := tHigh_bounds hc true
  cases hp with
  | latency _ _ hA ph fr cnt lv =>
    refine ⟨by simp [scheduleLevel, hA, lv], ?_⟩
    have := wf_times hc
    simp only [Config.endCycle, Config.latchStartCycle]; omega
  | cell j o _ hj ho ph fr cnt byte bit cyc shift lv =>
    have h1 : (j + 1) * s.cfg.tbit ≤ 8 * st.length * s.cfg.tbit := Nat.mul_le_mul_right _ hj
    rw [Nat.add_mul] at h1
    refine ⟨?_, by simp only [Config.endCycle, Config.latchStartCycle]; omega⟩
    unfold scheduleLevel
    rw [if_neg (by omega), if_pos (by simp only [Config.latchStartCycle]; omega)]
    have e : s.cfg.startLat + j * s.cfg.tbit + o - s.cfg.startLat = j * s.cfg.tbit + o := by omega
    have d1 : (j * s.cfg.tbit + o) / s.cfg.tbit = j := by
      rw [Nat.mul_comm, Nat.mul_add_div (by omega), Nat.div_eq_of_lt ho]; omega
    have m1 : (j * s.cfg.tbit + o) % s.cfg.tbit = o := by
      rw [Nat.mul_comm, Nat.mul_add_mod, Nat.mod_eq_of_lt ho]
    rw [e, d1, m1, lv]
  | latch d _ hd ph cnt lv =>
    refine ⟨?_, by simp only [Config.endCycle]; omega⟩
    unfold scheduleLevel
    rw [if_neg (by simp only [Config.latchStartCycle]; omega), if_neg (by omega), lv]

/-- One step more of a run. -/
theorem run_succ_some {n : Nat} {a u : State} (h : run n a = some u) : run (n + 1) a = (match step u with
    | .next t => some t | .fault _ => none | .refused _ => none) := by
  induction n generalizing a with
  | zero =>
    simp only [run, Option.some.injEq] at h
    subst h
    cases hs : step a <;> simp [run, hs]
  | succ n ih =>
    rw [run] at h ⊢
    split at h
    · exact ih h
    · cases h
    · cases h

end

/-- A command that passes every check is latched (R84). -/
theorem check_accepted {s : State} {i : Instr} (h : Accepts s i) :
    s.check i.fmt (opcode i) i.pinSel i.src i.count i.mask =
      s.latch i.fmt (opcode i) i.src i.count i.mask (s.maskOf i) := by
  exact check_latches h.oneBit h.short h.inExtent

/-- Cycle `t = 0` of an accepted command, in the step that presents it (R84, R88). -/
theorem first_cycle {s : State} {i : Instr} (hc : s.cfg.WellFormed) (h : Accepts s i) (hd : decode (encode i) = .ok i) :
    ∃ v, step (s.commandedBy i) = .next v ∧ Shared s (s.maskOf i) (s.streamFor i) 0 v ∧
      Place s.cfg (s.streamFor i) (s.pinLevel (s.maskOf i)) (s.maskOf i) 0 v := by
  have hpop : (s.commandedBy i).popped = { s with inbox := [] } := rfl
  have hf : ({ s with inbox := [] } : State).fault = .none := h.running
  have hacc : Accepts { s with inbox := [] } i := ⟨h.1, h.2, h.3, h.4, h.5⟩
  have hb : ({ s with inbox := [] } : State).busy = false := by simp [State.busy, h.idle]
  set l := ({ s with inbox := [] } : State).latch i.fmt (opcode i) i.src i.count i.mask (s.maskOf i) with hl
  have hstep : step (s.commandedBy i) = .next (l.clockEdge { command := some (encode i) }) := by
    rw [step_cycle (s := s.commandedBy i) h.running hc (e := { command := some (encode i) }) rfl, hpop,
      cycle_decoded rfl hd, finish_of_idle (by exact h.idle), exec_of_running hf, hb]
    simp only [Bool.false_eq_true, if_false, check_accepted hacc, onNext_next]
    rfl
  have he : l.clockEdge { command := some (encode i) } = { l.advance with clk := 1 } := by
    have h1 : l.faulted = false := by simp [State.faulted, hl, h.running]
    have h2 : l.busy = true := by simp [State.busy, hl]
    rw [State.clockEdge, h1, h2]
    simp only [Bool.false_eq_true, if_false, if_true]
    rw [runCycle_quiet _ _ rfl rfl]
    rfl
  have hem : s.maskOf i ≠ 0 := ne_zero_of_popcount h.oneBit
  refine ⟨_, he ▸ hstep, ?_, ?_⟩
  · have hu : Unraced l := ⟨rfl, rfl⟩
    have h1 := advance_unraced hu
    have h2 := advance_port_others hu
    exact ⟨by simp [hl], by simp [hl], by simp [hl]; rfl, by simp [hl, h.running], by simp [hl], rfl, ⟨h1.high, h1.low⟩, h2,
      by simp [hl], by simp [hl]⟩
  · unfold State.advance State.nextMove
    have hfr : l.fresh = true := rfl
    have hph : l.phase = .sending := rfl
    have hcf : l.cfg = s.cfg := rfl
    simp only [hfr, hph, hcf, if_true]
    by_cases hA : 0 < s.cfg.startLat
    · rw [if_pos hA]
      exact .latency _ _ hA rfl rfl rfl rfl
    · rw [if_neg hA]
      have := byte_begun (s := s) (u := l) (before := s.pinLevel (s.maskOf i)) (t := 1) (k := 0) (st := s.streamFor i) hc hem rfl rfl rfl rfl (by omega)
      have e : 0 = s.cfg.startLat + 8 * 0 * s.cfg.tbit := by omega
      rw [← e] at this
      exact this

end Sys2Proof.Machine
end

