-- ==== Sys2Proof/Tests/Slice0.lean ====
section
/-! SUPPORT. The model's own tests. Expected results are the vectors of `spec/95_test_vectors.md` (V, E, B, A, S, F, K, under the example
configuration D22) and the encodings of R56 to R60 written out bit by bit; each comment names its source. Then one witness for each
obligation that has hypotheses. -/
namespace Sys2Proof.Tests

open Sys2Proof Sys2Proof.Machine

/-! ### Small states -/

/-- IDLE, the port 0, one record source of each kind, two laid out in memory, and long ones for the count thresholds. -/
def demo : State :=
  { State.reset with
    port := 0x00#8
    sources := [(1, .rgb [⟨0xFF#8, 0x00#8, 0x80#8⟩, ⟨4#8, 5#8, 6#8⟩]), (2, .rgbw [⟨0x11#8, 0x22#8, 0x33#8, 0x44#8⟩]),
      (3, .raw [0x00#8, 0xFF#8, 0x80#8]), (4, .pack4 [0x0F80#16, 0x0123#16]), (5, .raw [0x0F#8, 0x08#8, 0x00#8]),
      (100, .mem .raw 65535), (200, .mem .pack4 30000), (300, .mem .rgb 30000), (400, .mem .rgbw 30000)]
    mem := [(101, 0xA5#8), (200, 0x34#8), (201, 0x12#8), (303, 7#8), (304, 8#8), (305, 9#8), (400, 1#8), (403, 4#8)] }

/-- `demo` with a cycle to come. -/
def demoWith (e : CycleInput) : State := { demo with inbox := [.cycle e] }

/-- The run of vector S1 and program P1 (`transmit_rgb` of one record on pin 1) after cycle 99: cell 9 is over. -/
def sending : State :=
  { demo with
    phase := .sending, cmd := 0x01#8, src := 1, count := 1, emask := 0x02#8, stream := [0x00#8, 0xFF#8, 0x80#8]
    byteIdx := 1, bitIdx := 1, shift := 0xFE#8, sub := .lo, cyc := 9, clk := 100, held1 := 0x02#8, held0 := 0xFF#8 }

/-- The same run after cycle 299, in LATCHING since cycle 240. -/
def latching : State :=
  { sending with phase := .latching, byteIdx := 3, bitIdx := 0, shift := 0x00#8, latchCnt := 59, clk := 300 }

/-- The same run after cycle 639, the last of LATCHING. -/
def lastLatch : State := { latching with latchCnt := 399, clk := 640 }

def sendingWith (e : CycleInput) : State := { sending with inbox := [.cycle e] }
def latchingWith (e : CycleInput) : State := { latching with inbox := [.cycle e] }
def lastLatchWith (e : CycleInput) : State := { lastLatch with inbox := [.cycle e] }

/-- What a next state shows of PHASE and FAULT. -/
def seen (o : Out) : Option (Phase × FaultReg) :=
  match o with
  | .next s => some (s.phase, s.fault)
  | .fault _ => none
  | .refused _ => none

/-- What presenting a command records, and the effective mask it leaves. -/
def verdict (c : Command) (s : State) : Option (FaultReg × Byte) :=
  match present c s with
  | .next t => some (t.fault, t.emask)
  | .fault _ => none
  | .refused _ => none

/-- The command word an instruction decodes from. -/
def isOk (c : Command) (i : Instr) : Bool :=
  match decode c with
  | .ok j => decide (j = i)
  | .error _ => false

/-- The reason a command word is reserved. -/
def reserved (c : Command) : Option DecodeError :=
  match decode c with
  | .ok _ => none
  | .error e => some e

/-! ### Decoding and encoding: words from R56 to R60, RSV PINSEL FMT -/

theorem test_decode_raw : isOk ⟨0b00000000#8, 9, 4, 0⟩ (.transmitRaw 9 4 0) = true := by decide
theorem test_decode_rgb : isOk ⟨0b00000001#8, 9, 4, 0⟩ (.transmitRgb 9 4 0) = true := by decide
theorem test_decode_rgbw : isOk ⟨0b00000010#8, 9, 4, 0⟩ (.transmitRgbw 9 4 0) = true := by decide
theorem test_decode_4bpp : isOk ⟨0b00000011#8, 9, 4, 0⟩ (.transmit4bpp 9 4 0) = true := by decide
theorem test_decode_raw_pin : isOk ⟨0b00001000#8, 9, 4, 0x80#8⟩ (.transmitRawPin 9 4 0x80#8) = true := by decide
theorem test_decode_rgb_pin : isOk ⟨0b00001001#8, 9, 4, 0x80#8⟩ (.transmitRgbPin 9 4 0x80#8) = true := by decide

/-- R57, R58, R61: one word of each kind of reserved word. -/
theorem test_decode_reserved :
    reserved ⟨0b00000100#8, 0, 0, 0⟩ = some (.fmtReserved 0x04#8) ∧ reserved ⟨0b00001100#8, 0, 0, 0⟩ = some (.fmtReserved 0x0C#8) ∧
      reserved ⟨0b00001010#8, 0, 0, 0⟩ = some (.pinNotOffered 0x0A#8) ∧
      reserved ⟨0b00001011#8, 0, 0, 0⟩ = some (.pinNotOffered 0x0B#8) ∧
      reserved ⟨0b00010000#8, 0, 0, 0⟩ = some (.rsvNonzero 0x10#8) ∧ reserved ⟨0b11111111#8, 0, 0, 0⟩ = some (.rsvNonzero 0xFF#8) := by
  decide

/-- R60: the words of the table, and no others, decode. -/
theorem test_table_words :
    (List.range 256).filter (fun w => (decodeTableWord 8 w).isSome) = [0x00, 0x01, 0x02, 0x03, 0x08, 0x09] := by decide

/-- R68: `transmit_rgb_pin(records, count, pin)` is `CMD 0x09` with its operands. -/
theorem test_encode_rgb_pin : encode (.transmitRgbPin 9 4 0x80#8) = ⟨0x09#8, 9, 4, 0x80#8⟩ := by decide

/-! ### Well-formedness: each check refuses an ill-formed term -/

/-- K1 to K6 of 95_test_vectors.md 2.6, and the conditions of R112 they leave out. -/
theorem test_wellFormed_config :
    Config.d22.firstFailure = none ∧
      { Config.d22 with t0h := 6, t1h := 6 }.firstFailure = some .t0hBelowT1h ∧
      { Config.d22 with t1h := 10 }.firstFailure = some .t1hBelowTbit ∧
      { Config.d22 with t0h := 0 }.firstFailure = some .t0hPositive ∧
      { Config.d22 with resetUs := 1 }.firstFailure = some .resetLongerThanBit ∧
      { Config.d22 with latchCyc := 399 }.firstFailure = some .latchCoversReset ∧
      { Config.d22 with pack4Pos := ⟨8, 6, 0⟩ }.firstFailure = some .nibblesDisjoint ∧
      { Config.d22 with pack4Pos := ⟨13, 4, 0⟩ }.firstFailure = some .nibblesInWord ∧
      { Config.d22 with resetUs := 0 }.firstFailure = some .resetUsPositive ∧
      { Config.d22 with fcpu := 0 }.firstFailure = some .fcpuPositive ∧
      { Config.d22 with defaultPin := 8 }.firstFailure = some .defaultPinInPort := by
  decide

/-- K7: `P_LATCH_CYC = 500` is well-formed, and S1 then ends at 740. -/
theorem test_wellFormed_longLatch :
    { Config.d22 with latchCyc := 500 }.WellFormed ∧ { Config.d22 with latchCyc := 500 }.endCycle 3 = 740 := by decide

/-- R84, R87: a mask without exactly one bit and a stream that is too long are refused; their neighbours are not. -/
theorem test_wellFormed_instr :
    (Instr.transmitRgbPin 0 0 0x00#8).maskOk = false ∧ (Instr.transmitRawPin 0 0 0x03#8).maskOk = false ∧
      (Instr.transmitRgbPin 0 0 0x80#8).maskOk = true ∧ (Instr.transmitRgb 0 0 0x00#8).maskOk = true ∧
      (Instr.transmitRgb 0 21846 0).lengthOk = false ∧ (Instr.transmitRgb 0 21845 0).lengthOk = true ∧
      (Instr.transmitRgbw 0 16384 0).lengthOk = false ∧ (Instr.transmitRgbw 0 16383 0).lengthOk = true ∧
      (Instr.transmit4bpp 0 21846 0).lengthOk = false ∧ (Instr.transmitRaw 0 65535 0).lengthOk = true := by
  decide

/-! ### Operands: B1 to B10 and V2 to V4 of 95_test_vectors.md -/

theorem test_bytes_b1_b2 :
    bytesOf ⟨8, 4, 0⟩ (.rgb ⟨0xFF#8, 0x00#8, 0x80#8⟩) = [0x00#8, 0xFF#8, 0x80#8] ∧
      bytesOf ⟨8, 4, 0⟩ (.rgb ⟨0x01#8, 0x02#8, 0x03#8⟩) = [0x02#8, 0x01#8, 0x03#8] := by decide

theorem test_bytes_b3 : bytesOf ⟨8, 4, 0⟩ (.rgbw ⟨0x11#8, 0x22#8, 0x33#8, 0x44#8⟩) = [0x22#8, 0x11#8, 0x33#8, 0x44#8] := by decide

theorem test_bytes_b4_to_b9 :
    bytesOf ⟨8, 4, 0⟩ (.pack4 0x0F80#16) = [0x0F#8, 0x08#8, 0x00#8] ∧ bytesOf ⟨8, 4, 0⟩ (.pack4 0x0123#16) = [0x01#8, 0x02#8, 0x03#8] ∧
      bytesOf ⟨8, 4, 0⟩ (.pack4 0x1234#16) = [0x02#8, 0x03#8, 0x04#8] ∧ bytesOf ⟨8, 4, 0⟩ (.pack4 0xF000#16) = [0x00#8, 0x00#8, 0x00#8] ∧
      bytesOf ⟨8, 4, 0⟩ (.pack4 0xFFFF#16) = [0x0F#8, 0x0F#8, 0x0F#8] ∧ bytesOf ⟨8, 4, 0⟩ (.pack4 0x000F#16) = [0x00#8, 0x00#8, 0x0F#8] := by
  decide

theorem test_bytes_b10 : bytesOf ⟨8, 4, 0⟩ (.raw 0xA5#8) = [0xA5#8] := by decide

/-- V2, on two records of the demo state. -/
theorem test_stream_v2 : demo.streamOf .rgb 1 2 = [0x00#8, 0xFF#8, 0x80#8, 5#8, 4#8, 6#8] := by decide

/-- R43: a packed word at 200, bytes 0x34 then 0x12, in the two orders, and the RGB record at 303. -/
theorem test_memory_layouts :
    demo.readRecord .pack4 200 0 = some (.pack4 0x1234#16) ∧
      { demo with cfg := { Config.d22 with wordOrder := .big } }.readRecord .pack4 200 0 = some (.pack4 0x3412#16) ∧
      demo.readRecord .rgb 300 1 = some (.rgb ⟨7#8, 8#8, 9#8⟩) ∧ demo.readRecord .raw 100 1 = some (.raw 0xA5#8) := by
  decide

/-- R38: `ReadRecord(SRC, k)` is `SRC[k]`, and nothing past the extent. -/
theorem test_read_record :
    demo.readRecord .rgb 1 0 = some (.rgb ⟨0xFF#8, 0x00#8, 0x80#8⟩) ∧ demo.readRecord .rgb 1 1 = some (.rgb ⟨4#8, 5#8, 6#8⟩) ∧
      demo.readRecord .rgb 1 2 = none ∧ demo.readRecord .raw 3 1 = some (.raw 0xFF#8) := by decide

/-- V4: nibbles 0xF, 0x8 and 0x1 come back from the packed word. -/
theorem test_pack_v4 : unpack ⟨8, 4, 0⟩ (pack ⟨8, 4, 0⟩ 0xF#4 0x8#4 0x1#4) = (0x0F#8, 0x08#8, 0x01#8) := by decide

/-! ### Acceptance: A1 to A20 of 95_test_vectors.md -/

theorem test_accept_a1_a2 :
    verdict ⟨0x01#8, 1, 1, 0xAA#8⟩ demo = some (.none, 0x02#8) ∧
      verdict ⟨0x01#8, 1, 1, 0⟩ sending = some (.refused (.commandWhileBusy 0x01#8), 0x02#8) := by decide

theorem test_accept_a3_a4_a5 :
    verdict ⟨0x0A#8, 1, 1, 0⟩ demo = some (.refused (.reservedCommand 0x0A#8), 0) ∧
      verdict ⟨0x04#8, 0, 0, 0⟩ demo = some (.refused (.reservedCommand 0x04#8), 0) ∧
      verdict ⟨0x10#8, 0, 0, 0⟩ demo = some (.refused (.reservedCommand 0x10#8), 0) := by decide

theorem test_accept_a6_a7_a8_a9 :
    verdict ⟨0x09#8, 1, 1, 0x00#8⟩ demo = some (.fault (.invalidMask 0x00#8), 0) ∧
      verdict ⟨0x08#8, 3, 1, 0x03#8⟩ demo = some (.fault (.invalidMask 0x03#8), 0) ∧
      verdict ⟨0x09#8, 1, 1, 0x80#8⟩ demo = some (.none, 0x80#8) ∧
      verdict ⟨0x01#8, 1, 1, 0x00#8⟩ demo = some (.none, 0x02#8) := by decide

theorem test_accept_a10_a16_a17_a18 :
    verdict ⟨0x09#8, 1, 30000, 0x00#8⟩ demo = some (.fault (.invalidMask 0x00#8), 0) ∧
      verdict ⟨0x01#8, 1, 30000, 0⟩ demo = some (.refused (.countTooLarge 30000), 0) ∧
      verdict ⟨0x01#8, 1, 3, 0⟩ demo = some (.fault (.countExceedsExtent 3 2), 0) ∧
      verdict ⟨0x01#8, 1, 1, 0⟩ demo = some (.none, 0x02#8) := by decide

theorem test_accept_a11_a12 :
    verdict ⟨0x01#8, 300, 21845, 0⟩ demo = some (.none, 0x02#8) ∧
      verdict ⟨0x01#8, 300, 21846, 0⟩ demo = some (.refused (.countTooLarge 21846), 0) := by decide

theorem test_accept_a13_a14 :
    verdict ⟨0x02#8, 400, 16383, 0⟩ demo = some (.none, 0x02#8) ∧
      verdict ⟨0x02#8, 400, 16384, 0⟩ demo = some (.refused (.countTooLarge 16384), 0) := by decide

theorem test_accept_a15_a19_a20 :
    verdict ⟨0x00#8, 100, 65535, 0⟩ demo = some (.none, 0x02#8) ∧ verdict ⟨0x03#8, 77, 0, 0⟩ demo = some (.none, 0x02#8) ∧
      verdict ⟨0x03#8, 200, 21846, 0⟩ demo = some (.refused (.countTooLarge 21846), 0) := by decide

/-- P1: what `transmit_rgb(R, 1)` latches. -/
theorem test_latch_p1 :
    (match exec (.transmitRgb 1 1 0) demo with
      | .next t => some (t.cmd, t.count, t.stream, t.phase)
      | _ => none) = some (0x01#8, 1#16, [0x00#8, 0xFF#8, 0x80#8], .sending) := by decide

/-- P2: what `transmit_4bpp(Q, 2)` latches. -/
theorem test_latch_p2 :
    (match exec (.transmit4bpp 4 2 0) demo with
      | .next t => some (t.cmd, t.stream)
      | _ => none) = some (0x03#8, [0x0F#8, 0x08#8, 0x00#8, 0x01#8, 0x02#8, 0x03#8]) := by decide

/-- R99, example. -/
theorem test_latch_rgbw :
    (match exec (.transmitRgbw 2 1 0) demo with
      | .next t => some (t.cmd, t.stream)
      | _ => none) = some (0x02#8, [0x22#8, 0x11#8, 0x33#8, 0x44#8]) := by decide

/-- R98, R100, R101: the streams of the raw commands and of the RGB command with a pin. -/
theorem test_latch_raw :
    (match exec (.transmitRaw 3 3 0) demo with
      | .next t => some (t.cmd, t.stream, t.emask)
      | _ => none) = some (0x00#8, [0x00#8, 0xFF#8, 0x80#8], 0x02#8) := by decide

theorem test_latch_raw_pin :
    (match exec (.transmitRawPin 3 2 0x01#8) demo with
      | .next t => some (t.cmd, t.stream, t.emask)
      | _ => none) = some (0x08#8, [0x00#8, 0xFF#8], 0x01#8) := by decide

theorem test_latch_rgb_pin :
    (match exec (.transmitRgbPin 1 1 0x40#8) demo with
      | .next t => some (t.cmd, t.stream, t.emask)
      | _ => none) = some (0x09#8, [0x00#8, 0xFF#8, 0x80#8], 0x40#8) := by decide

/-! ### The pulse encoder: E1 to E10 -/

/-- The high durations of a byte's cells, then the low ones. -/
def highs (b : Byte) : List Nat := ((byteWave Config.d22 b).filter Prod.fst).map Prod.snd
def lows (b : Byte) : List Nat := ((byteWave Config.d22 b).filter (!·.1)).map Prod.snd

theorem test_wave_e1_to_e4 :
    highs 0x00#8 = [3, 3, 3, 3, 3, 3, 3, 3] ∧ highs 0xFF#8 = [6, 6, 6, 6, 6, 6, 6, 6] ∧ highs 0x80#8 = [6, 3, 3, 3, 3, 3, 3, 3] ∧
      highs 0x01#8 = [3, 3, 3, 3, 3, 3, 3, 6] ∧ lows 0x80#8 = [4, 7, 7, 7, 7, 7, 7, 7] := by decide

theorem test_wave_e5_to_e7 :
    highs 0xA5#8 = [6, 3, 6, 3, 3, 6, 3, 6] ∧ highs 0x0F#8 = [3, 3, 3, 3, 6, 6, 6, 6] ∧ highs 0x55#8 = [3, 6, 3, 6, 3, 6, 3, 6] ∧
      lows 0xA5#8 = [4, 7, 4, 7, 7, 4, 7, 4] ∧ (byteWave Config.d22 0xA5#8).highTime = 36 ∧
      (byteWave Config.d22 0xA5#8).duration = 80 := by decide

theorem test_level_e8 :
    [0, 5, 6, 9, 10, 12, 13, 79].map (byteLevel Config.d22 0x80#8) = [true, true, false, false, true, true, false, false] := by decide

/-- E9: `PORT = 0xA0`, `EMASK = 0x02`, no other writer: the rising edge leaves the other bits and drives the line high, whatever the free
value is. -/
theorem test_port_e9 :
    ({ demo with port := 0xA0#8, emask := 0x02#8, held1 := 0xA0#8, held0 := 0x5F#8 }.portRmw true).port = 0xA2#8 ∧
      ({ demo with port := 0xA2#8, emask := 0x02#8, held1 := 0xA2#8, held0 := 0x5F#8 }.portRmw false).port = 0xA0#8 := by
  constructor <;> simp only [State.portRmw_port, State.racedPort] <;> generalize Config.raceRead _ = r <;> revert r <;> decide

/-- E9, raced: `PORT[7]` held 1, then another agent cleared it; the core's write leaves the free value's bit 7. -/
theorem test_port_e9_race (b : Bool) (h : (Config.raceRead demo.draws).getLsbD 7 = b) :
    ({ demo with port := 0x22#8, emask := 0x02#8, held1 := 0xA2#8, held0 := 0xDD#8 }.portRmw false).port.getLsbD 7 = b := by
  simp only [State.portRmw_port, State.racedPort]
  revert h
  show (Config.raceRead demo.draws).getLsbD 7 = b → _
  generalize Config.raceRead _ = r
  revert r b
  decide

/-- E10: the shift register of `0xA5`. -/
theorem test_shift_e10 :
    { sending with stream := [0xA5#8], shift := 0x77#8 }.nextShift 0 0 = 0xA5#8 ∧
      [0xA5#8, 0x4A#8, 0x94#8, 0x28#8, 0x50#8, 0xA0#8, 0x40#8].map (fun v => { sending with shift := v }.nextShift 0 1) =
        [0x4A#8, 0x94#8, 0x28#8, 0x50#8, 0xA0#8, 0x40#8, 0x80#8] ∧
      { sending with shift := 0x80#8 }.beginLatch.shift = 0x00#8 := by decide

/-! ### The schedule: S1 to S5 and the conversion of R11 -/

theorem test_schedule_s1_to_s5 :
    (Config.d22.latchStartCycle 3, Config.d22.endCycle 3) = (240, 640) ∧
      ({ Config.d22 with startLat := 5 }.latchStartCycle 3, { Config.d22 with startLat := 5 }.endCycle 3) = (245, 645) ∧
      (Config.d22.latchStartCycle 0, Config.d22.endCycle 0) = (0, 400) ∧ (Config.d22.latchStartCycle 6, Config.d22.endCycle 6) = (480, 880) ∧
      (Config.d22.latchStartCycle 1, Config.d22.endCycle 1) = (80, 480) := by decide

/-- P1: cells 8 to 15 rise at 80 to 150 and fall six cycles later; cell 16 falls at 166, cell 23 at 233. -/
theorem test_level_p1 :
    [79, 80, 85, 86, 160, 165, 166, 169, 170, 230, 232, 233, 239, 240, 639].map
        (scheduleLevel Config.d22 [0x00#8, 0xFF#8, 0x80#8] false) =
      [false, true, true, false, true, true, false, false, true, true, true, false, false, false, false] := by decide

/-- V1: the high durations of P1 read back as its stream; the last low and the latch end the frame. -/
theorem test_decode_v1 :
    decodeWave Config.d22
        (([3, 3, 3, 3, 3, 3, 3, 3, 6, 6, 6, 6, 6, 6, 6, 6, 6, 3, 3, 3, 3, 3, 3].flatMap fun h => [(true, h), (false, 10 - h)]) ++
          [(true, 3), (false, 407)]) = some [0x00#8, 0xFF#8, 0x80#8] := by decide

/-- R106: a high pulse of any other length makes the frame undecodable. -/
theorem test_decode_bad : decodeWave Config.d22 [(true, 4), (false, 406)] = none := by decide

theorem test_resetCyc :
    { Config.d22 with resetUs := 50, fcpu := 8000000 }.resetCyc = 400 ∧ { Config.d22 with resetUs := 50, fcpu := 16000000 }.resetCyc = 800 ∧
      { Config.d22 with resetUs := 280, fcpu := 8000000 }.resetCyc = 2240 ∧
      { Config.d22 with resetUs := 300, fcpu := 20000000 }.resetCyc = 6000 ∧
      { Config.d22 with resetUs := 55, fcpu := 9830400 }.resetCyc = 541 := by decide

/-- R138: one RGB LED takes 240 cycles, which is 30 microseconds. -/
theorem test_seconds : Config.d22.seconds (24 * Config.d22.tbit) = 30 / 1000000 := by norm_num [Config.seconds, Config.d22]

/-! ### One step -/

/-- P1, cycle 100: cell 10 begins, bit 5 of `0xFF`. -/
theorem test_step_cell :
    (match step sending with
      | .next t => some (t.byteIdx, t.bitIdx, t.shift, t.sub, t.cyc, t.clk)
      | _ => none) = some (1, 2, 0xFC#8, .hi, 0, 101) := by decide

/-- P1, cycle 640: BUSY falls. -/
theorem test_step_end : seen (step lastLatch) = some (.idle, .none) := by decide

/-- S3: with nothing to send, LATCHING begins on cycle 0. -/
theorem test_step_zero : seen (step (demoWith { command := some ⟨0x02#8, 0, 0, 0⟩ })) = some (.latching, .none) := by decide

/-- F1, F3 and F7: a stall before LATCHING, before a write to the pin on the same cycle. -/
theorem test_step_f1_f3_f7 :
    seen (step (sendingWith { stall := true })) = some (.sending, .fault (.preempted 100)) ∧
      seen (step { demoWith { command := some ⟨0x01#8, 1, 1, 0⟩, stall := true } with cfg := { Config.d22 with startLat := 5 } }) =
        some (.sending, .fault (.preempted 0)) ∧
      seen (step (sendingWith { stall := true, writes := [.port 0 0x02#8 0x00#8] })) = some (.sending, .fault (.preempted 100)) := by decide

/-- F2: a stall in LATCHING on cycle 300 does not advance it. -/
theorem test_step_f2 :
    (match step (latchingWith { stall := true }) with
      | .next t => some (t.phase, t.fault, t.latchCnt, t.clk)
      | _ => none) = some (.latching, .none, 59, 301) := by decide

/-- F4, and a write to a record that is not sent. -/
theorem test_step_f4 :
    seen (step (sendingWith { writes := [.element 1 0 (.rgb ⟨0#8, 0#8, 0#8⟩)] })) = some (.sending, .fault (.sourceModified 0 100)) ∧
      seen (step (sendingWith { writes := [.element 1 1 (.rgb ⟨0#8, 0#8, 0#8⟩)] })) = some (.sending, .none) := by decide

/-- F5 and F6: a write to the pin on cycle 300 and on cycle 640. -/
theorem test_step_f5_f6 :
    seen (step (latchingWith { writes := [.port 0 0x02#8 0x00#8] })) = some (.latching, .fault (.pinConflict 300)) ∧
      seen (step (lastLatchWith { writes := [.port 0 0x02#8 0x00#8] })) = some (.idle, .none) := by decide

/-- P4: a second command at cycle 100 is refused; at cycle 640, on which BUSY falls, it is taken. -/
theorem test_step_p4 :
    seen (step (sendingWith { command := some ⟨0x00#8, 3, 4, 0⟩ })) = some (.sending, .refused (.commandWhileBusy 0x00#8)) ∧
      seen (step (lastLatchWith { command := some ⟨0x00#8, 3, 4, 0⟩ })) = some (.idle, .fault (.countExceedsExtent 4 3)) := by decide

/-- R124, R50: in IDLE the host's write to the port takes place; in LATCHING another agent's write to bit 7 stays, whatever the free value. -/
theorem test_step_port_writes :
    (match step (demoWith { writes := [.port 0 0x0F#8 0xFF#8] }) with
      | .next t => some t.port
      | _ => none) = some 0x0F#8 ∧
      (match step { latchingWith { writes := [.port 0 0x80#8 0x80#8] } with port := 0x01#8 } with
      | .next t => some t.port
      | _ => none) = some 0x81#8 := by decide

/-- R34, R36, R43: a record, a whole source and a byte of memory written between commands. -/
theorem test_world_writes :
    (demo.worldWrite (.element 1 1 (.rgb ⟨7#8, 8#8, 9#8⟩))).readRecord .rgb 1 1 = some (.rgb ⟨7#8, 8#8, 9#8⟩) ∧
      (demo.worldWrite (.place 9 (.raw [1#8]))).extent .raw 9 = 1 ∧ (demo.worldWrite (.drop 3)).extent .raw 3 = 0 ∧
      (demo.worldWrite (.byte 101 0x5A#8)).readRecord .raw 100 1 = some (.raw 0x5A#8) := by decide

/-- K5 as a machine: a configuration that fails R112 takes no step. -/
theorem test_step_config :
    (match step { demo with cfg := { Config.d22 with latchCyc := 399 } } with
      | .refused r => some r
      | _ => none) = some (.configInvalid .latchCoversReset) := by decide

/-- The table words run as the first instruction after reset: the four without a pin are accepted with a count of 0, and the two pin
commands, whose mask is then `0x00`, fault as A6 does. -/
theorem test_reset_words :
    seen (step (State.reset.withFetchWord 8 0x00)) = some (.latching, .none) ∧
      seen (step (State.reset.withFetchWord 8 0x01)) = some (.latching, .none) ∧
      seen (step (State.reset.withFetchWord 8 0x02)) = some (.latching, .none) ∧
      seen (step (State.reset.withFetchWord 8 0x03)) = some (.latching, .none) ∧
      seen (step (State.reset.withFetchWord 8 0x08)) = some (.idle, .fault (.invalidMask 0x00#8)) ∧
      seen (step (State.reset.withFetchWord 8 0x09)) = some (.idle, .fault (.invalidMask 0x00#8)) := by decide

/-! ### Witnesses: a concrete state and operands for the hypotheses of each obligation, and one for each of its clauses -/

/-- The hypothesis of PackedRoundTrip, BitDurations, ByteDurationAndHighTime and DecodeReadsAnyFrameBack. -/
theorem witness_wellFormed : Config.d22.WellFormed := by decide

theorem witness_OpcodeMapDecodes :
    0x04#8 ∉ [0x00#8, 0x01#8, 0x02#8, 0x03#8, 0x08#8, 0x09#8] ∧ 0x07#8 ∉ [0x00#8, 0x01#8, 0x02#8, 0x03#8, 0x08#8, 0x09#8] ∧
      0x0A#8 ∉ [0x00#8, 0x01#8, 0x02#8, 0x03#8, 0x08#8, 0x09#8] ∧ 0xFF#8 ∉ [0x00#8, 0x01#8, 0x02#8, 0x03#8, 0x08#8, 0x09#8] := by decide

theorem witness_DecodeAndEncodeAgree : decode ⟨0x09#8, 1, 65535, 0xFF#8⟩ = .ok (.transmitRgbPin 1 65535 0xFF#8) := rfl

theorem witness_StepRunsTheDecodedCommand :
    (demoWith { command := some ⟨0x01#8, 1, 2, 0⟩ }).fault = .none ∧ (demoWith { command := some ⟨0x01#8, 1, 2, 0⟩ }).cfg.WellFormed ∧
      (demoWith { command := some ⟨0x01#8, 1, 2, 0⟩ }).inbox = [.cycle { command := some ⟨0x01#8, 1, 2, 0⟩ }] ∧
      decode ⟨0x01#8, 1, 2, 0⟩ = .ok (.transmitRgb 1 2 0) :=
  ⟨by decide, by decide, rfl, rfl⟩

theorem witness_StepCompletesUnlessFaulted : sending.fault = .none ∧ sending.cfg.WellFormed := by decide

theorem witness_ReservedCommandChangesNothing :
    (demoWith { command := some ⟨0x0B#8, 1, 2, 0⟩ }).fault = .none ∧ (demoWith { command := some ⟨0x0B#8, 1, 2, 0⟩ }).cfg.WellFormed ∧
      (demoWith { command := some ⟨0x0B#8, 1, 2, 0⟩ }).phase = .idle ∧
      (demoWith { command := some ⟨0x0B#8, 1, 2, 0⟩ }).inbox = [.cycle { command := some ⟨0x0B#8, 1, 2, 0⟩ }] ∧
      0x0B#8 ∉ [0x00#8, 0x01#8, 0x02#8, 0x03#8, 0x08#8, 0x09#8] := by decide

theorem witness_BusyRefusesEveryCommand :
    (latchingWith { command := some ⟨0x01#8, 1, 2, 0⟩ }).fault = .none ∧ (latchingWith { command := some ⟨0x01#8, 1, 2, 0⟩ }).cfg.WellFormed ∧
      (latchingWith { command := some ⟨0x01#8, 1, 2, 0⟩ }).inbox = [.cycle { command := some ⟨0x01#8, 1, 2, 0⟩ }] ∧
      (latchingWith { command := some ⟨0x01#8, 1, 2, 0⟩ }).nextPhase ≠ .idle := by decide

/-- One command for each clause of R84, at the boundary of each check. -/
theorem witness_AcceptanceChecksInOrder :
    (sending.fault = .none ∧ sending.busy = true) ∧ (demo.fault = .none ∧ demo.busy = false) ∧
      (∃ e, decode ⟨0x0A#8, 0, 0, 0⟩ = .error e) ∧ decode ⟨0x09#8, 1, 2, 0x03#8⟩ = .ok (.transmitRgbPin 1 2 0x03#8) ∧
      popcount 0x03#8 ≠ 1 ∧ popcount demo.cfg.defaultMask = 1 ∧ 65535 < bpe .rgb * (21846#16).toNat ∧ bpe .rgb * (21845#16).toNat ≤ 65535 ∧
      demo.extent .rgb 1 < (3#16).toNat ∧ (2#16).toNat ≤ demo.extent .rgb 1 :=
  ⟨by decide, by decide, ⟨_, rfl⟩, rfl, by decide, by decide, by decide, by decide, by decide, by decide⟩

/-- Also the hypotheses of DefaultPinDrivesTheSame. -/
theorem witness_idle : demo.fault = .none ∧ demo.phase = .idle ∧ demo.cfg.WellFormed := by decide

/-- The largest count each command may have (A11, A13, A15). -/
theorem witness_TransmitRgbIsAccepted :
    demo.fault = .none ∧ demo.phase = .idle ∧ demo.cfg.WellFormed ∧ (21845#16).toNat ≤ 21845 ∧ (21845#16).toNat ≤ demo.extent .rgb 300 := by decide
theorem witness_TransmitRgbPinIsAccepted :
    demo.fault = .none ∧ demo.phase = .idle ∧ demo.cfg.WellFormed ∧ popcount 0x80#8 = 1 ∧ (21845#16).toNat ≤ 21845 ∧
      (21845#16).toNat ≤ demo.extent .rgb 300 := by decide
theorem witness_TransmitRgbwIsAccepted :
    demo.fault = .none ∧ demo.phase = .idle ∧ demo.cfg.WellFormed ∧ (16383#16).toNat ≤ 16383 ∧ (16383#16).toNat ≤ demo.extent .rgbw 400 := by decide
theorem witness_TransmitRawIsAccepted :
    demo.fault = .none ∧ demo.phase = .idle ∧ demo.cfg.WellFormed ∧ (65535#16).toNat ≤ demo.extent .raw 100 := by decide
theorem witness_TransmitRawPinIsAccepted :
    demo.fault = .none ∧ demo.phase = .idle ∧ demo.cfg.WellFormed ∧ popcount 0x01#8 = 1 ∧ (65535#16).toNat ≤ demo.extent .raw 100 := by decide
theorem witness_Transmit4bppIsAccepted :
    demo.fault = .none ∧ demo.phase = .idle ∧ demo.cfg.WellFormed ∧ (21845#16).toNat ≤ 21845 ∧ (21845#16).toNat ≤ demo.extent .pack4 200 := by decide

theorem witness_InvalidMaskFaultsPinCommands :
    (demo.fault = .none ∧ demo.phase = .idle ∧ demo.cfg.WellFormed) ∧ (popcount 0x00#8 ≠ 1 ∧ popcount 0x03#8 ≠ 1 ∧ popcount 0xFF#8 ≠ 1) ∧
      (Instr.transmitRgb 1 2 0x00#8).pinSel = false ∧ ∃ t, exec (.transmitRgb 1 2 0x00#8) demo = .next t :=
  ⟨by decide, by decide, by decide, _, rfl⟩

theorem witness_CountThresholdsRefuse :
    (demo.fault = .none ∧ demo.phase = .idle ∧ demo.cfg.WellFormed) ∧ popcount (demo.maskOf (.transmitRgb 1 21846 0)) = 1 ∧
      popcount (demo.maskOf (.transmitRawPin 3 65535 0x01#8)) = 1 := by decide

theorem witness_CountBeyondExtentFaults :
    demo.fault = .none ∧ demo.phase = .idle ∧ popcount (demo.maskOf (.transmitRgb 1 3 0)) = 1 ∧ streamLength .rgb 3 ≤ 65535 ∧ demo.extent .rgb 1 < (3#16).toNat ∧
      lookupKey 77 demo.sources = none ∧ lookupKey 3 demo.sources = some (.raw [0x00#8, 0xFF#8, 0x80#8]) ∧
      (Source.raw [0x00#8, 0xFF#8, 0x80#8]).kind ≠ .rgb ∧ (Source.raw [0x00#8, 0xFF#8, 0x80#8]).kind = .raw := by decide

theorem witness_StoppedCommandChangesOnlyFault :
    ∃ t, present ⟨0x01#8, 1, 3, 0⟩ demo = .next t ∧ t.fault ≠ .none :=
  ⟨{ demo with fault := .fault (.countExceedsExtent 3 2) }, rfl, by decide⟩

theorem witness_RecordedFaultStopsTheMachine :
    (sending.raise (.preempted 100)).fault = .fault (.preempted 100) ∧
      (demo.refuse (.countTooLarge 21846)).fault = .refused (.countTooLarge 21846) := by decide

theorem witness_StreamFollowsTheRecords : (2#16).toNat ≤ demo.extent .rgb 1 ∧ 1 < (2#16).toNat := by decide

/-- A source of each kind, one of another kind than asked, none, the element past the last and the last. -/
theorem witness_ReadRecordWithinExtent :
    lookupKey 3 demo.sources = some (.raw [0x00#8, 0xFF#8, 0x80#8]) ∧
      lookupKey 1 demo.sources = some (.rgb [⟨0xFF#8, 0x00#8, 0x80#8⟩, ⟨4#8, 5#8, 6#8⟩]) ∧
      lookupKey 2 demo.sources = some (.rgbw [⟨0x11#8, 0x22#8, 0x33#8, 0x44#8⟩]) ∧
      lookupKey 4 demo.sources = some (.pack4 [0x0F80#16, 0x0123#16]) ∧ (Source.pack4 [0x0F80#16, 0x0123#16]).kind ≠ .raw ∧
      lookupKey 77 demo.sources = none ∧ demo.extent .rgb 1 ≤ 2 ∧ 1 < demo.extent .rgb 1 := by decide

theorem witness_ByteViewLayout :
    1 < 30000 ∧ lookupKey 100 demo.sources = some (.mem .raw 65535) ∧ lookupKey 200 demo.sources = some (.mem .pack4 30000) ∧
      lookupKey 300 demo.sources = some (.mem .rgb 30000) ∧ lookupKey 400 demo.sources = some (.mem .rgbw 30000) ∧
      demo.cfg.wordOrder = .little ∧ { demo with cfg := { Config.d22 with wordOrder := .big } }.cfg.wordOrder = .big := by decide

theorem witness_ByteLevelInClosedForm : Config.d22.WellFormed ∧ 79 < 8 * Config.d22.tbit := by decide

/-- `demo` accepts each command on its own records. -/
theorem witness_accepts_rgb : Accepts demo (.transmitRgb 1 1 0) := ⟨by decide, by decide, by decide, by decide, by decide⟩
theorem witness_accepts_rgb_pin : Accepts demo (.transmitRgbPin 1 2 0x80#8) := ⟨by decide, by decide, by decide, by decide, by decide⟩
theorem witness_accepts_rgbw : Accepts demo (.transmitRgbw 2 1 0) := ⟨by decide, by decide, by decide, by decide, by decide⟩
theorem witness_accepts_raw : Accepts demo (.transmitRaw 3 3 0) := ⟨by decide, by decide, by decide, by decide, by decide⟩
theorem witness_accepts_raw_pin : Accepts demo (.transmitRawPin 3 3 0x01#8) := ⟨by decide, by decide, by decide, by decide, by decide⟩
theorem witness_accepts_4bpp : Accepts demo (.transmit4bpp 4 2 0) := ⟨by decide, by decide, by decide, by decide, by decide⟩
theorem witness_accepts_none : Accepts demo (.transmitRgbw 2 0 0) := ⟨by decide, by decide, by decide, by decide, by decide⟩

/-- Also the hypotheses of LineCarriesTheFrame and LineDecodesToTheStream; the schedule of `transmit_rgb` of one record has its edges at
cycles 0, 240 and 640. -/
theorem witness_EveryCycleFollowsTheSchedule :
    demo.cfg.WellFormed ∧ Accepts demo (.transmitRgb 1 1 0) ∧
      demo.cfg.latchStartCycle (demo.streamFor (.transmitRgb 1 1 0)).length = 240 ∧
      demo.cfg.endCycle (demo.streamFor (.transmitRgb 1 1 0)).length = 640 :=
  ⟨by decide, witness_accepts_rgb, by decide, by decide⟩

/-- The first and the last cycle of LATCHING; and a cycle of LATCHING in which another agent writes an unselected bit. -/
theorem witness_LatchHoldsTheLineLow :
    demo.cfg.WellFormed ∧ Accepts demo (.transmitRgb 1 1 0) ∧
      (demo.cfg.latchStartCycle (demo.streamFor (.transmitRgb 1 1 0)).length ≤ 240 ∧
        240 < demo.cfg.endCycle (demo.streamFor (.transmitRgb 1 1 0)).length) ∧
      639 < demo.cfg.endCycle (demo.streamFor (.transmitRgb 1 1 0)).length ∧
      ((latchingWith { writes := [.port 0 0x80#8 0x80#8] }).phase = .latching ∧
        (latchingWith { writes := [.port 0 0x80#8 0x80#8] }).nextPhase = .latching ∧
        (latchingWith { writes := [.port 0 0x80#8 0x80#8] }).event = .cycle { writes := [.port 0 0x80#8 0x80#8] }) ∧
      ∃ t, step (latchingWith { writes := [.port 0 0x80#8 0x80#8] }) = .next t ∧ t.fault = .none :=
  ⟨by decide, witness_accepts_rgb, by decide, by decide, by decide, _, rfl, by decide⟩

theorem witness_BusyForExactlyTheCommandsTime :
    demo.cfg.WellFormed ∧ Accepts demo (.transmitRgb 1 1 0) ∧
      640 ≤ demo.cfg.startLat + 8 * (bpe .rgb * (1#16).toNat) * demo.cfg.tbit + demo.cfg.latchCyc :=
  ⟨by decide, witness_accepts_rgb, by decide⟩

theorem witness_ZeroCountOnlyLatches :
    demo.cfg.WellFormed ∧ Accepts demo (.transmitRgbw 2 0 0) ∧ (Instr.transmitRgbw 2 0 0).count = 0 ∧
      400 ≤ demo.cfg.startLat + demo.cfg.latchCyc :=
  ⟨by decide, witness_accepts_none, by decide, by decide⟩

theorem witness_RawDrivesWhatRgbDrives :
    (demo.fault = .none ∧ demo.phase = .idle ∧ demo.cfg.WellFormed) ∧ (1#16).toNat ≤ 21845 ∧ (1#16).toNat ≤ demo.extent .rgb 1 ∧ 3 * (1#16).toNat ≤ demo.extent .raw 3 ∧
      ∀ k, k < (1#16).toNat → ∃ p, demo.readRecord .rgb 1 k = some (.rgb p) ∧ demo.readRecord .raw 3 (3 * k) = some (.raw p.g) ∧
        demo.readRecord .raw 3 (3 * k + 1) = some (.raw p.r) ∧ demo.readRecord .raw 3 (3 * k + 2) = some (.raw p.b) := by
  refine ⟨by decide, by decide, by decide, by decide, fun k hk => ?_⟩
  have h0 : k = 0 := by simpa using hk
  subst h0
  exact ⟨⟨0xFF#8, 0x00#8, 0x80#8⟩, by decide⟩

theorem witness_PackedDrivesWhatRawDrives :
    (demo.fault = .none ∧ demo.phase = .idle ∧ demo.cfg.WellFormed) ∧ (1#16).toNat ≤ 21845 ∧ (1#16).toNat ≤ demo.extent .pack4 4 ∧ 3 * (1#16).toNat ≤ demo.extent .raw 5 ∧
      ∀ k, k < 3 * (1#16).toNat →
        demo.readRecord .raw 5 k = some (.raw ((demo.streamFor (.transmit4bpp 4 1 0)).getD k 0x00#8)) := by decide

theorem witness_NextCommandOnTheEndCycle :
    demo.cfg.WellFormed ∧ Accepts demo (.transmitRgb 1 1 0) ∧ Accepts demo (.transmitRawPin 3 3 0x01#8) ∧
      640 ≤ demo.cfg.endCycle (demo.streamFor (.transmitRawPin 3 3 0x01#8)).length :=
  ⟨by decide, witness_accepts_rgb, witness_accepts_raw_pin, by decide⟩

/-- With records, before `TS = 240`; with none and no start latency `TS = 0`. -/
theorem witness_StallBeforeLatchingFaults :
    demo.cfg.WellFormed ∧ (Accepts demo (.transmitRgb 1 1 0) ∧ 0 < demo.cfg.latchStartCycle (demo.streamFor (.transmitRgb 1 1 0)).length ∧
        238 + 1 < demo.cfg.latchStartCycle (demo.streamFor (.transmitRgb 1 1 0)).length) ∧
      Accepts demo (.transmitRgbw 2 0 0) ∧ demo.cfg.latchStartCycle (demo.streamFor (.transmitRgbw 2 0 0)).length = 0 :=
  ⟨by decide, ⟨witness_accepts_rgb, by decide, by decide⟩, witness_accepts_none, by decide⟩

/-- The first and the last cycle of LATCHING. -/
theorem witness_StallInLatchingDelaysTheEnd :
    demo.cfg.WellFormed ∧ Accepts demo (.transmitRgb 1 1 0) ∧
      (demo.cfg.latchStartCycle (demo.streamFor (.transmitRgb 1 1 0)).length ≤ 239 + 1 ∧
        239 + 1 < demo.cfg.endCycle (demo.streamFor (.transmitRgb 1 1 0)).length) ∧
      638 + 1 < demo.cfg.endCycle (demo.streamFor (.transmitRgb 1 1 0)).length :=
  ⟨by decide, witness_accepts_rgb, by decide, by decide⟩

/-- A quiet stalled cycle in IDLE, and cycle `TE` with another agent's write to the pin. -/
theorem witness_IdleCycleChangesNothing :
    ((demoWith { stall := true }).fault = .none ∧ (demoWith { stall := true }).cfg.WellFormed ∧ (demoWith { stall := true }).phase = .idle ∧
      (demoWith { stall := true }).inbox = [.cycle { stall := true }]) ∧
      (lastLatchWith { writes := [.port 0 0x02#8 0x02#8] }).fault = .none ∧
      (lastLatchWith { writes := [.port 0 0x02#8 0x02#8] }).cfg.WellFormed ∧
      (lastLatchWith { writes := [.port 0 0x02#8 0x02#8] }).inbox = [.cycle { writes := [.port 0 0x02#8 0x02#8] }] ∧
      (lastLatchWith { writes := [.port 0 0x02#8 0x02#8] }).nextPhase = .idle := by decide

/-- A write to the pin on cycle 100, on stalled cycle 300, and on cycle 640. -/
theorem witness_SelectedPinWriteFaults :
    (∀ s ∈ [sendingWith { writes := [.port 0 0x02#8 0x00#8] }, lastLatchWith { writes := [.port 0 0x02#8 0x00#8] }],
        s.fault = .none ∧ s.cfg.WellFormed ∧ s.inbox = [.cycle { writes := [.port 0 0x02#8 0x00#8] }] ∧
          .port s.cfg.defaultPort 0x02#8 0x00#8 ∈ [WorldWrite.port 0 0x02#8 0x00#8] ∧ 0x02#8 &&& s.emask ≠ 0) ∧
      (sendingWith { writes := [.port 0 0x02#8 0x00#8] }).nextPhase ≠ .idle ∧
      (latchingWith { stall := true, writes := [.port 0 0x02#8 0x00#8] }).nextPhase ≠ .idle ∧
      (latchingWith { stall := true, writes := [.port 0 0x02#8 0x00#8] }).nextPhase ≠ .sending ∧
      (lastLatchWith { writes := [.port 0 0x02#8 0x00#8] }).nextPhase = .idle := by decide

/-- A write of each form, with `COUNT = 1`: to record 0, to record 1 and to another source; the source placed and dropped, and another; for a
source in memory of one RGB record at 300, the last byte of the record and the bytes on both sides of it; for a typed source, a byte. -/
theorem witness_SentElementWriteFaults :
    (∀ w ∈ [WorldWrite.element 1 0 (.raw 0), .element 1 1 (.raw 0), .element 2 0 (.raw 0), .place 1 (.raw []), .drop 1, .drop 2, .byte 1 0],
        (sendingWith { writes := [w] }).fault = .none ∧ (sendingWith { writes := [w] }).cfg.WellFormed ∧
          (sendingWith { writes := [w] }).inbox = [.cycle { writes := [w] }] ∧ (sendingWith { writes := [w] }).nextPhase ≠ .idle) ∧
      (1 = sending.src ∧ 0 < sending.count.toNat ∧ sending.count.toNat ≤ 1 ∧ 2 ≠ sending.src) ∧
      (∀ w ∈ [WorldWrite.byte 302 0, .byte 299 0, .byte 303 0],
        { sendingWith { writes := [w] } with src := 300 }.fault = .none ∧ { sendingWith { writes := [w] } with src := 300 }.cfg.WellFormed ∧
          { sendingWith { writes := [w] } with src := 300 }.inbox = [.cycle { writes := [w] }] ∧
          { sendingWith { writes := [w] } with src := 300 }.nextPhase ≠ .idle) ∧
      lookupKey 300 sending.sources = some (.mem .rgb 30000) ∧
      (0 < sending.count.toNat ∧ 2 < elementSize .rgb ∧ 302 = 300 + elementSize .rgb * 0 + 2) ∧ 299 < 300 ∧
      300 + elementSize .rgb * sending.count.toNat ≤ 303 ∧ ∀ f n, lookupKey sending.src sending.sources ≠ some (.mem f n) :=
  ⟨by decide, by decide, by decide, by decide, by decide, by decide, by decide, fun _ _ h => nomatch Option.some.inj h⟩

/-- Of one cycle's writes to record 0 and to the pin: with a stall, without it, without the write to the pin, and without any. -/
theorem witness_RunTimeConditionsInOrder :
    (∀ e ∈ [{ stall := true, writes := [.element 1 0 (.raw 0), .port 0 0x02#8 0] }, { writes := [.element 1 0 (.raw 0), .port 0 0x02#8 0] },
          { writes := [.port 0 0x80#8 0, .element 1 0 (.raw 0)] }, { writes := [.port 0 0x80#8 0] }],
        (sendingWith e).fault = .none ∧ (sendingWith e).cfg.WellFormed ∧ (sendingWith e).inbox = [.cycle e] ∧ e.command = none ∧
          (sendingWith e).nextPhase ≠ .idle) ∧
      sending.nextPhase = .sending ∧ sending.hitsPin (.port 0 0x02#8 0) = true ∧ sending.hitsPin (.port 0 0x80#8 0) = false ∧
      [WorldWrite.port 0 0x80#8 0, .element 1 0 (.raw 0)].findSome? sending.hitsElement = some 0 ∧
      [WorldWrite.port 0 0x80#8 0].findSome? sending.hitsElement = none := by decide

theorem witness_FaultOnlyWhenADutyIsBroken :
    ((sendingWith {}).fault = .none ∧ (sendingWith {}).cfg.WellFormed ∧ (sendingWith {}).inbox = [.cycle {}] ∧
        (sendingWith {}).nextPhase ≠ .idle) ∧
      DutiesKept (sendingWith {}) {} ∧ ∃ t, step (sendingWith {}) = .next t :=
  ⟨by decide, ⟨by decide, by decide, by decide⟩, _, rfl⟩

/-- The selected bit 1, the unselected bit 7, which has held 0 only, and bit 7 raced, which has held both; and two cycles of a running command in
which another agent writes bit 7: one with a port write of the core and one in LATCHING without. -/
theorem witness_PortWriteTakesHeldValues :
    (sending.emask.getLsbD 1 = true ∧ sending.emask.getLsbD 7 = false ∧ sending.held0.getLsbD 7 = true ∧ sending.held1.getLsbD 7 = false) ∧
      Unraced sending ∧ (sending.world [.port 0 0x80#8 0x80#8]).held1.getLsbD 7 = true ∧
      (sending.world [.port 0 0x80#8 0x80#8]).held0.getLsbD 7 = true ∧
      (∀ s ∈ [sendingWith { writes := [.port 0 0x80#8 0x80#8] }, latchingWith { writes := [.port 0 0x80#8 0x80#8] }],
        s.event = .cycle { writes := [.port 0 0x80#8 0x80#8] } ∧ s.nextPhase ≠ .idle ∧ s.port &&& ~~~ s.held1 = 0 ∧
          ~~~ s.port &&& ~~~ s.held0 = 0) ∧
      (∃ t, step (sendingWith { writes := [.port 0 0x80#8 0x80#8] }) = .next t ∧ t.fault = .none) ∧
      ∃ t, step (latchingWith { writes := [.port 0 0x80#8 0x80#8] }) = .next t ∧ t.fault = .none ∧ t.draws = latching.draws :=
  ⟨by decide, ⟨by decide, by decide⟩, by decide, by decide, by decide, ⟨_, rfl, by decide⟩, _, rfl, by decide, by decide⟩

/-- A source of each kind with an element of its own kind, memory and sources in canonical form, the core's port and another. -/
theorem witness_OutsideWritesLandAsGiven :
    lookupKey 3 demo.sources = some (.raw [0x00#8, 0xFF#8, 0x80#8]) ∧
      lookupKey 1 demo.sources = some (.rgb [⟨0xFF#8, 0x00#8, 0x80#8⟩, ⟨4#8, 5#8, 6#8⟩]) ∧
      lookupKey 2 demo.sources = some (.rgbw [⟨0x11#8, 0x22#8, 0x33#8, 0x44#8⟩]) ∧
      lookupKey 4 demo.sources = some (.pack4 [0x0F80#16, 0x0123#16]) ∧ KeysRise demo.sources ∧ Memory.wf demo.mem ∧
      0 = demo.cfg.defaultPort ∧ 1 ≠ demo.cfg.defaultPort := by decide

theorem witness_StepDrivesOnlyTheSelectedPin : sending.event = .cycle {} ∧ Unraced sending ∧ ∃ t, step sending = .next t :=
  ⟨by decide, ⟨by decide, by decide⟩, _, rfl⟩

theorem witness_RecordsAreNeverWritten :
    sending.event = .cycle {} ∧ (CycleInput.writes {}) = [] ∧ ∃ t, step sending = .next t :=
  ⟨by decide, rfl, _, rfl⟩

/-- With no command presented, and with one presented to a running command. -/
theorem witness_CommandRegistersAreHeld :
    (∃ t, step sending = .next t) ∧ sending.event = .cycle {} ∧ (∃ t, step (sendingWith { command := some ⟨0x01#8, 1, 1, 0⟩ }) = .next t) ∧
      (sendingWith { command := some ⟨0x01#8, 1, 1, 0⟩ }).nextPhase ≠ .idle :=
  ⟨⟨_, rfl⟩, by decide, ⟨_, rfl⟩, by decide⟩

theorem witness_LineLevelOnlyWhereDefined :
    (sending.raise (.pinConflict 100)).fault ≠ .none ∧ (sending.raise (.pinConflict 100)).busy = true ∧
      (demo.raise (.countExceedsExtent 3 2)).busy = false ∧ popcount lastLatch.emask = 1 := by decide

theorem witness_ResetEventReturnsToIdle :
    { sending with inbox := [.reset] }.fault = .none ∧ { sending with inbox := [.reset] }.cfg.WellFormed ∧
      { sending with inbox := [.reset] }.inbox = [.reset] := by decide

theorem witness_ConfigurationIsChecked :
    Config.d22.WellFormed ∧ ¬ { Config.d22 with defaultPin := 8 }.WellFormed ∧
      (State.resetWith { Config.d22 with defaultPin := 8 }).cfg = { Config.d22 with defaultPin := 8 } := by decide

theorem witness_ResetCyclesRoundUp : Config.d22.resetUs * Config.d22.fcpu ≤ 400 * 1000000 := by decide

/-- The invariant holds in the middle of a run. -/
theorem witness_EveryStepKeepsInv : Inv sending ∧ ∃ t, step sending = .next t :=
  ⟨⟨by decide, by decide, fun _ => ⟨⟨.transmitRgb 1 1 0, rfl, by decide, by decide, by decide⟩, by decide, by decide, by decide, by decide⟩⟩, _, rfl⟩

/-- Two IDLE states that differ in what R35 leaves unspecified. -/
theorem witness_UnspecifiedRegistersAreNotRead :
    SameOutside demo { demo with cmd := 0x09#8, src := 3, count := 7, mask := 1, emask := 0x40#8, stream := [1#8], shift := 0xFF#8, cyc := 5 } :=
  ⟨rfl, rfl, rfl, rfl, rfl, rfl, rfl, rfl, rfl⟩

end Sys2Proof.Tests
end

section
/-! The derived duration `RESET_CYC` (R11): the lower adjoint of "that many cycles last that many microseconds". -/
namespace Sys2Proof

/-- R11: `RESET_CYC` is a ceiling: a number of cycles reaches it exactly when those cycles last at least `P_RESET_US` microseconds. -/
theorem Config.resetCyc_le_iff (c : Config) (n : Nat) : c.resetCyc ≤ n ↔ c.resetUs * c.fcpu ≤ n * 1000000 := by
  rw [Config.resetCyc, Nat.div_le_iff_le_mul (by decide)]
  omega

/-- Settles O57: `RESET_CYC` reaches itself, so it is long enough, and any number of cycles that is long enough reaches it. -/
theorem resetCyclesRoundUp : Obligations.ResetCyclesRoundUp := fun c =>
  ⟨(c.resetCyc_le_iff c.resetCyc).mp (Nat.le_refl _), fun n => (c.resetCyc_le_iff n).mpr⟩

end Sys2Proof
end

section
/-! What a presentation and a clock cycle can do, once (R84, R88), and what they leave unchanged: the configuration, and the command registers with
the stream (R22, R26). -/
namespace Sys2Proof.Machine

/-- The second state has the configuration, the command registers and the stream of the first. -/
structure SameCommand (s t : State) : Prop where
  cfg : t.cfg = s.cfg
  cmd : t.cmd = s.cmd
  src : t.src = s.src
  count : t.count = s.count
  mask : t.mask = s.mask
  emask : t.emask = s.emask
  stream : t.stream = s.stream

theorem SameCommand.refl (s : State) : SameCommand s s := ⟨rfl, rfl, rfl, rfl, rfl, rfl, rfl⟩

theorem SameCommand.trans {s t u : State} (h : SameCommand s t) (k : SameCommand t u) : SameCommand s u :=
  ⟨k.cfg.trans h.cfg, k.cmd.trans h.cmd, k.src.trans h.src, k.count.trans h.count, k.mask.trans h.mask, k.emask.trans h.emask,
    k.stream.trans h.stream⟩

theorem world_sameCommand (s : State) (ws : List WorldWrite) : SameCommand s (s.world ws) := by
  constructor <;> simp

theorem advance_sameCommand (s : State) : SameCommand s s.advance := by
  constructor <;> simp

theorem finish_sameCommand (s : State) : SameCommand s s.finish := by
  constructor <;> simp

/-- A cycle of a running command holds its registers, whether it records a fault, is stalled or takes its step (R22). -/
theorem runCycle_sameCommand (s : State) (e : CycleInput) : SameCommand s (s.runCycle e) := by
  obtain ⟨r, h⟩ | ⟨-, -, -, h⟩ := runCycle_cases s e
  · rw [h]
    exact ⟨rfl, rfl, rfl, rfl, rfl, rfl, rfl⟩
  · have hw := world_sameCommand s e.writes
    have key : SameCommand s (if e.stall then s.world e.writes else (s.world e.writes).advance) := by
      split
      · exact hw
      · exact hw.trans (advance_sameCommand _)
    rw [h]
    exact ⟨key.cfg, key.cmd, key.src, key.count, key.mask, key.emask, key.stream⟩

theorem clockEdge_sameCommand (s : State) (e : CycleInput) : SameCommand s (s.clockEdge e) := by
  unfold State.clockEdge
  split
  · exact .refl s
  · split
    · exact runCycle_sameCommand s e
    · exact world_sameCommand s e.writes

/-- A presentation to a running command is refused (R84). -/
theorem present_busy {s : State} (hf : s.fault = .none) (hb : s.busy = true) (c : Command) :
    present c s = .next (s.refuse (.commandWhileBusy c.cmd)) := by
  rw [present, whenRunning_of_none hf, if_pos hb]

/-- A reserved word presented in IDLE is refused (R61). -/
theorem present_reserved {s : State} (hf : s.fault = .none) (hb : s.busy = false) {c : Command} {x : DecodeError}
    (hd : decode c = .error x) : present c s = .next (s.refuse (.reservedCommand c.cmd)) := by
  rw [present, whenRunning_of_none hf, hb, hd]
  rfl

/-- A command presented in IDLE runs the checks of acceptance (R84). -/
theorem present_checks {s : State} (hf : s.fault = .none) (hb : s.busy = false) {c : Command} {i : Instr} (hd : decode c = .ok i) :
    present c s = .next (s.check i.fmt (opcode i) i.pinSel i.src i.count i.mask) := by
  rw [present_of_decode hd, exec_of_running hf, hb]
  rfl

/-- A presentation records a fault or a refusal and keeps the rest, or latches a command in IDLE (R84, R115). -/
theorem present_cases {s t : State} {c : Command} (h : present c s = .next t) :
    (∃ x, x ≠ .none ∧ t = { s with fault := x }) ∨
      (s.busy = false ∧ ∃ i, decode c = .ok i ∧ t = s.latch i.fmt (opcode i) i.src i.count i.mask (s.maskOf i)) := by
  obtain ⟨hf, -⟩ := whenRunning_next (show whenRunning s _ = .next t from h)
  cases hb : s.busy with
  | true =>
    rw [present_busy hf hb] at h
    exact .inl ⟨_, by simp, (Host.Outcome.next.inj h).symm⟩
  | false =>
    cases hd : decode c with
    | error x =>
      rw [present_reserved hf hb hd] at h
      exact .inl ⟨_, by simp, (Host.Outcome.next.inj h).symm⟩
    | ok i =>
      rw [present_checks hf hb hd] at h
      obtain rfl := Host.Outcome.next.inj h
      obtain hx | ⟨-, -, -, hl⟩ := check_cases s i.fmt (opcode i) i.pinSel i.src i.count i.mask
      · exact .inl hx
      · exact .inr ⟨rfl, i, rfl, hl⟩

theorem present_cfg {s t : State} {c : Command} (h : present c s = .next t) : t.cfg = s.cfg := by
  obtain ⟨x, -, rfl⟩ | ⟨-, i, -, rfl⟩ := present_cases h <;> rfl

/-- A clock cycle in which the host presents a command. -/
theorem cycle_some {e : CycleInput} {c : Command} (h : e.command = some c) (s : State) :
    cycle e s = onNext (present c s.finish) fun v => .next (v.clockEdge e) := by
  simp [cycle, h]

/-- What a cycle that answers a next state did before its clock edge: nothing was presented, or a presentation answered a next state. -/
theorem cycle_cases {e : CycleInput} {s t : State} (h : cycle e s = .next t) :
    ∃ v, t = v.clockEdge e ∧ (e.command = none ∧ v = s.finish ∨ ∃ c, e.command = some c ∧ present c s.finish = .next v) := by
  cases hc : e.command with
  | none =>
    rw [cycle_none hc] at h
    exact ⟨_, (Host.Outcome.next.inj h).symm, .inl ⟨rfl, rfl⟩⟩
  | some c =>
    rw [cycle_some hc] at h
    cases hp : present c s.finish with
    | next v =>
      rw [hp] at h
      exact ⟨v, (Host.Outcome.next.inj h).symm, .inr ⟨c, rfl, hp⟩⟩
    | fault r => rw [hp] at h; cases h
    | refused r => rw [hp] at h; cases h

theorem cycle_cfg {e : CycleInput} {s t : State} (h : cycle e s = .next t) : t.cfg = s.cfg := by
  obtain ⟨v, rfl, ⟨-, rfl⟩ | ⟨c, -, hp⟩⟩ := cycle_cases h
  · rw [(clockEdge_sameCommand _ e).cfg, finish_cfg]
  · rw [(clockEdge_sameCommand v e).cfg, present_cfg hp, finish_cfg]

/-- A cycle that presents nothing, or presents to a running command, holds the command registers (R22). -/
theorem cycle_sameCommand {e : CycleInput} {s t : State} (h : cycle e s = .next t) (hq : e.command = none ∨ s.finish.busy = true) :
    SameCommand s t := by
  obtain ⟨v, rfl, hv⟩ := cycle_cases h
  refine SameCommand.trans ?_ (clockEdge_sameCommand v e)
  obtain ⟨-, rfl⟩ | ⟨c, hc, hp⟩ := hv
  · exact finish_sameCommand s
  · obtain ⟨x, -, rfl⟩ | ⟨hi, -⟩ := present_cases hp
    · obtain ⟨h1, h2, h3, h4, h5, h6, h7⟩ := finish_sameCommand s
      exact ⟨h1, h2, h3, h4, h5, h6, h7⟩
    · simp [hc, hi] at hq

theorem popped_finish_busy (s : State) : s.popped.finish.busy = s.finish.busy := by
  rw [State.popped, finish_withInbox]
  rfl

/-- Settles O51: a reset keeps the configuration, and so does every clock cycle. -/
theorem configurationNeverChanges : Obligations.ConfigurationNeverChanges := by
  intro s t h
  obtain ⟨-, -, ⟨-, rfl⟩ | ⟨e, -, hc⟩⟩ := step_cases h
  · rfl
  · exact (cycle_cfg hc).trans s.popped_cfg

/-- Settles O52: only a latch writes these registers, and it takes a command presented in IDLE. -/
theorem commandRegistersAreHeld : Obligations.CommandRegistersAreHeld := by
  intro s t e h he hq
  obtain ⟨hf, hw, -⟩ := step_cases h
  rw [step_cycle hf hw he] at h
  rw [nextPhase_ne_idle hf hw, ← popped_finish_busy] at hq
  obtain ⟨-, hcmd, hsrc, hcount, hmask, hemask, hstream⟩ := cycle_sameCommand h hq
  exact ⟨hcmd, hsrc, hcount, hmask, hemask, hstream⟩

end Sys2Proof.Machine
end

section
/-! Stopping, IDLE and reset: a recorded fault stops the machine (R109), in IDLE only the outside acts (R124), and what holds right after
reset (R35). -/
namespace Sys2Proof.Machine

theorem whenRunning_of_fault {s : State} {r : Fault} (h : s.fault = .fault r) (k : State → Out) : whenRunning s k = .fault r := by
  simp [whenRunning, h]

theorem whenRunning_of_refused {s : State} {r : Refusal} (h : s.fault = .refused r) (k : State → Out) :
    whenRunning s k = .refused r := by
  simp [whenRunning, h]

/-- Settles O20: a step, a command and a presentation all ask `whenRunning` first. -/
theorem recordedFaultStopsTheMachine : Obligations.RecordedFaultStopsTheMachine := by
  refine fun s => ⟨fun r h => ⟨whenRunning_of_fault h _, fun i => ?_, fun c => whenRunning_of_fault h _, ?_⟩,
    fun r h => ⟨whenRunning_of_refused h _, fun i => ?_, fun c => whenRunning_of_refused h _, ?_⟩⟩
  · rw [exec_eq_accept]
    exact whenRunning_of_fault h _
  · simp [State.final, h]
  · rw [exec_eq_accept]
    exact whenRunning_of_refused h _
  · simp [State.final, h]

/-- Settles O53, by the three branches of `State.line`. -/
theorem lineLevelOnlyWhereDefined : Obligations.LineLevelOnlyWhereDefined := by
  refine ⟨fun c => ?_, fun s hf hb => ?_, fun s h hm => ?_⟩
  · have h0 : popcount 0#8 ≠ 1 := by decide
    simp [State.line, State.resetWith, State.faulted, h0]
  · simp [State.line, State.faulted, hf, hb]
  · have hn : (s.faulted && s.busy) = false := by
      obtain h | h := h <;> simp [State.faulted, h]
    simp [State.line, hn, hm]

/-- Settles O54: these fields of the state after reset are as R35 gives them. -/
theorem stateAfterReset : Obligations.StateAfterReset := fun _ => ⟨rfl, rfl, rfl, rfl⟩

/-- Settles O59: no source and no byte is listed, and no command runs. -/
theorem invHoldsAfterReset : Obligations.InvHoldsAfterReset := fun _ =>
  ⟨⟨.nil, nofun⟩, .nil, fun h => absurd rfl h⟩

/-- `s` with the registers of R30 as they are in `u`. -/
def State.withHidden (s u : State) : State :=
  { s with
    byteIdx := u.byteIdx, bitIdx := u.bitIdx, shift := u.shift, sub := u.sub, cyc := u.cyc, latchCnt := u.latchCnt, startCnt := u.startCnt }

theorem sameButHidden_withHidden (s u : State) : SameButHidden s (s.withHidden u) := ⟨_, _, _, _, _, _, _, rfl⟩

theorem worldWrite_withHidden (s u : State) (w : WorldWrite) :
    (s.withHidden u).worldWrite w = (s.worldWrite w).withHidden u := by
  cases w with
  | port p m v =>
    simp only [State.worldWrite, show (s.withHidden u).cfg = s.cfg from rfl]
    split <;> rfl
  | element r k e =>
    simp only [State.worldWrite, show (s.withHidden u).sources = s.sources from rfl]
    split <;> rfl
  | place r x => rfl
  | drop r => rfl
  | byte a v => rfl

/-- The registers of R30 have no part in what the outside writes. -/
theorem world_withHidden (s u : State) (ws : List WorldWrite) : (s.withHidden u).world ws = (s.world ws).withHidden u :=
  List.foldl_hom (fun v : State => v.withHidden u) fun v w => worldWrite_withHidden v u w

/-- The start of a cycle writes PHASE and a register of R30 at most. -/
theorem finish_eq_withHidden (s : State) : s.finish = ({ s with phase := s.finish.phase } : State).withHidden s.finish := by
  unfold State.finish
  split <;> rfl

/-- A cycle that presents nothing and finds the machine in IDLE, or brings it there on cycle `TE`, leaves what the outside's writes leave
(R91, R124). -/
theorem step_to_idle {s : State} {e : CycleInput} {rest : List Event} (hf : s.fault = .none) (hw : s.cfg.WellFormed)
    (hi : s.inbox = .cycle e :: rest) (hn : e.command = none) (hb : s.finish.busy = false) :
    Answers (step s) (({ s with phase := .idle, inbox := rest } : State).world e.writes) := by
  have hp : s.finish.phase = .idle := by simpa [State.busy] using hb
  have hstart : s.popped.finish = ({ s with phase := .idle, inbox := rest } : State).withHidden s.finish := by
    rw [State.popped, hi, List.tail_cons, finish_withInbox, finish_eq_withHidden, hp]
    rfl
  refine ⟨_, ?_, sameButHidden_withHidden _ s.finish⟩
  rw [step_cycle hf hw (by rw [State.event, hi]), cycle_none hn, clockEdge_idle (by simpa using hf) (by rw [popped_finish_busy, hb]),
    hstart, world_withHidden]

/-- Settles O42: IDLE before the cycle is IDLE on it, and without writes the outside leaves everything as it is. -/
theorem idleCycleChangesNothing : Obligations.IdleCycleChangesNothing := by
  intro s e rest hf hw hi hn
  refine ⟨fun hp he => ?_, fun hp => step_to_idle hf hw hi hn ((nextPhase_idle_iff hf hw).mp hp)⟩
  have hb : s.finish.busy = false := by simp [finish_of_idle hp, State.busy, hp]
  have h := step_to_idle hf hw hi hn hb
  rwa [he, world_nil, ← hp] at h

end Sys2Proof.Machine
end

section
/-! Two runs side by side: what R35 leaves unspecified is never read. While both are in IDLE the states of the two runs agree outside the
command's registers (`SameOutside`). While a command runs they agree on everything but four datapath registers (`SameRunning`), two of which
agree too once the first bit cell has begun, and one in LATCHING. -/
namespace Sys2Proof.Machine

/-! ### Two states in IDLE -/

/-- `s` with the command and datapath registers, and the bookkeeping of a command, as they are in `u`. -/
def State.withCommand (s u : State) : State :=
  { s with
    cmd := u.cmd, src := u.src, count := u.count, mask := u.mask, emask := u.emask, stream := u.stream, byteIdx := u.byteIdx
    bitIdx := u.bitIdx, shift := u.shift, sub := u.sub, cyc := u.cyc, latchCnt := u.latchCnt, startCnt := u.startCnt
    fresh := u.fresh, clk := u.clk, held1 := u.held1, held0 := u.held0 }

theorem SameOutside.of_withCommand {s t : State} (u : State) (h : s.phase = .idle) (e : t = s.withCommand u) : SameOutside s t := by
  subst e
  exact ⟨h, h, rfl, rfl, rfl, rfl, rfl, rfl, rfl⟩

theorem SameOutside.exists_withCommand {s t : State} (h : SameOutside s t) : ∃ u, t = s.withCommand u := by
  obtain ⟨hs, ht, hcfg, hfault, hport, hsources, hmem, hinbox, hdraws⟩ := h
  refine ⟨t, ?_⟩
  rw [State.withCommand, hs, ← ht, hcfg, hfault, hport, hsources, hmem, hinbox, hdraws]

theorem SameOutside.worldWrite {s t : State} (h : SameOutside s t) (w : WorldWrite) :
    SameOutside (s.worldWrite w) (t.worldWrite w) := by
  have hs := h.idleLeft
  obtain ⟨u, rfl⟩ := h.exists_withCommand
  cases w with
  | port p m v =>
    simp only [State.worldWrite, show (s.withCommand u).cfg = s.cfg from rfl]
    split
    · exact .of_withCommand (u.setPort _) hs rfl
    · exact h
  | element r k e =>
    simp only [State.worldWrite, show (s.withCommand u).sources = s.sources from rfl]
    split
    · exact h
    · exact .of_withCommand u hs rfl
  | place r x => exact .of_withCommand u hs rfl
  | drop r => exact .of_withCommand u hs rfl
  | byte a v => exact .of_withCommand u hs rfl

theorem SameOutside.world {s t : State} (h : SameOutside s t) (ws : List WorldWrite) : SameOutside (s.world ws) (t.world ws) := by
  induction ws generalizing s t with
  | nil => exact h
  | cons w ws ih => exact ih (h.worldWrite w)

/-! ### Two states with a command running -/

/-- A bit cell has begun: from here on SHIFT and CYC are read (R29, R88). -/
def State.InCell (s : State) : Prop :=
  s.phase = .sending ∧ s.fresh = false ∧ s.cfg.startLat ≤ s.startCnt

/-- `s` with SHIFT, SUB, CYC and LATCHCNT as they are in `u`: the registers that acceptance does not write. -/
def State.withScratch (s u : State) : State :=
  { s with shift := u.shift, sub := u.sub, cyc := u.cyc, latchCnt := u.latchCnt }

/-- Two states of a running command that agree on all that is read from here on. -/
structure SameRunning (s t : State) : Prop where
  running : s.phase ≠ .idle
  eq : t = s.withScratch t
  cell : s.InCell → t.shift = s.shift ∧ t.cyc = s.cyc
  latch : s.phase = .latching → t.latchCnt = s.latchCnt

/-- What R88 may schedule in `s`: start latency only before its end, a further bit of a byte or a further cycle of a cell only in a cell. -/
def State.MayTake (s : State) : Move → Prop
  | .latency n => n < s.cfg.startLat
  | .beginCell _ bit => bit ≠ 0 → s.InCell
  | .continueCell _ => s.InCell
  | _ => True

theorem byteMove_mayTake (s : State) (k : Nat) : s.MayTake (s.byteMove k) := by
  unfold State.byteMove
  split
  · exact fun h => absurd rfl h
  · trivial

theorem nextMove_mayTake (s : State) : s.MayTake s.nextMove := by
  unfold State.nextMove
  cases hp : s.phase with
  | idle => trivial
  | latching => trivial
  | sending =>
    dsimp only
    split
    · split
      · assumption
      · exact byteMove_mayTake s 0
    · rename_i hfresh
      split
      · split
        · assumption
        · exact byteMove_mayTake s 0
      · have hcell : s.InCell := ⟨hp, by simpa using hfresh, by omega⟩
        split
        · exact hcell
        · split
          · exact fun _ => hcell
          · exact byteMove_mayTake s _

/-- CYC is read in a cell only, and SHIFT, SUB and LATCHCNT have no part in what is scheduled. -/
theorem nextMove_withScratch {s u : State} (h : s.InCell → u.cyc = s.cyc) : (s.withScratch u).nextMove = s.nextMove := by
  by_cases hc : s.InCell
  · unfold State.nextMove
    rw [show (s.withScratch u).cyc = s.cyc from h hc]
    rfl
  · unfold State.nextMove
    simp only [show (s.withScratch u).phase = s.phase from rfl, show (s.withScratch u).fresh = s.fresh from rfl,
      show (s.withScratch u).cfg = s.cfg from rfl, show (s.withScratch u).startCnt = s.startCnt from rfl]
    cases hp : s.phase with
    | idle => rfl
    | latching => rfl
    | sending =>
      cases hf : s.fresh with
      | true => rfl
      | false =>
        have hl : s.startCnt < s.cfg.startLat := by
          by_contra hl
          exact hc ⟨hp, hf, by omega⟩
        simp only [if_pos hl]
        rfl

theorem continueCell_phase (s : State) (o : Nat) : (s.continueCell o).phase = s.phase := by
  unfold State.continueCell
  split <;> rfl

/-- One more cycle of a cell keeps SHIFT and CYC the same in both states if SHIFT is the same before it. -/
theorem continueCell_withScratch {s u : State} (h : u.shift = s.shift) (o : Nat) :
    (s.withScratch u).continueCell o = (s.continueCell o).withScratch ((s.withScratch u).continueCell o) ∧
      ((s.withScratch u).continueCell o).shift = (s.continueCell o).shift ∧
      ((s.withScratch u).continueCell o).cyc = (s.continueCell o).cyc := by
  have hw : (s.withScratch u).wireBit = s.wireBit := congrArg (fun v : Byte => v.getLsbD 7) h
  unfold State.continueCell
  rw [hw, show (s.withScratch u).cfg = s.cfg from rfl]
  split <;> exact ⟨rfl, h, rfl⟩

namespace SameRunning

variable {s t : State}

theorem exists_withScratch (h : SameRunning s t) : ∃ u, t = s.withScratch u := ⟨t, h.eq⟩

theorem nextMove_eq (h : SameRunning s t) : t.nextMove = s.nextMove := by
  rw [h.eq]
  exact nextMove_withScratch fun hc => (h.cell hc).2

/-- The core's step is the same in both runs: a register that may differ is written before it is read. -/
theorem advance (h : SameRunning s t) : SameRunning s.advance t.advance := by
  have hbusy := advance_busy h.running
  have hmay := nextMove_mayTake s
  unfold State.advance at hbusy ⊢
  rw [h.nextMove_eq]
  generalize s.nextMove = m at hbusy hmay ⊢
  have ⟨hrun, _, hcell, hlatch⟩ := h
  obtain ⟨u, rfl⟩ := h.exists_withScratch
  cases m with
  | rest => exact h
  | latency n => exact ⟨hrun, rfl, fun hc => absurd hc.2.2 (Nat.not_le.mpr hmay), hlatch⟩
  | beginCell byte bit =>
    refine ⟨hrun, rfl, fun _ => ⟨?_, rfl⟩, hlatch⟩
    show (s.withScratch u).nextShift byte bit = s.nextShift byte bit
    unfold State.nextShift
    split
    · rfl
    · rw [(hcell (hmay ‹_›)).1]
  | continueCell o =>
    obtain ⟨he, hs, hc⟩ := continueCell_withScratch (hcell hmay).1 o
    refine ⟨hbusy, he, fun _ => ⟨hs, hc⟩, fun hp => ?_⟩
    rw [State.take, continueCell_phase, hmay.1] at hp
    cases hp
  | beginLatch => exact ⟨hbusy, rfl, fun hc => (nomatch hc.1), fun _ => rfl⟩
  | continueLatch => exact ⟨hrun, rfl, hcell, fun hp => congrArg (· + 1) (hlatch hp)⟩

theorem world (h : SameRunning s t) (ws : List WorldWrite) : SameRunning (s.world ws) (t.world ws) := by
  have ⟨hrun, _, hcell, hlatch⟩ := h
  obtain ⟨u, rfl⟩ := h.exists_withScratch
  obtain ⟨p, h1, h0, so, me, hw⟩ := world_frame s ws
  have ht : (s.withScratch u).world ws = (s.world ws).withScratch u := by
    refine (world_withHidden s { s with shift := u.shift, sub := u.sub, cyc := u.cyc, latchCnt := u.latchCnt } ws).trans ?_
    rw [hw]
    rfl
  rw [ht, hw]
  exact ⟨hrun, rfl, hcell, hlatch⟩

theorem withFault (h : SameRunning s t) (x : FaultReg) : SameRunning { s with fault := x } { t with fault := x } := by
  have ⟨hrun, _, hcell, hlatch⟩ := h
  obtain ⟨u, rfl⟩ := h.exists_withScratch
  exact ⟨hrun, rfl, hcell, hlatch⟩

/-- One more cycle counted. -/
theorem tick (h : SameRunning s t) : SameRunning { s with clk := s.clk + 1 } { t with clk := t.clk + 1 } := by
  have ⟨hrun, _, hcell, hlatch⟩ := h
  obtain ⟨u, rfl⟩ := h.exists_withScratch
  exact ⟨hrun, rfl, hcell, hlatch⟩

theorem clk_eq (h : SameRunning s t) : t.clk = s.clk := by rw [h.eq]; rfl

theorem hitsPin_eq (h : SameRunning s t) : t.hitsPin = s.hitsPin := by
  rw [h.eq]
  funext w
  cases w <;> rfl

theorem hitsElement_eq (h : SameRunning s t) : t.hitsElement = s.hitsElement := by
  rw [h.eq]
  funext w
  cases w <;> rfl

theorem beforeLatch_eq (h : SameRunning s t) : t.beforeLatch = s.beforeLatch := by
  unfold State.beforeLatch
  rw [h.nextMove_eq]

/-- The cycle of a running command meets the same run-time condition in both runs, or none in either (R114). -/
theorem runCycle (h : SameRunning s t) (e : CycleInput) : SameRunning (s.runCycle e) (t.runCycle e) := by
  unfold State.runCycle
  rw [h.beforeLatch_eq, h.hitsPin_eq, h.hitsElement_eq, h.clk_eq]
  split
  · exact h.withFault _
  · split
    · exact h.withFault _
    · split
      · exact h.withFault _
      · refine tick ?_
        split
        · exact h.world e.writes
        · exact (h.world e.writes).advance

end SameRunning

/-! ### One step of both runs -/

/-- Two states that no run tells apart: in IDLE, or with a command running. -/
def Alike (s t : State) : Prop :=
  SameOutside s t ∨ SameRunning s t

namespace Alike

variable {s t : State}

theorem exists_withCommand (h : Alike s t) : ∃ u, t = s.withCommand u := by
  obtain h | h := h
  · exact h.exists_withCommand
  · obtain ⟨u, rfl⟩ := h.exists_withScratch
    exact ⟨s.withScratch u, rfl⟩

theorem cfg_eq (h : Alike s t) : t.cfg = s.cfg := by obtain ⟨u, rfl⟩ := h.exists_withCommand; rfl
theorem fault_eq (h : Alike s t) : t.fault = s.fault := by obtain ⟨u, rfl⟩ := h.exists_withCommand; rfl
theorem event_eq (h : Alike s t) : t.event = s.event := by obtain ⟨u, rfl⟩ := h.exists_withCommand; rfl
theorem busy_eq (h : Alike s t) : t.busy = s.busy := by obtain ⟨u, rfl⟩ := h.exists_withCommand; rfl
theorem faulted_eq (h : Alike s t) : t.faulted = s.faulted := by obtain ⟨u, rfl⟩ := h.exists_withCommand; rfl

theorem withFault (h : Alike s t) (x : FaultReg) : Alike { s with fault := x } { t with fault := x } := by
  obtain h | h := h
  · have hs := h.idleLeft
    obtain ⟨u, rfl⟩ := h.exists_withCommand
    exact .inl (.of_withCommand u hs rfl)
  · exact .inr (h.withFault x)

theorem popped (h : Alike s t) : Alike s.popped t.popped := by
  obtain h | h := h
  · have hs := h.idleLeft
    obtain ⟨u, rfl⟩ := h.exists_withCommand
    exact .inl (.of_withCommand u hs rfl)
  · have ⟨hrun, _, hcell, hlatch⟩ := h
    obtain ⟨u, rfl⟩ := h.exists_withScratch
    exact .inr ⟨hrun, rfl, hcell, hlatch⟩

/-- LATCHING ends on the same cycle in both runs (R91). -/
theorem finish (h : Alike s t) : Alike s.finish t.finish := by
  obtain h | h := h
  · rw [finish_of_idle h.idleLeft, finish_of_idle h.idleRight]
    exact .inl h
  · have hlatch := h.latch
    obtain ⟨u, rfl⟩ := h.exists_withScratch
    have hend : ((s.withScratch u).phase = .latching ∧ (s.withScratch u).cfg.latchCyc ≤ (s.withScratch u).latchCnt + 1) ↔
        (s.phase = .latching ∧ s.cfg.latchCyc ≤ s.latchCnt + 1) :=
      and_congr_right fun hp => by rw [show (s.withScratch u).latchCnt = s.latchCnt from hlatch hp]; rfl
    simp only [State.finish, hend]
    split
    · exact .inl ⟨rfl, rfl, rfl, rfl, rfl, rfl, rfl, rfl, rfl⟩
    · exact .inr h

/-- A cycle after acceptance. -/
theorem clockEdge (h : Alike s t) (e : CycleInput) : Alike (s.clockEdge e) (t.clockEdge e) := by
  unfold State.clockEdge
  rw [h.faulted_eq, h.busy_eq]
  split
  · exact h
  · split
    · rename_i hb
      obtain h | h := h
      · simp [State.busy, h.idleLeft] at hb
      · exact .inr (h.runCycle e)
    · rename_i hb
      obtain h | h := h
      · exact .inl (h.world e.writes)
      · simp [State.busy, h.running] at hb

end Alike

/-- The checks of acceptance come out the same, and what differs after a latch is not read before it is written (R84). -/
theorem SameOutside.check {s t : State} (h : SameOutside s t) (f : Fmt) (c : Byte) (p : Bool) (r : Ref) (n : Half) (m : Byte) :
    Alike (s.check f c p r n m) (t.check f c p r n m) := by
  have halike : Alike s t := .inl h
  obtain ⟨u, rfl⟩ := h.exists_withCommand
  unfold State.check
  rw [show (s.withCommand u).effectiveMask p m = s.effectiveMask p m from rfl,
    show (s.withCommand u).extent f r = s.extent f r from rfl]
  dsimp only
  split
  · exact halike.withFault _
  · split
    · exact halike.withFault _
    · split
      · exact halike.withFault _
      · exact .inr ⟨nofun, rfl, fun hc => (nomatch hc.2.1), nofun⟩

/-- A machine with a fault recorded or an ill-formed configuration takes no step. -/
theorem run_succ_of_stopped {s : State} (h : ¬ (s.fault = .none ∧ s.cfg.WellFormed)) (n : Nat) : run (n + 1) s = none := by
  cases hs : step s with
  | next t =>
    obtain ⟨hf, hc, -⟩ := step_cases hs
    exact absurd ⟨hf, hc⟩ h
  | fault r => simp only [run, hs]
  | refused r => simp only [run, hs]

namespace Alike

variable {s t : State}

/-- A presentation is answered the same in both runs (R84). -/
theorem present (h : Alike s t) (hf : s.fault = .none) (c : Command) :
    ∃ v w, present c s = .next v ∧ present c t = .next w ∧ Alike v w := by
  have hf' : t.fault = .none := h.fault_eq.trans hf
  cases hb : s.busy with
  | true => exact ⟨_, _, present_busy hf hb c, present_busy hf' (h.busy_eq.trans hb) c, h.withFault _⟩
  | false =>
    have hb' : t.busy = false := h.busy_eq.trans hb
    cases hd : decode c with
    | error x => exact ⟨_, _, present_reserved hf hb hd, present_reserved hf' hb' hd, h.withFault _⟩
    | ok i =>
      obtain h | h := h
      · exact ⟨_, _, present_checks hf hb hd, present_checks hf' hb' hd, h.check ..⟩
      · simp [State.busy, h.running] at hb

theorem cycle (h : Alike s t) (hf : s.fault = .none) (e : CycleInput) :
    ∃ v w, cycle e s = .next v ∧ cycle e t = .next w ∧ Alike v w := by
  have hfin := h.finish
  cases hc : e.command with
  | none => exact ⟨_, _, cycle_none hc s, cycle_none hc t, hfin.clockEdge e⟩
  | some c =>
    obtain ⟨v, w, hv, hw, h'⟩ := hfin.present (by simpa using hf) c
    refine ⟨v.clockEdge e, w.clockEdge e, ?_, ?_, h'.clockEdge e⟩
    · rw [cycle_some hc, hv, onNext_next]
    · rw [cycle_some hc, hw, onNext_next]

/-- A step of a machine without a fault and with a well-formed configuration keeps two such states alike. -/
theorem step (h : Alike s t) (hf : s.fault = .none) (hc : s.cfg.WellFormed) :
    ∃ v w, step s = .next v ∧ step t = .next w ∧ Alike v w := by
  have hf' : t.fault = .none := h.fault_eq.trans hf
  have hc' : t.cfg.WellFormed := h.cfg_eq ▸ hc
  cases he : s.event with
  | reset =>
    refine ⟨_, _, step_reset hf hc he, step_reset hf' hc' (h.event_eq.trans he), .inl ?_⟩
    obtain ⟨u, rfl⟩ := h.exists_withCommand
    exact .of_withCommand s.coreReset rfl rfl
  | cycle e =>
    rw [step_cycle hf hc he, step_cycle hf' hc' (h.event_eq.trans he)]
    exact h.popped.cycle hf e

/-- What the statement observes is the same in both states. -/
theorem observed_eq (h : Alike s t) :
    (s.phase, s.port, s.fault, s.sources, s.mem, if s.busy then s.line else none) =
      (t.phase, t.port, t.fault, t.sources, t.mem, if t.busy then t.line else none) := by
  obtain h | h := h
  · have hb : s.busy = false := by simp [State.busy, h.idleLeft]
    obtain ⟨u, rfl⟩ := h.exists_withCommand
    rw [show (s.withCommand u).busy = s.busy from rfl, hb]
    rfl
  · obtain ⟨u, rfl⟩ := h.exists_withScratch
    rfl

/-- Both runs end at the same step, or go on alike. -/
theorem run (h : Alike s t) (n : Nat) :
    (run n s = none ∧ run n t = none) ∨ ∃ v w, run n s = some v ∧ run n t = some w ∧ Alike v w := by
  induction n generalizing s t with
  | zero => exact .inr ⟨s, t, rfl, rfl, h⟩
  | succ n ih =>
    by_cases hgo : s.fault = .none ∧ s.cfg.WellFormed
    · obtain ⟨v, w, hv, hw, h'⟩ := h.step hgo.1 hgo.2
      simp only [Machine.run, hv, hw]
      exact ih h'
    · refine .inl ⟨run_succ_of_stopped hgo n, run_succ_of_stopped (s := t) ?_ n⟩
      rwa [h.fault_eq, h.cfg_eq]

end Alike

/-- Settles O60: two such IDLE states are alike, every step keeps them alike, and alike states show the same. -/
theorem unspecifiedRegistersAreNotRead : Obligations.UnspecifiedRegistersAreNotRead := by
  intro s t n h
  obtain ⟨hs, ht⟩ | ⟨v, w, hv, hw, h'⟩ := Alike.run (.inl h) n
  · rw [hs, ht]
  · rw [hv, hw]
    exact congrArg some h'.observed_eq

end Sys2Proof.Machine
end

section
/-! What a reference stands for: the extent and the elements of a record source (R37 to R39, R43), and the length of the stream they
give (R86). -/
namespace Sys2Proof.Machine

theorem sourceAt_of_none {l : List (Nat × Source)} {r : Ref} (h : lookupKey r l = none) (f : Fmt) : sourceAt l f r = none := by
  simp [sourceAt, h]

theorem sourceAt_of_kind {l : List (Nat × Source)} {r : Ref} {x : Source} (h : lookupKey r l = some x) : sourceAt l x.kind r = some x := by
  simp [sourceAt, h]

theorem sourceAt_of_kind_ne {l : List (Nat × Source)} {r : Ref} {x : Source} {f : Fmt} (h : lookupKey r l = some x) (hk : x.kind ≠ f) :
    sourceAt l f r = none := by
  simp [sourceAt, h, hk]

/-- A source that is found is of the format it was looked for. -/
theorem kind_of_sourceAt {l : List (Nat × Source)} {r : Ref} {x : Source} {f : Fmt} (h : sourceAt l f r = some x) : x.kind = f := by
  unfold sourceAt at h
  split at h
  · cases h
  · split at h
    · cases h
      assumption
    · cases h

/-! ### Elements of a source -/

/-- The format an element is of. -/
def Element.kind : Element → Fmt
  | .raw _ => .raw
  | .rgb _ => .rgb
  | .rgbw _ => .rgbw
  | .pack4 _ => .pack4

/-- An element has as many wire bytes as its format says (R85). -/
theorem length_bytesOf (p : PackPos) (e : Element) : (bytesOf p e).length = bpe e.kind := by
  cases e <;> rfl

theorem memElement_kind (c : Config) (m : List Host.Cell) (f : Fmt) (base k : Nat) : (memElement c m f base k).kind = f := by
  cases f <;> rfl

/-- A source has no element at or past its length (R38). -/
theorem elementOf_of_length_le {x : Source} {k : Nat} (h : x.length ≤ k) (c : Config) (m : List Host.Cell) (r : Ref) :
    elementOf c m r x k = none := by
  cases x with
  | mem f n => exact if_neg (Nat.not_lt.mpr h)
  | _ l => exact congrArg (Option.map _) (List.getElem?_eq_none h)

/-- A source has an element of its own kind everywhere below its length (R38). -/
theorem elementOf_of_lt_length {x : Source} {k : Nat} (h : k < x.length) (c : Config) (m : List Host.Cell) (r : Ref) :
    ∃ e, elementOf c m r x k = some e ∧ e.kind = x.kind := by
  cases x with
  | mem f n => exact ⟨_, if_pos h, memElement_kind c m f r k⟩
  | _ l => exact ⟨_, congrArg (Option.map _) (List.getElem?_eq_getElem h), rfl⟩

/-! ### Extent and records at a reference -/

section
variable {s : State} {r : Ref} {f : Fmt} {x : Source}

theorem extent_of_sourceAt (h : sourceAt s.sources f r = some x) : s.extent f r = x.length := by
  simp [State.extent, h]

/-- An invalid `SRC` has extent 0 (R39). -/
theorem extent_of_sourceAt_none (h : sourceAt s.sources f r = none) : s.extent f r = 0 := by
  simp [State.extent, h]

theorem readRecord_of_sourceAt (h : sourceAt s.sources f r = some x) (k : Nat) : s.readRecord f r k = elementOf s.cfg s.mem r x k := by
  simp [State.readRecord, h]

theorem readRecord_of_sourceAt_none (h : sourceAt s.sources f r = none) (k : Nat) : s.readRecord f r k = none := by
  simp [State.readRecord, h]

/-- There is no record at or past the extent (R38). -/
theorem readRecord_of_extent_le {k : Nat} (h : s.extent f r ≤ k) : s.readRecord f r k = none := by
  cases hx : sourceAt s.sources f r with
  | none => exact readRecord_of_sourceAt_none hx k
  | some x =>
    rw [extent_of_sourceAt hx] at h
    rw [readRecord_of_sourceAt hx, elementOf_of_length_le h]

/-- Below the extent there is a record, with as many bytes as the format says (R38, R85). -/
theorem readRecord_of_lt_extent {k : Nat} (h : k < s.extent f r) :
    ∃ e, s.readRecord f r k = some e ∧ (bytesOf s.cfg.pack4Pos e).length = bpe f := by
  cases hx : sourceAt s.sources f r with
  | none =>
    rw [extent_of_sourceAt_none hx] at h
    exact absurd h (Nat.not_lt_zero k)
  | some x =>
    rw [extent_of_sourceAt hx] at h
    obtain ⟨e, he, hk⟩ := elementOf_of_lt_length h s.cfg s.mem r
    refine ⟨e, by rw [readRecord_of_sourceAt hx, he], ?_⟩
    rw [length_bytesOf, hk, kind_of_sourceAt hx]

/-- An element of a source laid out in memory is read from memory (R43). -/
theorem readRecord_of_mem {k n : Nat} (h : lookupKey r s.sources = some (.mem f n)) (hk : k < n) :
    s.readRecord f r k = some (memElement s.cfg s.mem f r k) :=
  (readRecord_of_sourceAt (sourceAt_of_kind h) k).trans (if_pos hk)

/-- The stream of a command within the extent has `BPE(FMT)` bytes for each element (R86). -/
theorem length_streamOf {n : Half} (h : n.toNat ≤ s.extent f r) : (s.streamOf f r n).length = streamLength f n := by
  have hlen : ∀ k ∈ List.range n.toNat, (s.recordBytes f r k).length = bpe f := fun k hk => by
    obtain ⟨e, he, hl⟩ := readRecord_of_lt_extent (Nat.lt_of_lt_of_le (List.mem_range.mp hk) h)
    rw [State.recordBytes, he, hl]
  rw [State.streamOf, List.length_flatMap, List.map_congr_left hlen, List.map_const', List.sum_replicate_nat, List.length_range,
    Nat.mul_comm, streamLength]

end

/-- Settles O18: the third check of acceptance, and the extent by what stands at the reference. -/
theorem countBeyondExtentFaults : Obligations.CountBeyondExtentFaults := by
  intro s i hf hp hm hl
  refine ⟨fun he => .of_eq ?_, fun h => extent_of_sourceAt_none (sourceAt_of_none h _),
    fun x h hk => extent_of_sourceAt_none (sourceAt_of_kind_ne h hk), ?_⟩
  · have hb : s.busy = false := by simp [State.busy, hp]
    rw [exec_of_running hf, hb, check_countExceedsExtent hm hl he]
    rfl
  · rintro x h hk
    rw [← hk]
    exact extent_of_sourceAt (sourceAt_of_kind h)

/-- Settles O23: a typed source is found under its own format, and below the extent a source has an element of its kind. -/
theorem readRecordWithinExtent : Obligations.ReadRecordWithinExtent := by
  intro s r k
  have typed : ∀ x, lookupKey r s.sources = some x →
      s.extent x.kind r = x.length ∧ s.readRecord x.kind r k = elementOf s.cfg s.mem r x k := fun x h =>
    ⟨extent_of_sourceAt (sourceAt_of_kind h), readRecord_of_sourceAt (sourceAt_of_kind h) k⟩
  exact ⟨fun l => typed (.raw l), fun l => typed (.rgb l), fun l => typed (.rgbw l), fun l => typed (.pack4 l),
    fun f x h hk => readRecord_of_sourceAt_none (sourceAt_of_kind_ne h hk) k,
    fun f h => readRecord_of_sourceAt_none (sourceAt_of_none h f) k,
    fun f => readRecord_of_extent_le, fun f => readRecord_of_lt_extent⟩

/-- Settles O24: the addresses that `memElement` reads, format by format. -/
theorem byteViewLayout : Obligations.ByteViewLayout := by
  intro s r k n hk
  refine ⟨fun h => ?_, fun h ho => ?_, fun h ho => ?_, fun h => ?_, fun h => ?_⟩ <;>
    rw [readRecord_of_mem h hk]
  · simp [memElement, elementSize]
  · simp [memElement, elementSize, wordOfBytes, ho]
  · simp [memElement, elementSize, wordOfBytes, ho]
  · rfl
  · rfl

end Sys2Proof.Machine
end

section
/-! What the outside and the core leave in the port (R49, R50), and what each write of the outside leaves (R36, R37, R43). -/
namespace Sys2Proof.Machine

/-! ### The core's port write -/

/-- The selected bit takes the level (R49). -/
theorem portRmw_selected (s : State) (level : Bool) {q : Nat} (h : s.emask.getLsbD q = true) :
    (s.portRmw level).port.getLsbD q = level := by
  cases level <;> simp [h]

/-- Another bit is written back as it was read (R49, R50). -/
theorem portRmw_unselected (s : State) (level : Bool) {q : Nat} (hq : q < 8) (h : s.emask.getLsbD q = false) :
    (s.portRmw level).port.getLsbD q = s.racedPort.getLsbD q := by
  cases level <;> simp [h, hq, -BitVec.getLsbD_eq_getElem]

/-- With no other writer another bit keeps its value (R49). -/
theorem portRmw_unselected_unraced {s : State} (hu : Unraced s) (level : Bool) {q : Nat} (hq : q < 8) (h : s.emask.getLsbD q = false) :
    (s.portRmw level).port.getLsbD q = s.port.getLsbD q := by
  have := congrArg (fun v : Byte => v.getLsbD q) (portRmw_port_others hu level)
  simpa only [BitVec.getLsbD_and, BitVec.getLsbD_not, h, hq, decide_true, Bool.not_false, Bool.and_true] using this

/-- The port holds only values that count as held (R50). -/
abbrev State.PortHeld (s : State) : Prop :=
  s.port &&& ~~~ s.held1 = 0 ∧ ~~~ s.port &&& ~~~ s.held0 = 0

/-- A bit of the port that holds a value counts as having held it. -/
theorem held_getLsbD {s : State} (h : s.PortHeld) {q : Nat} (hq : q < 8) :
    (s.port.getLsbD q = true → s.held1.getLsbD q = true) ∧ (s.port.getLsbD q = false → s.held0.getLsbD q = true) :=
  ⟨by simpa [hq] using congrArg (fun v : Byte => v.getLsbD q) h.1, by simpa [hq] using congrArg (fun v : Byte => v.getLsbD q) h.2⟩

/-- After the core's step each unselected bit of the port holds a value it had held before (R50). -/
theorem advance_unselected_held {s : State} (h : s.PortHeld) {q : Nat} (hq : q < 8)
    (hm : s.emask.getLsbD q = false) :
    (s.advance.port.getLsbD q = true → s.held1.getLsbD q = true) ∧ (s.advance.port.getLsbD q = false → s.held0.getLsbD q = true) := by
  have hh := held_getLsbD h hq
  obtain ⟨hp, -⟩ | ⟨u, level, he, -, hmask, h1, h0, -⟩ := advance_cases s
  · rwa [hp]
  · rw [he, portRmw_unselected u level hq (by rw [hmask, hm]), ← h1, ← h0]
    refine racedPort_held u q ?_
    rw [h1, h0]
    cases hb : s.port.getLsbD q with
    | true => exact .inl (hh.1 hb)
    | false => exact .inr (hh.2 hb)

/-- A step of the core that draws no free value leaves the port as it is (R49, R51). -/
theorem advance_port_of_draws {s : State} (h : s.advance.draws = s.draws) : s.advance.port = s.port := by
  obtain ⟨hp, -⟩ | ⟨u, level, he, -, -, -, -, hd⟩ := advance_cases s
  · exact hp
  · rw [he, State.portRmw_draws, hd] at h
    omega

theorem popped_world (s : State) (ws : List WorldWrite) : s.popped.world ws = (s.world ws).popped := by
  rw [State.popped, world_withInbox, State.popped, world_inbox]

/-- Settles O47: the three cases of a port write bit by bit, and the core's step after the writes of the outside. -/
theorem portWriteTakesHeldValues : Obligations.PortWriteTakesHeldValues := by
  refine ⟨fun s level q hq => ⟨portRmw_selected s level, fun hm hh => ?_, fun hu hm => portRmw_unselected_unraced hu level hq hm⟩, ?_⟩
  · rw [portRmw_unselected s level hq hm]
    exact racedPort_held s q hh
  · intro s t e he hp ht hf
    obtain ⟨hs, hc, -⟩ := step_cases ht
    obtain ⟨-, -, -, -, rfl⟩ := step_running_unfaulted he ((nextPhase_ne_idle hs hc).mp hp) ht hf
    rw [popped_world]
    cases e.stall with
    | true => exact ⟨rfl, rfl, fun _ => rfl, fun h1 h0 q hq _ => held_getLsbD (world_held ⟨h1, h0⟩ e.writes) hq⟩
    | false =>
      refine ⟨advance_sources _, advance_mem _, fun hd => ?_, fun h1 h0 q hq hm => ?_⟩
      · exact advance_port_of_draws (s := (s.world e.writes).popped) (hd.trans (world_draws s e.writes).symm)
      · exact advance_unselected_held (s := (s.world e.writes).popped) (world_held ⟨h1, h0⟩ e.writes) hq (by simpa using hm)

/-! ### The writes of the outside -/

section
variable {s : State} {r : Ref} {x : Source}

/-- What stands at each reference after a write of an element (R37). -/
theorem worldWrite_element_lookup (h : lookupKey r s.sources = some x) (k : Nat) (e : Element) (j : Ref) :
    lookupKey j (s.worldWrite (.element r k e)).sources = if r = j then some (x.setElement k e) else lookupKey j s.sources := by
  simp only [State.worldWrite, h, lookupKey_insertKey]

/-- A write of an element where no source stands has no effect. -/
theorem worldWrite_element_of_none (h : lookupKey r s.sources = none) (k : Nat) (e : Element) : s.worldWrite (.element r k e) = s := by
  simp only [State.worldWrite, h]

/-- A write of an element leaves the sources at other references. -/
theorem worldWrite_element_lookup_ne {j : Ref} (hj : j ≠ r) (k : Nat) (e : Element) :
    lookupKey j (s.worldWrite (.element r k e)).sources = lookupKey j s.sources := by
  cases h : lookupKey r s.sources with
  | none => rw [worldWrite_element_of_none h]
  | some x => rw [worldWrite_element_lookup h, if_neg hj.symm]

end

/-- A write of an element reaches the record sources only. -/
theorem worldWrite_element_frame (s : State) (r : Ref) (k : Nat) (e : Element) :
    ∃ so, SameButHidden { s with sources := so } (s.worldWrite (.element r k e)) := by
  cases h : lookupKey r s.sources with
  | none =>
    rw [worldWrite_element_of_none h]
    exact ⟨s.sources, .refl s⟩
  | some x =>
    simp only [State.worldWrite, h]
    exact ⟨_, .refl _⟩

/-- A write to the core's port sets the masked bits and adds every bit's new value to what it has held (R50). -/
theorem worldWrite_port_bits (s : State) (m v : Byte) :
    ∃ port held1 held0, SameButHidden { s with port := port, held1 := held1, held0 := held0 } (s.worldWrite (.port s.cfg.defaultPort m v)) ∧
      ∀ q, q < 8 → port.getLsbD q = (if m.getLsbD q then v.getLsbD q else s.port.getLsbD q) ∧
        held1.getLsbD q = (s.held1.getLsbD q || port.getLsbD q) ∧ held0.getLsbD q = (s.held0.getLsbD q || !port.getLsbD q) := by
  simp only [State.worldWrite, if_true]
  refine ⟨_, _, _, .refl _, fun q hq => ⟨?_, BitVec.getLsbD_or, by simp [hq]⟩⟩
  cases hm : m.getLsbD q <;> simp [hm, hq, -BitVec.getLsbD_eq_getElem]

/-- Settles O48, one form of write after the other. -/
theorem outsideWritesLandAsGiven : Obligations.OutsideWritesLandAsGiven := by
  refine ⟨.refl, fun s w ws => .refl _, fun s p m v => ⟨?_, fun hp => ?_⟩, fun s r k x => ?_, fun s r x => ?_, fun s r => ?_,
    fun s a v => ?_⟩
  · rintro rfl
    exact worldWrite_port_bits s m v
  · rw [State.worldWrite, if_neg hp]
    exact .refl s
  · have put : ∀ y, lookupKey r s.sources = some y →
        lookupKey r (s.worldWrite (.element r k x)).sources = some (y.setElement k x) := fun y h => by
      rw [worldWrite_element_lookup h, if_pos rfl]
    refine ⟨worldWrite_element_frame s r k x, fun j hj => worldWrite_element_lookup_ne hj k x, ?_, ?_, ?_, ?_⟩ <;>
    · rintro l v h rfl
      exact put _ h
  · refine ⟨⟨_, .refl _⟩, (lookupKey_insertKey r r x s.sources).trans (if_pos rfl), fun j hj => ?_⟩
    exact (lookupKey_insertKey r j x s.sources).trans (if_neg hj.symm)
  · exact ⟨⟨_, .refl _⟩, lookupKey_eraseKey_self, fun j hj => lookupKey_eraseKey_ne hj.symm s.sources⟩
  · exact ⟨⟨_, .refl _⟩, fun h => readByte_writeByte_self h a v, fun b hb => readByte_writeByte_ne hb.symm s.mem v⟩

end Sys2Proof.Machine
end

section
/-! The run-time conditions `PinConflict` and `SourceModified` (R41, R50, R131, R132): which writes meet them, and what a cycle then
leaves. -/
namespace Sys2Proof.Machine

/-! ### What a cycle of a running command records (R114) -/

theorem popped_of_inbox {s : State} {x : Event} {rest : List Event} (h : s.inbox = x :: rest) : s.popped = { s with inbox := rest } := by
  rw [State.popped, h, List.tail_cons]

section
variable {s : State} {e : CycleInput}

theorem runCycle_pinConflict (hp : (e.stall && s.beforeLatch) = false) (hw : ∃ w ∈ e.writes, s.hitsPin w = true) :
    s.runCycle e = s.raise (.pinConflict s.clk) := by
  rw [State.runCycle, hp, if_neg Bool.false_ne_true, if_pos (List.any_eq_true.mpr hw)]

theorem runCycle_sourceModified (hp : (e.stall && s.beforeLatch) = false) (hw : e.writes.any s.hitsPin = false) {k : Nat}
    (hk : e.writes.findSome? s.hitsElement = some k) : s.runCycle e = s.raise (.sourceModified k s.clk) := by
  simp only [State.runCycle, hp, hw, hk, Bool.false_eq_true, if_false]

theorem runCycle_unfaulted (hf : s.fault = .none) (hp : (e.stall && s.beforeLatch) = false) (hw : e.writes.any s.hitsPin = false)
    (hk : e.writes.findSome? s.hitsElement = none) : (s.runCycle e).fault = .none := by
  simp only [State.runCycle, hp, hw, hk, Bool.false_eq_true, if_false]
  split <;> simp [hf]

end

/-- A write reaches the selected pin through the core's port and a mask with the selected bit (R50). -/
theorem hitsPin_port {s : State} {p : Nat} {m v : Byte} : s.hitsPin (.port p m v) = true ↔ p = s.cfg.defaultPort ∧ m &&& s.emask ≠ 0 :=
  (Bool.and_eq_true_iff).trans (and_congr decide_eq_true_iff decide_eq_true_iff)

/-- Settles O43: the write is among those of the cycle, so the second run-time condition is met; in IDLE none is asked for. -/
theorem selectedPinWriteFaults : Obligations.SelectedPinWriteFaults := by
  intro s e rest m v hf hc hi hn hw hm
  refine ⟨fun hp hst => .of_eq ?_, fun hp => ?_⟩
  · have hpre : (e.stall && s.popped.beforeLatch) = false := by
      rw [Bool.and_eq_false_imp, show s.popped.beforeLatch = s.beforeLatch from rfl, ← Bool.not_eq_true,
        ← nextPhase_sending_iff hf hc]
      exact hst
    have hpin : s.popped.hitsPin (.port s.cfg.defaultPort m v) = true := hitsPin_port.mpr ⟨rfl, hm⟩
    rw [step_running hf hc (by rw [State.event, hi]) hn ((nextPhase_ne_idle hf hc).mp hp), runCycle_pinConflict hpre ⟨_, hw, hpin⟩,
      popped_of_inbox hi]
    rfl
  · obtain ⟨t, ht, hft⟩ := (step_to_idle hf hc hi hn ((nextPhase_idle_iff hf hc).mp hp)).fault
    exact ⟨t, ht, by rw [hft, world_fault, hf]⟩

/-! ### Which writes reach an element that is being sent (R41, R43) -/

/-- The addresses of element `k` of `c` elements of `n` bytes from `b` lie among theirs, and tell `k`. -/
theorem element_addresses (b : Nat) {k j n c : Nat} (hk : k < c) (hj : j < n) :
    (b ≤ b + n * k + j ∧ b + n * k + j < b + n * c) ∧ (b + n * k + j - b) / n = k := by
  have hnext : n * k + n ≤ n * c := Nat.mul_le_mul_left n hk
  refine ⟨⟨by omega, by omega⟩, ?_⟩
  rw [Nat.add_assoc, Nat.add_sub_cancel_left, Nat.mul_add_div (by omega), Nat.div_eq_of_lt hj, Nat.add_zero]

section
variable {s : State} {f : Fmt} {n : Nat} {a : Nat}

/-- A byte written inside element `k` of a source in memory reaches element `k`. -/
theorem hitsElement_byte_inside (h : lookupKey s.src s.sources = some (.mem f n)) {k j : Nat} (hk : k < s.count.toNat)
    (hj : j < elementSize f) (v : Byte) : s.hitsElement (.byte (s.src + elementSize f * k + j) v) = some k := by
  obtain ⟨hin, hdiv⟩ := element_addresses s.src hk hj
  simp only [State.hitsElement, h, if_pos hin, hdiv]

/-- A byte of memory reaches no element exactly when it lies outside the elements being sent. -/
theorem hitsElement_byte_eq_none (h : lookupKey s.src s.sources = some (.mem f n)) (v : Byte) :
    s.hitsElement (.byte a v) = none ↔ a < s.src ∨ s.src + elementSize f * s.count.toNat ≤ a := by
  simp only [State.hitsElement, h, ite_eq_right_iff, reduceCtorEq, imp_false, not_and_or, Nat.not_le, Nat.not_lt]

/-- A byte of memory reaches no element of a source that is not laid out there. -/
theorem hitsElement_byte_of_typed (h : ∀ f n, lookupKey s.src s.sources ≠ some (.mem f n)) (v : Byte) :
    s.hitsElement (.byte a v) = none := by
  simp only [State.hitsElement]

end

/-- A cycle of a running command whose one write leaves the selected pin alone: what it records follows from the element the write
reaches. -/
theorem step_one_write {s : State} {rest : List Event} {w : WorldWrite} (hf : s.fault = .none) (hc : s.cfg.WellFormed)
    (hi : s.inbox = .cycle { writes := [w] } :: rest) (hp : s.nextPhase ≠ .idle) (hw : s.hitsPin w = false) :
    (∀ k, s.hitsElement w = some k → Answers (step s) { s with inbox := rest, fault := .fault (.sourceModified k s.clk) }) ∧
      (s.hitsElement w = none → ∃ t, step s = .next t ∧ t.fault = .none) := by
  have hpin : [w].any s.popped.hitsPin = false := by
    simpa using (show s.popped.hitsPin w = s.hitsPin w by cases w <;> rfl).trans hw
  have hel : [w].findSome? s.popped.hitsElement = s.hitsElement w := by
    rw [show s.hitsElement w = s.popped.hitsElement w by cases w <;> rfl]
    cases h : s.popped.hitsElement w <;> simp [h]
  rw [step_running hf hc (by rw [State.event, hi]) rfl ((nextPhase_ne_idle hf hc).mp hp)]
  refine ⟨fun k hk => .of_eq ?_, fun hk => ⟨_, rfl, runCycle_unfaulted hf rfl hpin (hel.trans hk)⟩⟩
  rw [runCycle_sourceModified rfl hpin (hel.trans hk), popped_of_inbox hi]
  rfl

/-- Settles O44, one form of write after the other. -/
theorem sentElementWriteFaults : Obligations.SentElementWriteFaults := by
  intro s rest w hf hc hi hp
  refine ⟨?_, fun r hw => ?_, ?_⟩
  · rintro r k x rfl
    obtain ⟨hits, misses⟩ := step_one_write hf hc hi hp rfl
    exact ⟨fun hr hk => hits k (if_pos ⟨hr, hk⟩), fun h => misses (if_neg fun ⟨hr, hk⟩ => h.elim (· hr) (Nat.not_le.mpr hk))⟩
  · have hel : s.hitsElement w = if r = s.src ∧ 0 < s.count.toNat then some 0 else none := by
      obtain rfl | ⟨x, rfl⟩ := hw <;> rfl
    have hpin : s.hitsPin w = false := by
      obtain rfl | ⟨x, rfl⟩ := hw <;> rfl
    obtain ⟨hits, misses⟩ := step_one_write hf hc hi hp hpin
    rw [hel] at hits misses
    exact ⟨fun hr hk => hits 0 (if_pos ⟨hr, hk⟩), fun h => misses (if_neg fun ⟨hr, hk⟩ => h.elim (· hr) hk.ne')⟩
  · rintro a v rfl
    obtain ⟨hits, misses⟩ := step_one_write hf hc hi hp rfl
    refine ⟨fun f n hx => ⟨?_, fun ha => misses ((hitsElement_byte_eq_none hx v).mpr ha)⟩,
      fun hx => misses (hitsElement_byte_of_typed hx v)⟩
    rintro k j hk hj rfl
    exact hits k (hitsElement_byte_inside hx hk hj v)

end Sys2Proof.Machine
end

section
/-! The record source during a run: the core never writes it (R40), and writes that reach no sent element leave what is being sent (R41,
R42). -/
namespace Sys2Proof.Machine

/-! ### The core writes no record (R40) -/

theorem runCycle_records {s : State} {e : CycleInput} (h : e.writes = []) :
    (s.runCycle e).sources = s.sources ∧ (s.runCycle e).mem = s.mem := by
  obtain ⟨r, hr⟩ | ⟨-, -, -, hr⟩ := runCycle_cases s e
  · rw [hr]
    exact ⟨rfl, rfl⟩
  · rw [hr, h, world_nil]
    cases e.stall <;> simp

theorem clockEdge_records {s : State} {e : CycleInput} (h : e.writes = []) :
    (s.clockEdge e).sources = s.sources ∧ (s.clockEdge e).mem = s.mem := by
  unfold State.clockEdge
  split
  · exact ⟨rfl, rfl⟩
  · split
    · exact runCycle_records h
    · rw [h]
      exact ⟨rfl, rfl⟩

theorem present_records {s t : State} {c : Command} (h : present c s = .next t) : t.sources = s.sources ∧ t.mem = s.mem := by
  obtain ⟨x, -, rfl⟩ | ⟨-, i, -, rfl⟩ := present_cases h <;> exact ⟨rfl, rfl⟩

/-- Settles O50: neither the start of a cycle nor a presentation nor the core's part of the clock edge writes a record. -/
theorem recordsAreNeverWritten : Obligations.RecordsAreNeverWritten := by
  intro s t e he hw ht
  obtain ⟨hf, hc, -⟩ := step_cases ht
  rw [step_cycle hf hc he] at ht
  obtain ⟨v, rfl, hv⟩ := cycle_cases ht
  obtain ⟨hs, hm⟩ := clockEdge_records (s := v) hw
  have key : v.sources = s.sources ∧ v.mem = s.mem := by
    obtain ⟨-, rfl⟩ | ⟨c, -, hp⟩ := hv
    · simp
    · simpa using present_records hp
  exact ⟨hs.trans key.1, hm.trans key.2⟩

/-! ### What is being sent outlasts every write that reaches none of it (R41, R42) -/

theorem Source.kind_setElement (x : Source) (k : Nat) (e : Element) : (x.setElement k e).kind = x.kind := by
  cases x <;> cases e <;> rfl

theorem Source.eq_mem_of_setElement {x : Source} {k : Nat} {e : Element} {f : Fmt} {n : Nat} (h : x.setElement k e = .mem f n) :
    x = .mem f n := by
  unfold Source.setElement at h
  split at h
  case h_5 => exact h
  all_goals cases h

/-- A write of an element leaves the other elements of the source. -/
theorem elementOf_setElement_ne {k j : Nat} (h : k ≠ j) (c : Config) (m : List Host.Cell) (r : Ref) (x : Source) (e : Element) :
    elementOf c m r (x.setElement k e) j = elementOf c m r x j := by
  unfold Source.setElement
  split
  case h_5 => rfl
  all_goals exact congrArg (Option.map _) (List.getElem?_set_ne h)

/-- An element laid out in memory is read from its own addresses only (R43). -/
theorem memElement_congr {m m' : List Host.Cell} {f : Fmt} {base k : Nat}
    (h : ∀ i, i < elementSize f → readByte m (base + elementSize f * k + i) = readByte m' (base + elementSize f * k + i)) (c : Config) :
    memElement c m f base k = memElement c m' f base k := by
  cases f with
  | raw => simp only [memElement, h 0 (by decide)]
  | rgb => simp only [memElement, h _ c.rgbLayout.r.isLt, h _ c.rgbLayout.g.isLt, h _ c.rgbLayout.b.isLt]
  | rgbw =>
    simp only [memElement, h _ c.rgbwLayout.r.isLt, h _ c.rgbwLayout.g.isLt, h _ c.rgbwLayout.b.isLt, h _ c.rgbwLayout.w.isLt]
  | pack4 => simp only [memElement, h 0 (by decide), h 1 (by decide)]

/-- `t` still has the command of `s` and every record it sends, and a write that reached none of them still reaches none. -/
structure StillSent (s t : State) : Prop extends SameCommand s t where
  records : ∀ f k, k < s.count.toNat → t.readRecord f s.src k = s.readRecord f s.src k
  unhit : ∀ w, s.hitsElement w = none → t.hitsElement w = none

/-- The source `y` at `SRC` in `t` has the sent elements of the source `x` at `SRC` in `s`. -/
structure SameSent (s t : State) (x y : Source) : Prop where
  kind : y.kind = x.kind
  laidOut : ∀ f n, y = .mem f n → x = .mem f n
  elements : ∀ k, k < s.count.toNat → elementOf t.cfg t.mem s.src y k = elementOf s.cfg s.mem s.src x k

namespace StillSent

variable {s t : State}

theorem trans {u : State} (h : StillSent s t) (k : StillSent t u) : StillSent s u where
  toSameCommand := h.toSameCommand.trans k.toSameCommand
  records f j hj := by
    rw [← h.records f j hj, ← h.src]
    exact k.records f j (by rwa [h.count])
  unhit w hw := k.unhit w (h.unhit w hw)

/-- With `COUNT = 0` nothing is sent. -/
theorem of_count_eq_zero (hc : SameCommand s t) (h : s.count.toNat = 0) : StillSent s t where
  toSameCommand := hc
  records f k hk := by omega
  unhit w _ := by
    rw [← hc.count] at h
    cases w with
    | byte a v =>
      simp only [State.hitsElement, h, Nat.mul_zero, Nat.add_zero]
      split
      · exact if_neg fun ⟨h1, h2⟩ => Nat.not_lt.mpr h1 h2
      · rfl
    | _ => simp [State.hitsElement, h]

/-- It is enough that what stands at `SRC` has the sent elements it had. -/
theorem of_source (hc : SameCommand s t)
    (h : lookupKey s.src s.sources = none ∧ lookupKey s.src t.sources = none ∨
      ∃ x y, lookupKey s.src s.sources = some x ∧ lookupKey s.src t.sources = some y ∧ SameSent s t x y) : StillSent s t where
  toSameCommand := hc
  records f k hk := by
    obtain ⟨hs, ht⟩ | ⟨x, y, hs, ht, hxy⟩ := h
    · rw [readRecord_of_sourceAt_none (sourceAt_of_none hs f), readRecord_of_sourceAt_none (sourceAt_of_none ht f)]
    · by_cases hf : x.kind = f
      · subst hf
        rw [readRecord_of_sourceAt (sourceAt_of_kind hs), readRecord_of_sourceAt (hxy.kind ▸ sourceAt_of_kind ht), hxy.elements k hk]
      · rw [readRecord_of_sourceAt_none (sourceAt_of_kind_ne hs hf),
          readRecord_of_sourceAt_none (sourceAt_of_kind_ne ht (hxy.kind ▸ hf))]
  unhit w hw := by
    cases w with
    | byte a v =>
      rw [← hc.src] at h
      obtain ⟨-, ht⟩ | ⟨x, y, hs, ht, hxy⟩ := h
      · exact hitsElement_byte_of_typed (by simp [ht]) v
      · by_cases hy : ∃ f n, y = .mem f n
        · obtain ⟨f, n, rfl⟩ := hy
          obtain rfl := hxy.laidOut f n rfl
          rw [hc.src] at hs
          rw [hitsElement_byte_eq_none hs] at hw
          rwa [hitsElement_byte_eq_none ht, hc.src, hc.count]
        · refine hitsElement_byte_of_typed (fun f n hm => hy ⟨f, n, ?_⟩) v
          rwa [ht, Option.some.injEq] at hm
    | port p m v => rfl
    | _ => simpa only [State.hitsElement, hc.src, hc.count] using hw

/-- It is enough that the same stands at `SRC`, and memory is the same. -/
theorem of_lookup (hc : SameCommand s t) (hl : lookupKey s.src t.sources = lookupKey s.src s.sources) (hm : t.mem = s.mem) :
    StillSent s t := by
  refine of_source hc ?_
  rw [hl]
  cases lookupKey s.src s.sources with
  | none => exact .inl ⟨rfl, rfl⟩
  | some x => exact .inr ⟨x, x, rfl, rfl, rfl, fun _ _ => id, fun k _ => by rw [hc.cfg, hm]⟩

/-- The bytes of the sent elements are the same. -/
theorem recordBytes_eq (h : StillSent s t) (f : Fmt) {k : Nat} (hk : k < s.count.toNat) :
    t.recordBytes f s.src k = s.recordBytes f s.src k := by
  rw [State.recordBytes, h.records f k hk, h.cfg, State.recordBytes]

/-- The stream is the same (R42, R86). -/
theorem streamOf_eq (h : StillSent s t) (f : Fmt) : t.streamOf f s.src s.count = s.streamOf f s.src s.count :=
  List.flatMap_congr fun _ hk => h.recordBytes_eq f (List.mem_range.mp hk)

/-- The sent elements still lie within the extent. -/
theorem count_le_extent (h : StillSent s t) {f : Fmt} (hx : s.count.toNat ≤ s.extent f s.src) : s.count.toNat ≤ t.extent f s.src := by
  by_contra hlt
  obtain ⟨e, he, -⟩ := readRecord_of_lt_extent (s := s) (f := f) (r := s.src) (k := t.extent f s.src) (by omega)
  rw [← h.records f _ (by omega), readRecord_of_extent_le (Nat.le_refl _)] at he
  cases he

end StillSent

/-- A byte that reaches no sent element leaves every sent element in memory. -/
theorem elementOf_writeByte {s : State} {a : Nat} {v : Byte} {x : Source} (hx : lookupKey s.src s.sources = some x)
    (h : s.hitsElement (.byte a v) = none) {k : Nat} (hk : k < s.count.toNat) :
    elementOf s.cfg (writeByte s.mem a v) s.src x k = elementOf s.cfg s.mem s.src x k := by
  cases x with
  | mem f n =>
    rw [hitsElement_byte_eq_none hx] at h
    have hmem := memElement_congr (m := writeByte s.mem a v) (m' := s.mem) (f := f) (base := s.src) (k := k) (fun i hi => by
      obtain ⟨hin, -⟩ := element_addresses s.src hk hi
      exact readByte_writeByte_ne (fun ha => by subst ha; exact h.elim (Nat.not_lt.mpr hin.1) (Nat.not_le.mpr hin.2)) s.mem v) s.cfg
    simp only [elementOf, hmem]
  | _ => rfl

theorem worldWrite_element_mem (s : State) (r : Ref) (k : Nat) (e : Element) : (s.worldWrite (.element r k e)).mem = s.mem := by
  obtain ⟨_, _, _, _, _, _, _, _, h⟩ := worldWrite_element_frame s r k e
  rw [h]

/-- A write that reaches no sent element leaves all that is being sent (R41). -/
theorem worldWrite_stillSent {s : State} {w : WorldWrite} (h : s.hitsElement w = none) : StillSent s (s.worldWrite w) := by
  have hc : SameCommand s (s.worldWrite w) := world_sameCommand s [w]
  by_cases hn : s.count.toNat = 0
  · exact .of_count_eq_zero hc hn
  have elsewhere : ∀ r, (if r = s.src ∧ 0 < s.count.toNat then some 0 else none) = (none : Option Nat) → r ≠ s.src := fun r h hr => by
    simp [hr] at h
    omega
  cases w with
  | port p m v =>
    have key : (s.worldWrite (.port p m v)).sources = s.sources ∧ (s.worldWrite (.port p m v)).mem = s.mem := by
      simp only [State.worldWrite]
      split <;> exact ⟨rfl, rfl⟩
    exact .of_lookup hc (by rw [key.1]) key.2
  | element r k e =>
    by_cases hr : r = s.src
    · subst hr
      have hk : k ≥ s.count.toNat := by simpa [State.hitsElement] using h
      refine .of_source hc ?_
      cases hx : lookupKey s.src s.sources with
      | none => exact .inl ⟨rfl, by rw [worldWrite_element_of_none hx, hx]⟩
      | some x =>
        refine .inr ⟨x, x.setElement k e, rfl, by rw [worldWrite_element_lookup hx, if_pos rfl], x.kind_setElement k e,
          fun f n => Source.eq_mem_of_setElement, fun j hj => ?_⟩
        rw [hc.cfg, worldWrite_element_mem, elementOf_setElement_ne (by omega)]
    · exact .of_lookup hc (worldWrite_element_lookup_ne (Ne.symm hr) k e) (worldWrite_element_mem s r k e)
  | place r x => exact .of_lookup hc ((lookupKey_insertKey r s.src x s.sources).trans (if_neg (elsewhere r h))) rfl
  | drop r => exact .of_lookup hc (lookupKey_eraseKey_ne (elsewhere r h) s.sources) rfl
  | byte a v =>
    refine .of_source hc ?_
    cases hx : lookupKey s.src s.sources with
    | none => exact .inl ⟨rfl, hx⟩
    | some x => exact .inr ⟨x, x, rfl, hx, rfl, fun _ _ => id, fun k hk => elementOf_writeByte hx h hk⟩

/-- Writes that reach no sent element leave all that is being sent (R41). -/
theorem world_stillSent {s : State} {ws : List WorldWrite} (h : ∀ w ∈ ws, s.hitsElement w = none) : StillSent s (s.world ws) := by
  induction ws generalizing s with
  | nil => exact .of_lookup (.refl s) rfl rfl
  | cons w ws ih =>
    obtain ⟨hw, hws⟩ := List.forall_mem_cons.mp h
    have hfirst := worldWrite_stillSent hw
    exact hfirst.trans (ih fun v hv => hfirst.unhit v (hws v hv))

end Sys2Proof.Machine
end

section
/-! The invariant of every step (R41, R42, R50, R84): acceptance establishes what is known of a running command, and each part of a clock
cycle keeps it. -/
namespace Sys2Proof.Machine

/-- What is known of a running command stays known while what it sends is still there. -/
theorem RunningOk.of_stillSent {s t : State} (h : RunningOk s) (hs : StillSent s t) (hp : t.PortHeld) : RunningOk t := by
  obtain ⟨⟨i, hd, hst, hx, hem⟩, hone, hshort, -, -⟩ := h
  obtain ⟨-, hsrc, hcount, -⟩ := decode_inv hd
  have hstream : t.streamFor i = s.streamFor i := by
    rw [State.streamFor, State.streamFor, ← hsrc, ← hcount]
    exact hs.streamOf_eq i.fmt
  have hmask : t.maskOf i = s.maskOf i := by rw [State.maskOf, State.effectiveMask, hs.cfg]; rfl
  refine ⟨⟨i, ?_, ?_, ?_, ?_⟩, ?_, ?_, hp.1, hp.2⟩
  · rw [hs.cmd, hs.src, hs.count, hs.mask, hd]
  · rw [hs.stream, hst, hstream]
  · rw [hs.count, hs.src]
    exact hs.count_le_extent hx
  · rw [hs.emask, hem, hmask]
  · rw [hs.emask, hone]
  · rw [hs.stream]
    exact hshort

/-- A change outside the command, the records and memory keeps the invariant if it starts no command and the port holds only values
counted as held. -/
theorem Inv.of_same {s t : State} (h : Inv s) (hc : SameCommand s t) (hs : t.sources = s.sources) (hm : t.mem = s.mem)
    (hrun : t.phase ≠ .idle → s.phase ≠ .idle) (hp : s.PortHeld → t.PortHeld) : Inv t where
  memory := by rw [hm]; exact h.memory
  sources := by rw [hs]; exact h.sources
  running ht :=
    have hok := h.running (hrun ht)
    hok.of_stillSent (.of_lookup hc (by rw [hs]) hm) (hp ⟨hok.heldHigh, hok.heldLow⟩)

theorem Inv.withFault {s : State} (h : Inv s) (x : FaultReg) : Inv { s with fault := x } :=
  h.of_same ⟨rfl, rfl, rfl, rfl, rfl, rfl, rfl⟩ rfl rfl id id

theorem Inv.popped {s : State} (h : Inv s) : Inv s.popped :=
  h.of_same ⟨rfl, rfl, rfl, rfl, rfl, rfl, rfl⟩ rfl rfl id id

theorem Inv.finish {s : State} (h : Inv s) : Inv s.finish := by
  refine h.of_same (finish_sameCommand s) (finish_sources s) (finish_mem s) (mt fun hp => ?_) fun hp => ?_
  · rwa [finish_of_idle hp]
  · simpa only [State.PortHeld, finish_port, finish_held1, finish_held0] using hp

/-- One more cycle counted. -/
theorem Inv.tick {s : State} (h : Inv s) (n : Nat) : Inv { s with clk := n } :=
  h.of_same ⟨rfl, rfl, rfl, rfl, rfl, rfl, rfl⟩ rfl rfl id id

/-- The core's step keeps the invariant. -/
theorem Inv.advance {s : State} (h : Inv s) (hb : s.phase ≠ .idle) : Inv s.advance :=
  h.of_same (advance_sameCommand s) (advance_sources s) (advance_mem s) (fun _ => hb) advance_held

/-- The writes of the outside keep the invariant: in IDLE all of them, and during a run those that reach no sent element. -/
theorem Inv.world {s : State} (h : Inv s) {ws : List WorldWrite} (hw : s.phase ≠ .idle → ∀ w ∈ ws, s.hitsElement w = none) :
    Inv (s.world ws) := by
  obtain ⟨hm, hs⟩ := world_wf h.memory h.sources ws
  refine ⟨hm, hs, fun hp => ?_⟩
  rw [world_phase] at hp
  have hok := h.running hp
  exact hok.of_stillSent (world_stillSent (hw hp)) (world_held ⟨hok.heldHigh, hok.heldLow⟩ ws)

theorem Inv.runCycle {s : State} (h : Inv s) (hb : s.phase ≠ .idle) (e : CycleInput) : Inv (s.runCycle e) := by
  obtain ⟨r, hr⟩ | ⟨-, -, hw, hr⟩ := runCycle_cases s e
  · rw [hr]
    exact h.withFault _
  · have hworld : Inv (s.world e.writes) := h.world fun _ => List.findSome?_eq_none_iff.mp hw
    rw [hr]
    refine Inv.tick ?_ _
    split
    · exact hworld
    · exact hworld.advance (by simpa using hb)

theorem Inv.clockEdge {s : State} (h : Inv s) (e : CycleInput) : Inv (s.clockEdge e) := by
  unfold State.clockEdge
  split
  · exact h
  · split
    · exact h.runCycle (by simpa [State.busy] using ‹s.busy = true›) e
    · exact h.world fun hp => absurd (by simpa [State.busy] using hp) ‹¬ s.busy = true›

/-- The fields of a command's word, for each of the six (R56 to R60). -/
theorem encode_fields (i : Instr) : Laws.Fields.Statement i :=
  match i with
  | .transmitRaw r n m => Laws.Fields.transmitRaw r n m
  | .transmitRgb r n m => Laws.Fields.transmitRgb r n m
  | .transmitRgbw r n m => Laws.Fields.transmitRgbw r n m
  | .transmit4bpp r n m => Laws.Fields.transmit4bpp r n m
  | .transmitRawPin r n m => Laws.Fields.transmitRawPin r n m
  | .transmitRgbPin r n m => Laws.Fields.transmitRgbPin r n m

/-- A command's own word decodes to it (R56 to R60). -/
theorem decode_encode (i : Instr) : decode (encode i) = .ok i := by
  obtain ⟨hr, hf, hp, hs, hc, hm⟩ := encode_fields i
  rw [decode, if_neg (not_not.mpr hr), hf, hp, hs, hc, hm]
  cases i <;> rfl

/-- A presentation that latches a command found it acceptable (R84). -/
theorem present_latches {s t : State} {c : Command} (h : present c s = .next t) :
    (∃ x, t = { s with fault := x }) ∨
      ∃ i, Accepts s i ∧ t = s.latch i.fmt (opcode i) i.src i.count i.mask (s.maskOf i) := by
  obtain ⟨x, -, ht⟩ | ⟨hb, i, hd, -⟩ := present_cases h
  · exact .inl ⟨x, ht⟩
  · obtain ⟨hf, -⟩ := whenRunning_next (show whenRunning s _ = .next t from h)
    rw [present_checks hf hb hd] at h
    obtain rfl := Host.Outcome.next.inj h
    obtain ⟨x, -, hx⟩ | ⟨hm, hl, he, hlatch⟩ := check_cases s i.fmt (opcode i) i.pinSel i.src i.count i.mask
    · exact .inl ⟨x, hx⟩
    · exact .inr ⟨i, ⟨hf, by simpa [State.busy] using hb, hm, hl, he⟩, hlatch⟩

/-- Acceptance establishes what is known of a running command (R84). -/
theorem Inv.latch {s : State} (h : Inv s) {i : Instr} (ha : Accepts s i) :
    Inv (s.latch i.fmt (opcode i) i.src i.count i.mask (s.maskOf i)) where
  memory := h.memory
  sources := h.sources
  running _ :=
    { decodes := ⟨i, decode_encode i, rfl, ha.inExtent, rfl⟩
      oneBit := ha.oneBit
      short := (length_streamOf ha.inExtent).trans_le ha.short
      heldHigh := BitVec.and_not_self _
      heldLow := BitVec.and_not_self _ }

theorem Inv.present {s t : State} {c : Command} (h : Inv s) (ht : present c s = .next t) : Inv t := by
  obtain ⟨x, rfl⟩ | ⟨i, ha, rfl⟩ := present_latches ht
  · exact h.withFault x
  · exact h.latch ha

theorem Inv.cycle {s t : State} {e : CycleInput} (h : Inv s) (ht : cycle e s = .next t) : Inv t := by
  obtain ⟨v, rfl, ⟨-, rfl⟩ | ⟨c, -, hp⟩⟩ := cycle_cases ht
  · exact h.finish.clockEdge e
  · exact (h.finish.present hp).clockEdge e

/-- Settles O58: a reset keeps memory and the sources and ends the run, and each part of a clock cycle keeps the invariant. -/
theorem everyStepKeepsInv : Obligations.EveryStepKeepsInv := by
  intro s t h ht
  obtain ⟨-, -, ⟨-, rfl⟩ | ⟨e, -, hc⟩⟩ := step_cases ht
  · exact ⟨h.memory, h.sources, fun hp => absurd rfl hp⟩
  · exact h.popped.cycle hc

end Sys2Proof.Machine
end

section
/-! The encoding (R56 to R61, R69): decoding is the inverse of encoding, so the words that decode are those of the opcode map. -/
namespace Sys2Proof

/-- The words of the opcode map (R60) are exactly those that decode, each to the command it encodes with the operands presented. -/
theorem decode_eq_ok_iff {c : Command} {i : Instr} : decode c = .ok i ↔ encode i = c := by
  constructor
  · intro h
    obtain ⟨hcmd, hsrc, hcount, hmask⟩ := Machine.decode_inv h
    rw [encode, ← hcmd, ← hsrc, ← hcount, ← hmask]
  · rintro rfl
    exact Machine.decode_encode i

/-- A row of the opcode map (R60). -/
theorem decode_of_cmd {c : Command} {i : Instr} (hcmd : c.cmd = opcode i) (hsrc : c.src = i.src) (hcount : c.count = i.count)
    (hmask : c.mask = i.mask) : decode c = .ok i :=
  decode_eq_ok_iff.mpr (by rw [encode, ← hcmd, ← hsrc, ← hcount, ← hmask])

theorem opcode_mem (i : Instr) : opcode i ∈ [0x00#8, 0x01#8, 0x02#8, 0x03#8, 0x08#8, 0x09#8] := by
  cases i <;> simp [opcode]

/-- A word that is none of the opcode map's is reserved (R61): what decodes has a command's own word. -/
theorem decode_error_of_reserved {c : Command} (h : c.cmd ∉ [0x00#8, 0x01#8, 0x02#8, 0x03#8, 0x08#8, 0x09#8]) :
    ∃ x, decode c = .error x := by
  cases hd : decode c with
  | error x => exact ⟨x, rfl⟩
  | ok i => exact absurd ((Machine.decode_inv hd).1 ▸ opcode_mem i) h

/-- A pin is offered for the formats RAW and RGB only (R58). -/
theorem decode_pinNotOffered {c : Command} {w : Byte} (hw : c.cmd = w) (hr : rsvField w = 0b0000#4) (hp : pinSelField w = true)
    (hf : fmtOfBits (fmtField w) = some .rgbw ∨ fmtOfBits (fmtField w) = some .pack4) : decode c = .error (.pinNotOffered w) := by
  subst hw
  obtain hf | hf := hf <;> rw [decode, if_neg (not_not.mpr hr), hp, hf]

/-- The word of the generic form decodes to its expansion, or is reserved because it asks for a pin where none is offered (R58, R69). -/
theorem decode_encodeTransmit (t : RecordType) (r : Ref) (n : Half) (p : Option Byte) :
    decode (encodeTransmit t r n p) =
      (expandTransmit t r n p).elim (.error (.pinNotOffered (encodeTransmit t r n p).cmd)) .ok :=
  match t, p with
  | .rgb, none => Machine.decode_encode (.transmitRgb r n 0)
  | .rgb, some m => Machine.decode_encode (.transmitRgbPin r n m)
  | .rgbw, none => Machine.decode_encode (.transmitRgbw r n 0)
  | .rgbw, some _ => decode_pinNotOffered (w := 0x0A#8) rfl (by decide) (by decide) (by decide)
  | .packed, none => Machine.decode_encode (.transmit4bpp r n 0)
  | .packed, some _ => decode_pinNotOffered (w := 0x0B#8) rfl (by decide) (by decide) (by decide)

/-- Settles O2: both directions of `decode_eq_ok_iff`. -/
theorem decodeAndEncodeAgree : Obligations.DecodeAndEncodeAgree :=
  ⟨Machine.decode_encode, fun _ _ => decode_eq_ok_iff.mp⟩

/-- Settles O1: the six rows of the opcode map, and every other word. -/
theorem opcodeMapDecodes : Obligations.OpcodeMapDecodes := fun _ =>
  ⟨fun h => decode_of_cmd h rfl rfl rfl, fun h => decode_of_cmd h rfl rfl rfl, fun h => decode_of_cmd h rfl rfl rfl,
    fun h => decode_of_cmd h rfl rfl rfl, fun h => decode_of_cmd h rfl rfl rfl, fun h => decode_of_cmd h rfl rfl rfl,
    decode_error_of_reserved⟩

/-- Settles O3: six words are those of their commands, and `0x0A` is the pinned RGBW form's. -/
theorem commandWordsOfTheTable : Obligations.CommandWordsOfTheTable :=
  ⟨Machine.decode_encode (.transmitRaw 7 5 0), Machine.decode_encode (.transmitRgb 7 5 0), Machine.decode_encode (.transmitRgbw 7 5 0),
    Machine.decode_encode (.transmit4bpp 7 5 0), Machine.decode_encode (.transmitRawPin 7 5 0x80#8),
    Machine.decode_encode (.transmitRgbPin 7 5 0x80#8), decode_encodeTransmit .rgbw 7 5 (some 0x80#8), rfl⟩

/-- Settles O4: each row is `decode_encodeTransmit` for its record type, and the generic form decodes to nothing but its expansion. -/
theorem genericTransmitExpands : Obligations.GenericTransmitExpands := by
  intro r n m
  refine ⟨decode_encodeTransmit .rgb r n none, decode_encodeTransmit .rgb r n (some m), decode_encodeTransmit .rgbw r n none, rfl,
    decode_encodeTransmit .rgbw r n (some m), decode_encodeTransmit .packed r n none, rfl,
    decode_encodeTransmit .packed r n (some m), fun t p i => ?_⟩
  rw [decode_encodeTransmit]
  cases expandTransmit t r n p with
  | none => exact ⟨nofun, nofun⟩
  | some j => exact ⟨fun h => congrArg Except.ok (Option.some.inj h), fun h => congrArg some (Except.ok.inj h)⟩

end Sys2Proof

namespace Sys2Proof.Machine

/-- A cycle in which IDLE is given a command is the presentation, then the rest of the cycle (R84, R88). -/
theorem step_presents {s : State} {e : CycleInput} {rest : List Event} {c : Command} (hf : s.fault = .none) (hc : s.cfg.WellFormed)
    (hi : s.phase = .idle) (hin : s.inbox = .cycle e :: rest) (he : e.command = some c) :
    step s = onNext (present c { s with inbox := rest }) fun v => .next (v.clockEdge e) := by
  rw [step_cycle hf hc (by rw [State.event, hin]), cycle_some he, popped_of_inbox hin, finish_of_idle (s := { s with inbox := rest }) hi]

theorem clockEdge_of_faulted {s : State} (h : s.fault ≠ .none) (e : CycleInput) : s.clockEdge e = s := by
  simp [State.clockEdge, State.faulted, h]

/-- Settles O7: the word is refused, and the rest of the cycle does nothing in a state with the refusal recorded. -/
theorem reservedCommandChangesNothing : Obligations.ReservedCommandChangesNothing := by
  intro s e rest c hf hc hi hin he hw
  obtain ⟨x, hx⟩ := decode_error_of_reserved hw
  refine .of_eq ?_
  rw [step_presents hf hc hi hin he, present_reserved (s := { s with inbox := rest }) hf (by simp [State.busy, hi]) hx,
    onNext_next, clockEdge_of_faulted (by simp)]
  rfl

end Sys2Proof.Machine
end

section
/-! Two undisturbed runs side by side: once a command is latched, `CMD`, `SRC`, `COUNT` and `MASK` are not read again unless the outside
writes something (R41, R42), so two commands that latch the same stream and the same `EMASK` drive the same. -/
namespace Sys2Proof.Machine

/-- `s` with the command registers that only acceptance and the outside's writes read as they are in `u`. -/
def State.withOperands (s u : State) : State :=
  { s with cmd := u.cmd, src := u.src, count := u.count, mask := u.mask }

theorem finish_withOperands (s u : State) : (s.withOperands u).finish = s.finish.withOperands u := by
  unfold State.finish
  simp only [show (s.withOperands u).phase = s.phase from rfl, show (s.withOperands u).cfg = s.cfg from rfl,
    show (s.withOperands u).latchCnt = s.latchCnt from rfl]
  split <;> rfl

/-- The core's step reads the stream and `EMASK`, not the operands (R88). -/
theorem take_withOperands (s u : State) (m : Move) : (s.withOperands u).take m = (s.take m).withOperands u := by
  cases m with
  | continueCell o =>
    simp only [State.take, State.continueCell, show (s.withOperands u).cfg = s.cfg from rfl,
      show (s.withOperands u).wireBit = s.wireBit from rfl]
    split <;> rfl
  | _ => rfl

theorem advance_withOperands (s u : State) : (s.withOperands u).advance = s.advance.withOperands u :=
  take_withOperands s u s.nextMove

/-- A cycle without a stall and without writes from the outside does not read the operands. -/
theorem clockEdge_quiet_withOperands (s u : State) : (s.withOperands u).clockEdge {} = (s.clockEdge {}).withOperands u := by
  unfold State.clockEdge
  rw [show (s.withOperands u).faulted = s.faulted from rfl, show (s.withOperands u).busy = s.busy from rfl]
  split
  · rfl
  · split
    · rw [runCycle_quiet _ _ rfl rfl, runCycle_quiet _ _ rfl rfl, advance_withOperands]
      rfl
    · rfl

theorem clockEdge_quiet_inbox (s : State) : (s.clockEdge {}).inbox = s.inbox := by
  unfold State.clockEdge
  split
  · rfl
  · split
    · rw [runCycle_quiet _ _ rfl rfl]
      exact advance_inbox s
    · rfl

/-- A run with nothing to come does not read the operands. -/
theorem run_withOperands {s : State} (hin : s.inbox = []) (u : State) (n : Nat) :
    run n (s.withOperands u) = (run n s).map (·.withOperands u) := by
  induction n generalizing s with
  | zero => rfl
  | succ n ih =>
    by_cases hgo : s.fault = .none ∧ s.cfg.WellFormed
    · obtain ⟨hf, hc⟩ := hgo
      have hquiet : (s.finish.clockEdge {}).inbox = [] := by rw [clockEdge_quiet_inbox, finish_inbox, hin]
      simp only [run, step_quiet hc hf hin, step_quiet (u := s.withOperands u) hc hf hin, finish_withOperands,
        clockEdge_quiet_withOperands]
      exact ih hquiet
    · rw [run_succ_of_stopped hgo, run_succ_of_stopped (s := s.withOperands u) hgo]
      rfl

/-- What the machine drives, with PHASE and FAULT. -/
def State.driven (s : State) : Phase × Option Bool × Byte × FaultReg :=
  (s.phase, s.line, s.port, s.fault)

section
variable {s : State}

/-- The step that presents a command to an IDLE machine with nothing else to come (R84, R88). -/
theorem step_commandedBy (hf : s.fault = .none) (hc : s.cfg.WellFormed) (hi : s.phase = .idle) (i : Instr) :
    step (s.commandedBy i) = .next ((({ s with inbox := [] } : State).check i.fmt (opcode i) i.pinSel i.src i.count i.mask).clockEdge {}) := by
  have hidle : ({ s with inbox := [] } : State).busy = false := by simp [State.busy, hi]
  have hpresent := present_checks (s := { s with inbox := [] }) hf hidle (decode_encode i)
  rw [step_presents (s := s.commandedBy i) hf hc hi rfl rfl]
  exact congrArg (onNext · _) hpresent

theorem check_inbox (f : Fmt) (c : Byte) (p : Bool) (r : Ref) (n : Half) (m : Byte) : (s.check f c p r n m).inbox = s.inbox := by
  obtain ⟨x, -, h⟩ | ⟨-, -, -, h⟩ := check_cases s f c p r n m
  · rw [h]
  · rw [h]
    rfl

/-- Two commands after whose acceptance checks the machine differs in the operands only drive the same, accepted or not. -/
theorem run_driven_eq (hf : s.fault = .none) (hc : s.cfg.WellFormed) (hi : s.phase = .idle) {i j : Instr} {u : State}
    (h : ({ s with inbox := [] } : State).check j.fmt (opcode j) j.pinSel j.src j.count j.mask =
      (({ s with inbox := [] } : State).check i.fmt (opcode i) i.pinSel i.src i.count i.mask).withOperands u) (k : Nat) :
    (run k (s.commandedBy j)).map State.driven = (run k (s.commandedBy i)).map State.driven := by
  cases k with
  | zero => rfl
  | succ k =>
    have hin := check_inbox (s := { s with inbox := [] }) i.fmt (opcode i) i.pinSel i.src i.count i.mask
    simp only [run, step_commandedBy hf hc hi, h, clockEdge_quiet_withOperands]
    rw [run_withOperands ((clockEdge_quiet_inbox _).trans hin), Option.map_map]
    rfl

end

/-- The checks of acceptance do not tell apart two commands of one format, source and count with one effective mask (R59, R84). -/
theorem check_withOperands {s : State} {p q : Bool} {m l : Byte} (hm : s.effectiveMask q l = s.effectiveMask p m) (f : Fmt) (c d : Byte)
    (r : Ref) (n : Half) : s.check f d q r n l = (s.check f c p r n m).withOperands (s.check f d q r n l) := by
  unfold State.check
  rw [hm]
  dsimp only
  split
  · rfl
  · split
    · rfl
    · split <;> rfl

/-- A command without a pin selects the pin of `DEFAULT_MASK` (R59). -/
theorem effectiveMask_defaultMask (s : State) (m : Byte) : s.effectiveMask true s.cfg.defaultMask = s.effectiveMask false m := rfl

/-- Settles O38: the command without a pin has `DEFAULT_MASK` as its effective mask, so the checks of both commands leave states that
differ in the operands only. -/
theorem defaultPinDrivesTheSame : Obligations.DefaultPinDrivesTheSame := fun _ _ _ _ hc hf hi =>
  ⟨run_driven_eq hf hc hi (check_withOperands (effectiveMask_defaultMask _ _) ..), run_driven_eq hf hc hi (check_withOperands (effectiveMask_defaultMask _ _) ..)⟩

end Sys2Proof.Machine
end

section
/-! The pulse encoder's waveform (R66, R71 to R73, R79): the bit cells of any list of bits, cycle by cycle and summed up, and a byte as its
eight bits. -/
namespace Sys2Proof.Machine

/-! ### One bit cell (R66, R71) -/

/-- The low period fills the bit up to `P_TBIT` (R71). -/
theorem tHigh_add_tLow {c : Config} (h : c.WellFormed) (x : Bool) : c.tHigh x + c.tLow x = c.tbit :=
  Nat.add_sub_of_le (tHigh_bounds h x).2.le

/-- Settles O26: the two values of `THIGH` in the order R112 asks for, and `TLOW` as what is left of the bit. -/
theorem bitDurations : Obligations.BitDurations := fun _ h =>
  ⟨rfl, rfl, (wf_times h).2.1, fun x => ⟨rfl, tHigh_add_tLow h x⟩⟩

/-- The levels of one bit cell: high for `THIGH(x)` cycles, then low for `TLOW(x)` (R66). -/
theorem cellWave_samples (c : Config) (x : Bool) :
    Wave.samples (cellWave c x) = List.replicate (c.tHigh x) true ++ List.replicate (c.tLow x) false := by
  simp [Wave.samples, cellWave]

/-- The level `o` cycles into a bit cell (R66, R73). -/
theorem getElem?_cellWave_samples {c : Config} (h : c.WellFormed) (x : Bool) {o : Nat} (ho : o < c.tbit) :
    (Wave.samples (cellWave c x))[o]? = some (decide (o < c.tHigh x)) := by
  have hsum := tHigh_add_tLow h x
  rw [cellWave_samples]
  by_cases hlt : o < c.tHigh x
  · rw [List.getElem?_append_left (by rwa [List.length_replicate]), List.getElem?_replicate_of_lt hlt, decide_eq_true hlt]
  · rw [List.getElem?_append_right (by rw [List.length_replicate]; omega), List.length_replicate,
      List.getElem?_replicate_of_lt (by omega), decide_eq_false hlt]

theorem length_cellWave_samples {c : Config} (h : c.WellFormed) (x : Bool) : (Wave.samples (cellWave c x)).length = c.tbit := by
  rw [cellWave_samples, List.length_append, List.length_replicate, List.length_replicate, tHigh_add_tLow h]

/-! ### The cells of a list of bits (R66, R67) -/

/-- Every bit takes `P_TBIT` cycles (R71). -/
theorem cells_duration {c : Config} (h : c.WellFormed) (l : List Bool) :
    Wave.duration (l.flatMap (cellWave c)) = l.length * c.tbit := by
  induction l with
  | nil => exact (Nat.zero_mul _).symm
  | cons x l ih =>
    have hsplit : Wave.duration ((x :: l).flatMap (cellWave c)) = c.tHigh x + (c.tLow x + Wave.duration (l.flatMap (cellWave c))) := rfl
    rw [hsplit, ih, ← Nat.add_assoc, tHigh_add_tLow h, List.length_cons, Nat.succ_mul, Nat.add_comm]

/-- Each 1 among the bits is high for `P_T1H` cycles, each 0 for `P_T0H` (R71). -/
theorem cells_highTime (c : Config) (l : List Bool) :
    Wave.highTime (l.flatMap (cellWave c)) = l.count true * c.t1h + l.count false * c.t0h := by
  induction l with
  | nil => simp [Wave.highTime]
  | cons x l ih =>
    have hsplit : Wave.highTime ((x :: l).flatMap (cellWave c)) = c.tHigh x + Wave.highTime (l.flatMap (cellWave c)) := rfl
    rw [hsplit, ih]
    cases x <;> simp [Config.tHigh, Nat.add_mul] <;> omega

/-- The level on cycle `t` of a list of bits is that of bit `t div P_TBIT`, `t mod P_TBIT` cycles into its cell (R73). -/
theorem getElem?_cells_samples {c : Config} (h : c.WellFormed) (l : List Bool) (t : Nat) :
    (Wave.samples (l.flatMap (cellWave c)))[t]? = l[t / c.tbit]?.map fun x => decide (t % c.tbit < c.tHigh x) := by
  induction l generalizing t with
  | nil => rfl
  | cons x l ih =>
    have hlen := length_cellWave_samples h x
    have hpos : 0 < c.tbit := by have := tHigh_bounds h x; omega
    have hsplit : Wave.samples ((x :: l).flatMap (cellWave c)) =
        Wave.samples (cellWave c x) ++ Wave.samples (l.flatMap (cellWave c)) := List.flatMap_append
    rw [hsplit]
    by_cases ht : t < c.tbit
    · rw [List.getElem?_append_left (hlen.symm ▸ ht), getElem?_cellWave_samples h x ht, Nat.div_eq_of_lt ht, Nat.mod_eq_of_lt ht]
      rfl
    · have hge : c.tbit ≤ t := Nat.le_of_not_lt ht
      rw [List.getElem?_append_right (hlen.symm ▸ hge), hlen, ih, Nat.div_eq_sub_div hpos hge, Nat.mod_eq_sub_mod hge,
        List.getElem?_cons_succ]

/-! ### A byte as its eight bits (R72, R79) -/

theorem length_bitsOf (b : Byte) : (bitsOf b).length = 8 := rfl

theorem getElem?_bitsOf (b : Byte) {j : Nat} (hj : j < 8) : (bitsOf b)[j]? = some (b.getLsbD (7 - j)) := by
  simp [bitsOf, hj]

/-- The order in which the bits are sent does not change how many are 1 (R74, R79). -/
theorem count_true_bitsOf (b : Byte) : (bitsOf b).count true = popcount b := by
  have hrev : bitsOf b = (List.range 8).reverse.map b.getLsbD := rfl
  rw [hrev, popcount, List.count, List.countP_map, List.countP_reverse]
  congr 1
  funext i
  simp

/-- Settles O27: the sums over the cells of its eight bits. -/
theorem byteDurationAndHighTime : Obligations.ByteDurationAndHighTime := by
  refine fun c b h => ⟨cells_duration h (bitsOf b), ?_⟩
  have hzeros : (bitsOf b).count false = 8 - popcount b := by
    have hsum := List.count_false_add_count_true (bitsOf b)
    rw [count_true_bitsOf, length_bitsOf] at hsum
    omega
  rw [byteWave, cells_highTime, count_true_bitsOf, hzeros]

/-- Settles O28: cycle `t` lies in the cell of bit `t div P_TBIT`, and there are eight. -/
theorem byteLevelInClosedForm : Obligations.ByteLevelInClosedForm := by
  intro c b t h ht
  have hj : t / c.tbit < 8 := Nat.div_lt_of_lt_mul (by rwa [Nat.mul_comm])
  rw [byteWave, getElem?_cells_samples h, getElem?_bitsOf b hj]
  rfl

end Sys2Proof.Machine
end

section
/-! With no other writer a cycle leaves the port outside the selected pin as it is (R32, R49, R80). -/
namespace Sys2Proof.Machine

/-- From `s` to `t` no bit of the port outside the selected pin changed, and still no other writer has been seen (R49). -/
structure DrivesOnlySelected (s t : State) : Prop where
  others : t.port &&& ~~~ s.emask = s.port &&& ~~~ s.emask
  unraced : Unraced t

/-- What leaves `EMASK` and the port with its history alone drives nothing. -/
theorem Unraced.drives_of_same {s t : State} (h : Unraced s) (hm : t.emask = s.emask) (hp : t.port = s.port) (h1 : t.held1 = s.held1)
    (h0 : t.held0 = s.held0) : DrivesOnlySelected s t :=
  ⟨by rw [hp], by rw [h1, hm, hp, h.high], by rw [h0, hm, hp, h.low]⟩

theorem Unraced.runCycle {s : State} (h : Unraced s) {e : CycleInput} (hw : e.writes = []) : DrivesOnlySelected s (s.runCycle e) := by
  obtain ⟨r, hr⟩ | ⟨-, -, -, hr⟩ := runCycle_cases s e
  · rw [hr]
    exact h.drives_of_same rfl rfl rfl rfl
  · rw [hr, hw, world_nil]
    cases e.stall with
    | true => exact h.drives_of_same rfl rfl rfl rfl
    | false => exact ⟨advance_port_others h, (advance_unraced h).high, (advance_unraced h).low⟩

theorem Unraced.clockEdge {s : State} (h : Unraced s) {e : CycleInput} (hw : e.writes = []) : DrivesOnlySelected s (s.clockEdge e) := by
  unfold State.clockEdge
  split
  · exact ⟨rfl, h⟩
  · split
    · exact h.runCycle hw
    · rw [hw]
      exact ⟨rfl, h⟩

/-- Settles O49: the start of the cycle leaves the port and its history alone, and the clock edge drives only the selected pin. -/
theorem stepDrivesOnlyTheSelectedPin : Obligations.StepDrivesOnlyTheSelectedPin := by
  intro s t e he hn hw hu ht
  obtain ⟨hf, hc, -⟩ := step_cases ht
  rw [step_cycle hf hc he, cycle_none hn] at ht
  obtain rfl := Host.Outcome.next.inj ht
  have hstart : Unraced s.popped.finish := (hu.drives_of_same (by simp) (by simp) (by simp) (by simp)).unraced
  obtain ⟨hothers, hunraced⟩ := hstart.clockEdge hw
  have hmask := (clockEdge_sameCommand s.popped.finish e).emask
  simp only [finish_emask, finish_port, State.popped_emask, State.popped_port] at hothers hmask
  exact ⟨hothers, hmask, hunraced⟩

end Sys2Proof.Machine
end

section
/-! A stall before `TS` is a preemption (R81, R113), on the cycle of acceptance and on every later cycle of an undisturbed run. -/
namespace Sys2Proof.Machine

/-! ### An undisturbed run up to `TE` (R88) -/

/-- After `t + 1` steps of an undisturbed run the command is on cycle `t` of its schedule (R88). -/
theorem run_place {s : State} {i : Instr} (hc : s.cfg.WellFormed) (h : Accepts s i) {t : Nat}
    (ht : t < s.cfg.endCycle (s.streamFor i).length) :
    ∃ u, run (t + 1) (s.commandedBy i) = some u ∧ Shared s (s.maskOf i) (s.streamFor i) t u ∧
      Place s.cfg (s.streamFor i) (s.pinLevel (s.maskOf i)) (s.maskOf i) t u := by
  induction t with
  | zero =>
    obtain ⟨u, hu, hs, hp⟩ := first_cycle hc h (decode_encode i)
    exact ⟨u, by rw [run, hu]; rfl, hs, hp⟩
  | succ t ih =>
    obtain ⟨u, hu, hs, hp⟩ := ih (by omega)
    obtain ⟨v, hv, hs', hp'⟩ := run_step hc (ne_zero_of_popcount h.oneBit) hs hp ht
    exact ⟨v, by rw [run_succ_some hu, hv], hs', hp'⟩

/-- Before `TS` a run is in SENDING (R88). -/
theorem Place.sending {c : Config} {st : List Byte} {before : Bool} {em : Byte} {t : Nat} {u : State} (h : Place c st before em t u)
    (ht : t < c.latchStartCycle st.length) : u.phase = .sending := by
  cases h with
  | latency _ _ _ ph => exact ph
  | cell _ _ _ _ _ ph => exact ph
  | latch d _ _ _ => omega

/-- The cycle that follows cycle `t` of an undisturbed run lies before `TS` (R88). -/
theorem Place.nextPhase_sending {s u : State} {em : Byte} {st : List Byte} {before : Bool} {t : Nat}
    (hp : Place s.cfg st before em t u) (hc : s.cfg.WellFormed) (hem : em ≠ 0) (hs : Shared s em st t u)
    (ht : t + 1 < s.cfg.latchStartCycle st.length) :
    u.nextPhase = .sending := by
  obtain ⟨v, hv, -, hp'⟩ := run_step hc hem hs hp (Nat.lt_add_right _ ht)
  have hquiet : ({ u with inbox := [] } : State) = u := by rw [← hs.inbox]
  rw [State.nextPhase, hquiet, hv]
  exact hp'.sending ht

/-! ### The stalled cycle (R113) -/

theorem runCycle_preempted {s : State} {e : CycleInput} (hs : e.stall = true) (hb : s.beforeLatch = true) :
    s.runCycle e = s.raise (.preempted s.clk) := by
  rw [State.runCycle, hs, hb]
  rfl

/-- From `TS` on a stall holds the core, and without writes of the outside nothing but the count of cycles changes. -/
theorem runCycle_held {s : State} {e : CycleInput} (hs : e.stall = true) (hb : s.beforeLatch = false) (hw : e.writes = []) :
    s.runCycle e = { s with clk := s.clk + 1 } := by
  simp [State.runCycle, hs, hb, hw]

/-- A stall on a cycle before `TS` records the cycle and keeps the rest (R81, R113, R115). -/
theorem step_preempted {s : State} {e : CycleInput} {rest : List Event} (hf : s.fault = .none) (hc : s.cfg.WellFormed)
    (hi : s.inbox = .cycle e :: rest) (hn : e.command = none) (hs : e.stall = true) (hp : s.nextPhase = .sending) :
    step s = .next { s with inbox := rest, fault := .fault (.preempted s.clk) } := by
  have hb : s.finish.busy = true := (nextPhase_ne_idle hf hc).mp (by simp [hp])
  have hbefore : s.popped.beforeLatch = true := (nextPhase_sending_iff hf hc).mp hp
  rw [step_running hf hc (by rw [State.event, hi]) hn hb, runCycle_preempted hs hbefore, popped_of_inbox hi]
  rfl

/-! ### The cycle of acceptance -/

/-- `TS` is cycle 0 exactly when there is no start latency and nothing to send (R88, R92). -/
theorem latchStartCycle_pos_iff {c : Config} (h : c.WellFormed) (n : Nat) : 0 < c.latchStartCycle n ↔ 0 < c.startLat ∨ 0 < n := by
  have hbit : 0 < c.tbit := by have := tHigh_bounds h true; omega
  rw [Config.latchStartCycle, Nat.add_pos_iff_pos_or_pos, Nat.mul_pos_iff_of_pos_right hbit, Nat.mul_pos_iff_of_pos_left (by decide)]

/-- The cycle of acceptance lies before `TS` unless `TS` is cycle 0 (R88). -/
theorem beforeLatch_of_fresh {s : State} (hc : s.cfg.WellFormed) (hp : s.phase = .sending) (hf : s.fresh = true) :
    s.beforeLatch = true ↔ 0 < s.cfg.latchStartCycle s.stream.length := by
  rw [latchStartCycle_pos_iff hc]
  unfold State.beforeLatch State.nextMove State.byteMove
  simp only [hp, hf, if_true]
  by_cases hA : 0 < s.cfg.startLat
  · simp [hA]
  · by_cases hL : 0 < s.stream.length <;> simp [hA, hL]

/-- The state in which acceptance leaves command `i` (R84). -/
def State.accepted (s : State) (i : Instr) : State :=
  s.latch i.fmt (opcode i) i.src i.count i.mask (s.maskOf i)

theorem Accepts.withInbox {s : State} {i : Instr} (h : Accepts s i) (b : List Event) : Accepts { s with inbox := b } i :=
  ⟨h.running, h.idle, h.oneBit, h.short, h.inExtent⟩

/-- A command that passes every check is accepted (R84). -/
theorem present_accepted {s : State} {i : Instr} (h : Accepts s i) : present (encode i) s = .next (s.accepted i) := by
  rw [present_checks h.running (by simp [State.busy, h.idle]) (decode_encode i), check_accepted h, State.accepted]

/-- Acceptance sets no fault and starts the command, so the rest of the cycle is the command's (R84, R88). -/
theorem clockEdge_accepted {s : State} {i : Instr} (h : Accepts s i) (e : CycleInput) :
    (s.accepted i).clockEdge e = (s.accepted i).runCycle e :=
  clockEdge_busy (s := s.accepted i) h.running rfl e

/-- An accepted command takes cycle 0 of its schedule in the step that presents it, with all that happens in that cycle (R84, R88). -/
theorem step_accepted {s : State} {i : Instr} {e : CycleInput} (hc : s.cfg.WellFormed) (h : Accepts s i)
    (he : e.command = some (encode i)) (rest : List Event) :
    step { s with inbox := .cycle e :: rest } = .next ((({ s with inbox := rest } : State).accepted i).runCycle e) := by
  rw [step_presents (s := { s with inbox := .cycle e :: rest }) h.running hc h.idle rfl he, present_accepted (h.withInbox rest),
    onNext_next, clockEdge_accepted (h.withInbox rest)]

/-- Settles O40: on the cycle of acceptance the accepted command is stalled, and on a later cycle the undisturbed run is. -/
theorem stallBeforeLatchingFaults : Obligations.StallBeforeLatchingFaults := by
  intro i s hc h
  have hfirst := step_accepted (e := { command := some (encode i), stall := true }) hc h rfl []
  have hbefore : (({ s with inbox := [] } : State).accepted i).beforeLatch = true ↔
      0 < s.cfg.latchStartCycle (s.streamFor i).length := beforeLatch_of_fresh hc rfl rfl
  refine ⟨fun hts => ?_, fun hts => ?_, fun t ht => ?_⟩
  · rw [runCycle_preempted rfl (hbefore.mpr hts)] at hfirst
    exact ⟨_, hfirst, rfl, rfl, rfl⟩
  · have hat : (({ s with inbox := [] } : State).accepted i).beforeLatch = false := by
      rw [← Bool.not_eq_true, hbefore, hts]
      exact Nat.lt_irrefl 0
    rw [runCycle_held rfl hat rfl] at hfirst
    exact ⟨_, hfirst, h.running, rfl, rfl⟩
  · obtain ⟨u, hu, hs, hp⟩ := run_place hc h (t := t) (Nat.lt_add_right _ (by omega))
    have hnext := hp.nextPhase_sending hc (ne_zero_of_popcount h.oneBit) hs ht
    refine ⟨u, hu, .of_eq ?_⟩
    rw [← hs.clk]
    exact step_preempted hs.fault (hs.cfg ▸ hc) rfl rfl rfl hnext

end Sys2Proof.Machine
end

section
/-! From acceptance to `TE`: what every cycle of an undisturbed command shows (R88, R90 to R92, R96). -/
namespace Sys2Proof.Machine

/-! ### Where a cycle lies in the schedule -/

theorem startLat_le_latchStartCycle (c : Config) (n : Nat) : c.startLat ≤ c.latchStartCycle n := Nat.le_add_right _ _

theorem latchStartCycle_le_endCycle (c : Config) (n : Nat) : c.latchStartCycle n ≤ c.endCycle n := Nat.le_add_right _ _

theorem endCycle_pos {c : Config} (h : c.WellFormed) (n : Nat) : 0 < c.endCycle n := by
  have := wf_times h
  rw [Config.endCycle]
  omega

/-- From `TS` on the schedule's level is low (R88). -/
theorem scheduleLevel_of_latchStart_le {c : Config} {stream : List Byte} {t : Nat} (h : c.latchStartCycle stream.length ≤ t) (before : Bool) :
    scheduleLevel c stream before t = false := by
  have := startLat_le_latchStartCycle c stream.length
  rw [scheduleLevel, if_neg (by omega), if_neg (by omega)]

/-- `u` is as the schedule of R88 has it on cycle `t` of command `i`, accepted in `s`. -/
structure OnSchedule (s : State) (i : Instr) (t : Nat) (u : State) : Prop where
  fault : u.fault = .none
  phase : u.phase = if t < s.cfg.latchStartCycle (s.streamFor i).length then .sending
    else if t < s.cfg.endCycle (s.streamFor i).length then .latching else .idle
  line : u.line = some (scheduleLevel s.cfg (s.streamFor i) (s.pinLevel (s.maskOf i)) t)
  others : u.port &&& ~~~ s.maskOf i = s.port &&& ~~~ s.maskOf i
  sources : u.sources = s.sources
  mem : u.mem = s.mem
  cfg : u.cfg = s.cfg

/-- BUSY is 1 before `TE` (R25, R88). -/
theorem OnSchedule.busy {s u : State} {i : Instr} {t : Nat} (h : OnSchedule s i t u) :
    u.busy = decide (t < s.cfg.endCycle (s.streamFor i).length) := by
  have := latchStartCycle_le_endCycle s.cfg (s.streamFor i).length
  rw [State.busy, h.phase]
  split
  · simp; omega
  · split <;> simp_all

/-- From `TS` on a run is in LATCHING (R88). -/
theorem Place.latching {c : Config} {st : List Byte} {before : Bool} {em : Byte} {t : Nat} {u : State} (h : Place c st before em t u)
    (ht : c.latchStartCycle st.length ≤ t) : u.phase = .latching := by
  cases h with
  | latency _ _ hA =>
    have := startLat_le_latchStartCycle c st.length
    omega
  | cell j o _ hj ho =>
    have hcells : (j + 1) * c.tbit ≤ 8 * st.length * c.tbit := Nat.mul_le_mul_right _ hj
    rw [Nat.succ_mul] at hcells
    rw [Config.latchStartCycle] at ht
    omega
  | latch _ _ _ ph => exact ph

/-- The line of a state without a fault is the pin of its one-bit mask (R32). -/
theorem line_of_emask {u : State} {em : Byte} (hf : u.fault = .none) (he : u.emask = em) (hm : popcount em = 1) :
    u.line = some (u.pinLevel em) := by
  subst he
  exact lineLevelOnlyWhereDefined.2.2 u (.inl hf) hm

/-! ### The run up to `TE` -/

theorem run_succ_of_next {n : Nat} {a u v : State} (h : run n a = some u) (hv : step u = .next v) : run (n + 1) a = some v := by
  rw [run_succ_some h, hv]

section
variable {s : State} {i : Instr} (hc : s.cfg.WellFormed) (h : Accepts s i)
include hc h

/-- Before `TE` the place of the run gives the PHASE, and its level is the schedule's. -/
theorem run_onSchedule_of_lt {t : Nat} (ht : t < s.cfg.endCycle (s.streamFor i).length) :
    ∃ u, run (t + 1) (s.commandedBy i) = some u ∧ OnSchedule s i t u := by
  obtain ⟨u, hu, hs, hp⟩ := run_place hc h ht
  refine ⟨u, hu, hs.fault, ?_, ?_, hs.others, hs.sources, hs.mem, hs.cfg⟩
  · rw [if_pos ht]
    split
    · exact hp.sending ‹_›
    · exact hp.latching (Nat.le_of_not_lt ‹_›)
  · rw [line_of_emask hs.fault hs.emask h.oneBit, (place_level hc hp).1]

/-- The step of cycle `TE` takes the machine back to IDLE, the line low (R91). -/
theorem run_to_end :
    ∃ u v, run (s.cfg.endCycle (s.streamFor i).length) (s.commandedBy i) = some u ∧ step u = .next v ∧
      Shared s (s.maskOf i) (s.streamFor i) (s.cfg.endCycle (s.streamFor i).length - 1) u ∧
      v = { u with phase := .idle, latchCnt := s.cfg.latchCyc } ∧ u.pinLevel (s.maskOf i) = false := by
  have hpos := endCycle_pos hc (s.streamFor i).length
  obtain ⟨u, hu, hs, hp⟩ := run_place hc h (Nat.sub_lt hpos Nat.one_pos)
  rw [Nat.sub_add_cancel hpos] at hu
  obtain ⟨hv, hlow⟩ := run_last hs hc hp (Nat.sub_add_cancel hpos)
  exact ⟨u, _, hu, hv, hs, rfl, hlow⟩

/-- After `t + 1` steps of an undisturbed run the machine shows cycle `t` of the schedule, up to `TE` (R88). -/
theorem run_onSchedule {t : Nat} (ht : t ≤ s.cfg.endCycle (s.streamFor i).length) :
    ∃ u, run (t + 1) (s.commandedBy i) = some u ∧ OnSchedule s i t u := by
  obtain hlt | rfl := Nat.lt_or_eq_of_le ht
  · exact run_onSchedule_of_lt hc h hlt
  · obtain ⟨u, v, hu, hv, hs, rfl, hlow⟩ := run_to_end hc h
    have hle := latchStartCycle_le_endCycle s.cfg (s.streamFor i).length
    refine ⟨_, run_succ_of_next hu hv, hs.fault, ?_, ?_, hs.others, hs.sources, hs.mem, hs.cfg⟩
    · rw [if_neg (by omega), if_neg (by omega)]
    · rw [line_of_emask (em := s.maskOf i) (by exact hs.fault) (by exact hs.emask) h.oneBit,
        scheduleLevel_of_latchStart_le hle, ← hlow]
      rfl

end

/-! ### What the schedule says of a command's time (R88, R92, R96) -/

/-- Settles O30: an undisturbed run is on its schedule on every cycle up to `TE`. -/
theorem everyCycleFollowsTheSchedule : Obligations.EveryCycleFollowsTheSchedule := by
  intro i s t hc h ht
  obtain ⟨u, hu, hs⟩ := run_onSchedule hc h ht
  exact ⟨u, hu, hs.fault, hs.phase, hs.busy, hs.line, hs.others, hs.sources, hs.mem, hs.cfg⟩

/-- `TE` of a command, from its format and count (R96). -/
theorem endCycle_streamFor {s : State} {i : Instr} (h : Accepts s i) :
    s.cfg.endCycle (s.streamFor i).length = s.cfg.startLat + 8 * (bpe i.fmt * i.count.toNat) * s.cfg.tbit + s.cfg.latchCyc := by
  rw [State.streamFor, length_streamOf h.inExtent, streamLength, Config.endCycle, Config.latchStartCycle]

/-- A longer stream ends later by the time of its additional bits (R96). -/
theorem endCycle_add (c : Config) (m n : Nat) : c.endCycle (m + n) = c.endCycle m + 8 * n * c.tbit := by
  simp only [Config.endCycle, Config.latchStartCycle, Nat.mul_add, Nat.add_mul]
  omega

/-- Settles O31: `TE` in terms of the operands, and the bits that one more LED adds. -/
theorem busyForExactlyTheCommandsTime : Obligations.BusyForExactlyTheCommandsTime := by
  refine ⟨fun i s t hc h ht => ?_, fun c n => ⟨endCycle_add c _ 3, endCycle_add c _ 3, endCycle_add c _ 4⟩⟩
  rw [← endCycle_streamFor h] at ht ⊢
  obtain ⟨u, hu, hs⟩ := run_onSchedule hc h ht
  exact ⟨u, hu, by rw [hs.busy, decide_eq_true_iff]⟩

/-- A command with `COUNT = 0` has no bytes to send (R86). -/
theorem streamFor_of_count_zero {s : State} {i : Instr} (h : i.count = 0) : s.streamFor i = [] := by
  rw [State.streamFor, h]
  rfl

/-- Settles O35: with an empty stream `TS` is the first cycle after the start latency. -/
theorem zeroCountOnlyLatches : Obligations.ZeroCountOnlyLatches := by
  intro i s t hc h h0 ht
  have hst := streamFor_of_count_zero (s := s) h0
  have hTS : s.cfg.latchStartCycle 0 = s.cfg.startLat := by rw [Config.latchStartCycle]; omega
  have hTE : s.cfg.endCycle 0 = s.cfg.startLat + s.cfg.latchCyc := by rw [Config.endCycle, hTS]
  obtain ⟨u, hu, hs⟩ := run_onSchedule hc h (t := t) (by rwa [hst, List.length_nil, hTE])
  have hphase := hs.phase
  have hline := hs.line
  rw [hst, List.length_nil, hTS, hTE] at hphase
  rw [hst, scheduleLevel, List.length_nil, hTS] at hline
  refine ⟨hst, u, hu, hs.fault, hphase, ?_⟩
  rw [hline]
  split <;> rfl

/-! ### The port in LATCHING (R90) -/

/-- A later cycle of LATCHING only counts: the core writes no port (R90). -/
theorem advance_port_of_latching {s : State} (h : s.phase = .latching) : s.advance.port = s.port := by
  rw [State.advance, State.nextMove, h]
  rfl

/-- After a cycle of LATCHING the port is what the outside's writes leave in it (R90). -/
theorem step_latching_port {s t : State} {e : CycleInput} (hp : s.phase = .latching) (hn : s.nextPhase = .latching)
    (he : s.event = .cycle e) (ht : step s = .next t) (hf : t.fault = .none) : t.port = (s.world e.writes).port := by
  obtain ⟨hs, hc, -⟩ := step_cases ht
  have hb : s.finish.busy = true := (nextPhase_ne_idle hs hc).mp (by simp [hn])
  obtain ⟨-, -, -, -, rfl⟩ := step_running_unfaulted he hb ht hf
  rw [popped_world]
  cases e.stall with
  | true => rfl
  | false => exact advance_port_of_latching (s := (s.world e.writes).popped) (by simpa using hp)

/-- With nothing to come `State.nextPhase` is the PHASE after the step. -/
theorem nextPhase_of_step {u v : State} (hin : u.inbox = []) (h : step u = .next v) : u.nextPhase = v.phase := by
  have hquiet : ({ u with inbox := [] } : State) = u := by rw [← hin]
  rw [State.nextPhase, hquiet, h]

/-- From `TS` to `TE - 1` an undisturbed run leaves the port as it is after cycle `TS` (R90). -/
theorem run_latching_port {s : State} {i : Instr} (hc : s.cfg.WellFormed) (h : Accepts s i) {v : State}
    (hv : run (s.cfg.latchStartCycle (s.streamFor i).length + 1) (s.commandedBy i) = some v) (d : Nat) (hd : d < s.cfg.latchCyc) :
    ∃ u, run (s.cfg.latchStartCycle (s.streamFor i).length + d + 1) (s.commandedBy i) = some u ∧ u.port = v.port := by
  induction d with
  | zero => exact ⟨v, hv, rfl⟩
  | succ d ih =>
    obtain ⟨u, hu, hport⟩ := ih (by omega)
    have hTE : s.cfg.latchStartCycle (s.streamFor i).length + (d + 1) < s.cfg.endCycle (s.streamFor i).length :=
      Nat.add_lt_add_left hd _
    obtain ⟨u', hu', hs, hp⟩ := run_place hc h (t := s.cfg.latchStartCycle (s.streamFor i).length + d) (by omega)
    obtain rfl := Option.some.inj (hu'.symm.trans hu)
    obtain ⟨w, hw, hsw, hpw⟩ := run_step hc (ne_zero_of_popcount h.oneBit) hs hp hTE
    have hnext : u'.nextPhase = .latching := (nextPhase_of_step hs.inbox hw).trans (hpw.latching (by omega))
    have hstep := step_latching_port (hp.latching (by omega)) hnext (e := {}) (by rw [State.event, hs.inbox]) hw hsw.fault
    exact ⟨w, run_succ_of_next hu' hw, hstep.trans hport⟩

/-- Settles O34: the schedule in LATCHING, the port as it is after cycle `TS`, and any cycle of LATCHING with the outside's writes. -/
theorem latchHoldsTheLineLow : Obligations.LatchHoldsTheLineLow := by
  refine ⟨fun i s t hc h hTS hTE => ?_, fun s t e hp hn he => step_latching_port hp hn he⟩
  obtain ⟨-, -, -, -, hlatch⟩ := wf_times hc
  have hlen : s.cfg.endCycle (s.streamFor i).length = s.cfg.latchStartCycle (s.streamFor i).length + s.cfg.latchCyc := rfl
  obtain ⟨v, hv, -⟩ := run_onSchedule hc h (t := s.cfg.latchStartCycle (s.streamFor i).length) (by omega)
  obtain ⟨d, rfl⟩ := Nat.exists_eq_add_of_le hTS
  obtain ⟨u, hu, hport⟩ := run_latching_port hc h hv d (by omega)
  obtain ⟨u', hu', hs⟩ := run_onSchedule hc h hTE.le
  obtain rfl := Option.some.inj (hu'.symm.trans hu)
  refine ⟨hlen, hlatch, u', v, hv, hu', ?_, ?_, hport⟩
  · rw [hs.phase, if_neg (by omega), if_pos hTE]
  · rw [hs.line, scheduleLevel_of_latchStart_le hTS]

end Sys2Proof.Machine
end

section
/-! The next command on cycle `TE` of the one before (R91): quiet cycles that are still to come have no part in a run, and after cycle `TE`
the machine is again one that accepts commands. -/
namespace Sys2Proof.Machine

/-! ### Quiet cycles to come -/

/-- `s` with other events to come. -/
def State.withInbox (s : State) (b : List Event) : State :=
  { s with inbox := b }

/-- The core's step does not read the events to come (R88). -/
theorem advance_withInbox (s : State) (b : List Event) : (s.withInbox b).advance = s.advance.withInbox b := by
  have take_withInbox : ∀ m, (s.withInbox b).take m = (s.take m).withInbox b := fun m => by
    cases m with
    | continueCell o =>
      simp only [State.take, State.continueCell, show (s.withInbox b).cfg = s.cfg from rfl,
        show (s.withInbox b).wireBit = s.wireBit from rfl]
      split <;> rfl
    | _ => rfl
  exact take_withInbox s.nextMove

/-- The cycle of a running command in which nothing else happens does not read the events to come. -/
theorem runCycle_quiet_withInbox (s : State) (b : List Event) {e : CycleInput} (hs : e.stall = false) (hw : e.writes = []) :
    (s.withInbox b).runCycle e = (s.runCycle e).withInbox b := by
  rw [runCycle_quiet _ _ hs hw, runCycle_quiet _ _ hs hw, advance_withInbox]
  rfl

theorem clockEdge_quiet_withInbox (s : State) (b : List Event) : (s.withInbox b).clockEdge {} = (s.clockEdge {}).withInbox b := by
  unfold State.clockEdge
  rw [show (s.withInbox b).faulted = s.faulted from rfl, show (s.withInbox b).busy = s.busy from rfl]
  split
  · rfl
  · split
    · exact runCycle_quiet_withInbox s b rfl rfl
    · rfl

/-- A quiet cycle that is listed is taken as one that is not. -/
theorem step_quietEvent {s : State} (hf : s.fault = .none) (hc : s.cfg.WellFormed) (b : List Event) :
    step (s.withInbox (.cycle {} :: b)) = .next ((s.finish.clockEdge {}).withInbox b) := by
  rw [step_cycle (s := s.withInbox (.cycle {} :: b)) hf hc rfl, cycle_none rfl, ← clockEdge_quiet_withInbox]
  exact congrArg (fun u : State => Host.Outcome.next (u.clockEdge {})) (finish_withInbox s b)

/-- As many steps as there are quiet cycles listed are those of a run with nothing to come, and leave what is listed after them. -/
theorem run_quietEvents {s : State} (hin : s.inbox = []) (n : Nat) (b : List Event) :
    run n (s.withInbox (List.replicate n (.cycle {}) ++ b)) = (run n s).map (·.withInbox b) := by
  induction n generalizing s with
  | zero => rfl
  | succ n ih =>
    by_cases hgo : s.fault = .none ∧ s.cfg.WellFormed
    · obtain ⟨hf, hc⟩ := hgo
      have hquiet : (s.finish.clockEdge {}).inbox = [] := by rw [clockEdge_quiet_inbox, finish_inbox, hin]
      rw [List.replicate_succ, List.cons_append]
      simp only [run, step_quiet hc hf hin, step_quietEvent hf hc]
      exact ih hquiet
    · rw [run_succ_of_stopped hgo, run_succ_of_stopped (s := s.withInbox (_ ++ b)) hgo]
      rfl

/-- A command followed by quiet cycles runs as one left undisturbed. -/
theorem run_accepted_quietEvents {s : State} {i : Instr} (hc : s.cfg.WellFormed) (h : Accepts s i) (n : Nat) (b : List Event) :
    run (n + 1) (s.withInbox (.cycle { command := some (encode i) } :: (List.replicate n (.cycle {}) ++ b))) =
      (run (n + 1) (s.commandedBy i)).map (·.withInbox b) := by
  obtain ⟨v, hin, hfirst⟩ : ∃ v : State, v.inbox = [] ∧
      ∀ b, step (s.withInbox (.cycle { command := some (encode i) } :: b)) = .next (v.withInbox b) := by
    refine ⟨(((s.withInbox []).accepted i).runCycle { command := some (encode i) }), ?_, fun b => ?_⟩
    · rw [runCycle_quiet _ _ rfl rfl]
      exact advance_inbox _
    · rw [← runCycle_quiet_withInbox _ b rfl rfl]
      exact step_accepted hc h rfl b
  have hv : v.withInbox [] = v := by rw [State.withInbox, ← hin]
  rw [show s.commandedBy i = s.withInbox (.cycle { command := some (encode i) } :: []) from rfl]
  simp only [run, hfirst, hv]
  exact run_quietEvents hin n b

/-! ### The machine after cycle `TE` -/

theorem run_add {m : Nat} {s u : State} (h : run m s = some u) (n : Nat) : run (m + n) s = run n u := by
  induction m generalizing s with
  | zero =>
    obtain rfl := Option.some.inj h
    rw [Nat.zero_add]
  | succ m ih =>
    rw [Nat.succ_add, run]
    rw [run] at h
    split at h
    · exact ih h
    · cases h
    · cases h

/-- If a step with nothing to come ends in IDLE, it is the start of the cycle that brought the machine there (R91). -/
theorem finish_of_step_idle {u v : State} (hin : u.inbox = []) (h : step u = .next v) (hv : v.phase = .idle) : u.finish = v := by
  obtain ⟨hf, hc, -⟩ := step_cases h
  rw [step_quiet hc hf hin] at h
  obtain rfl := Host.Outcome.next.inj h
  cases hb : u.finish.busy with
  | false => rw [clockEdge_idle (by simpa using hf) hb, world_nil]
  | true =>
    rw [clockEdge_busy (by simpa using hf) hb, runCycle_quiet _ _ rfl rfl] at hv
    exact absurd hv (advance_busy (by simpa [State.busy] using hb))

/-- A command presented in the cycle that ends LATCHING is presented in IDLE (R91). -/
theorem step_withCommand_of_finish {u v : State} (hv : u.finish = v) (hi : v.phase = .idle) (hf : u.fault = .none) (hc : u.cfg.WellFormed)
    (i : Instr) : step (u.withInbox [.cycle { command := some (encode i) }]) = step (v.commandedBy i) := by
  have hvf : v.fault = .none := by rw [← hv, finish_fault, hf]
  have hvc : v.cfg.WellFormed := by rwa [← hv, finish_cfg]
  have hpop : (u.withInbox [.cycle { command := some (encode i) }]).popped.finish = v.withInbox [] := by
    rw [← hv]
    exact finish_withInbox u []
  rw [step_cycle (s := u.withInbox [_]) hf hc rfl, cycle_some rfl, hpop, step_presents (s := v.commandedBy i) hvf hvc hi rfl rfl]
  rfl

/-- What acceptance asks of a command, and what the command would send, is the same in an IDLE state with the same configuration, records
and memory (R59, R84, R86). -/
theorem Accepts.of_same {s t : State} {i : Instr} (h : Accepts s i) (hf : t.fault = .none) (hp : t.phase = .idle) (hc : t.cfg = s.cfg)
    (hs : t.sources = s.sources) (hm : t.mem = s.mem) :
    Accepts t i ∧ t.streamFor i = s.streamFor i ∧ t.maskOf i = s.maskOf i := by
  have hmask : t.maskOf i = s.maskOf i := by rw [State.maskOf, State.effectiveMask, hc]; rfl
  have hext : t.extent i.fmt i.src = s.extent i.fmt i.src := by rw [State.extent, hs]; rfl
  have hrec : ∀ k, t.recordBytes i.fmt i.src k = s.recordBytes i.fmt i.src k := fun k => by
    rw [State.recordBytes, State.readRecord, hc, hs, hm]
    rfl
  refine ⟨⟨hf, hp, by rw [hmask, h.oneBit], h.short, by rw [hext]; exact h.inExtent⟩, ?_, hmask⟩
  exact List.flatMap_congr fun k _ => hrec k

/-! ### Two masks of one bit -/

/-- A mask of one bit selects a pin (R13, R59). -/
theorem exists_pin_of_popcount : ∀ m : Byte, popcount m = 1 → ∃ p : Fin 8, m = 1#8 <<< p.val := by
  decide

/-- Two masks of one bit that differ have no bit in common. -/
theorem and_not_of_popcount {a b : Byte} (ha : popcount a = 1) (hb : popcount b = 1) (h : a ≠ b) : b &&& ~~~ a = b := by
  have pins : ∀ p q : Fin 8, p ≠ q → 1#8 <<< q.val &&& ~~~ (1#8 <<< p.val) = 1#8 <<< q.val := by decide
  obtain ⟨p, rfl⟩ := exists_pin_of_popcount a ha
  obtain ⟨q, rfl⟩ := exists_pin_of_popcount b hb
  exact pins p q fun hpq => h (by rw [hpq])

/-- A port that kept all bits outside one pin kept the level of every other pin (R32, R80). -/
theorem pinLevel_of_others {s u : State} {a b : Byte} (ha : popcount a = 1) (hb : popcount b = 1) (h : a ≠ b)
    (ho : u.port &&& ~~~ a = s.port &&& ~~~ a) : u.pinLevel b = s.pinLevel b := by
  have hport : u.port &&& b = s.port &&& b := by
    rw [← and_not_of_popcount ha hb h, BitVec.and_comm b, ← BitVec.and_assoc, ho, BitVec.and_assoc]
  rw [State.pinLevel, hport, State.pinLevel]

/-- Settles O39: on cycle `TE` of the first command the machine is in IDLE with the records as they were, so the second is accepted there and
its run is on its own schedule. -/
theorem nextCommandOnTheEndCycle : Obligations.NextCommandOnTheEndCycle := by
  intro i j s t hc hi hj ht
  obtain ⟨u, v, hu, hv, hs, hidle, hlow⟩ := run_to_end hc hi
  have hphase : v.phase = .idle := by rw [hidle]
  have hport : v.port = u.port := by rw [hidle]
  have hcfg : v.cfg = s.cfg := by rw [hidle, ← hs.cfg]
  obtain ⟨hj', hstream, hmask⟩ := hj.of_same (t := v) (by rw [hidle, ← hs.fault]) hphase hcfg (by rw [hidle, ← hs.sources])
    (by rw [hidle, ← hs.mem])
  have hrun : run (s.cfg.endCycle (s.streamFor i).length) (s.withInbox (.cycle { command := some (encode i) } ::
      (List.replicate (s.cfg.endCycle (s.streamFor i).length - 1) (.cycle {}) ++ [.cycle { command := some (encode j) }]))) =
      some (u.withInbox [.cycle { command := some (encode j) }]) := by
    have := run_accepted_quietEvents hc hi (s.cfg.endCycle (s.streamFor i).length - 1) [.cycle { command := some (encode j) }]
    rwa [Nat.sub_add_cancel (endCycle_pos hc _), hu] at this
  have hnext := step_withCommand_of_finish (finish_of_step_idle hs.inbox hv hphase) hphase hs.fault (hs.cfg ▸ hc) j
  obtain ⟨w, hw, hon⟩ := run_onSchedule (hcfg ▸ hc) hj' (t := t) (by rwa [hcfg, hstream])
  refine ⟨w, ?_, hon.fault, by rw [hon.busy, hcfg, hstream], ?_⟩
  · rw [Nat.add_assoc]
    refine (run_add hrun (t + 1)).trans ?_
    simp only [run, hnext] at hw ⊢
    exact hw
  · have hbefore : v.pinLevel (s.maskOf j) = if s.maskOf i = s.maskOf j then false else s.pinLevel (s.maskOf j) := by
      rw [State.pinLevel, hport]
      split
      · rw [← ‹s.maskOf i = s.maskOf j›]
        exact hlow
      · exact pinLevel_of_others hi.oneBit hj.oneBit ‹_› hs.others
    rw [hon.line, hcfg, hstream, hmask, hbefore]

end Sys2Proof.Machine
end

section
/-! The frame on the line and what is read back from it (R89, R106): the samples of a frame are the levels of the schedule, and decoding them
gives the stream. -/
namespace Sys2Proof.Machine

/-! ### The frame, cycle by cycle (R88, R89) -/

/-- The bits of a stream in the order they are sent (R44, R88). -/
def streamBits (stream : List Byte) : List Bool :=
  stream.flatMap bitsOf

theorem length_streamBits (stream : List Byte) : (streamBits stream).length = 8 * stream.length := by
  rw [streamBits, List.length_flatMap, List.map_congr_left (fun b _ => length_bitsOf b), List.map_const', List.sum_replicate_nat,
    Nat.mul_comm]

/-- Bit `j` of a stream is bit `j mod 8` of its byte `j div 8` (R88). -/
theorem getElem?_streamBits {stream : List Byte} {j : Nat} (hj : j < 8 * stream.length) :
    (streamBits stream)[j]? = some (streamBit stream j) := by
  induction stream generalizing j with
  | nil => exact absurd hj (Nat.not_lt_zero j)
  | cons b stream ih =>
    rw [show streamBits (b :: stream) = bitsOf b ++ streamBits stream from List.flatMap_cons]
    rw [List.length_cons] at hj
    by_cases h8 : j < 8
    · rw [List.getElem?_append_left h8, getElem?_bitsOf b h8, streamBit, Nat.div_eq_of_lt h8, Nat.mod_eq_of_lt h8]
      rfl
    · have hge : 8 ≤ j := Nat.le_of_not_lt h8
      rw [List.getElem?_append_right hge, length_bitsOf, ih (by omega), streamBit, streamBit, Nat.div_eq_sub_div (by decide) hge,
        Nat.mod_eq_sub_mod hge, List.getD_cons_succ]

/-- A frame is the cells of its bits, then the latch (R67, R89). -/
theorem frameWave_samples (c : Config) (stream : List Byte) :
    (frameWave c stream).samples =
      Wave.samples ((streamBits stream).flatMap (cellWave c)) ++ List.replicate c.latchCyc false := by
  have hcells : stream.flatMap (byteWave c) = (streamBits stream).flatMap (cellWave c) := List.flatMap_assoc.symm
  rw [frameWave, hcells]
  simp [Wave.samples]

/-- The cells of a list of bits last `P_TBIT` cycles each (R71). -/
theorem length_cells_samples {c : Config} (h : c.WellFormed) (l : List Bool) :
    (Wave.samples (l.flatMap (cellWave c))).length = l.length * c.tbit := by
  rw [← cells_duration h, Wave.samples, Wave.duration, List.length_flatMap]
  simp

/-- The waveform of a frame is, cycle by cycle from `A` to `TE`, what the schedule gives the line (R88, R89). -/
theorem frameWave_samples_eq {c : Config} (h : c.WellFormed) (stream : List Byte) (before : Bool) :
    (frameWave c stream).samples =
      (List.range (c.endCycle stream.length - c.startLat)).map fun k => scheduleLevel c stream before (c.startLat + k) := by
  have hTS : c.latchStartCycle stream.length = c.startLat + 8 * stream.length * c.tbit := rfl
  have hlen : c.endCycle stream.length - c.startLat = 8 * stream.length * c.tbit + c.latchCyc := by
    rw [Config.endCycle, hTS]
    omega
  have hcells := length_cells_samples h (streamBits stream)
  rw [length_streamBits] at hcells
  rw [frameWave_samples, hlen, List.range_add, List.map_append]
  refine congrArg₂ (· ++ ·) (List.ext_getElem? fun k => ?_) ?_
  · by_cases hk : k < 8 * stream.length * c.tbit
    · have hpos : 0 < c.tbit := by have := tHigh_bounds h true; omega
      have hj : k / c.tbit < 8 * stream.length := Nat.div_lt_of_lt_mul (by rwa [Nat.mul_comm])
      rw [getElem?_cells_samples h, getElem?_streamBits hj, List.getElem?_map, List.getElem?_range hk, Option.map_some, Option.map_some,
        scheduleLevel, if_neg (by omega), if_pos (by omega), Nat.add_sub_cancel_left]
    · rw [List.getElem?_eq_none (by omega), List.getElem?_eq_none (by simpa using hk)]
  · rw [List.map_map, List.map_congr_left (g := fun _ => false), List.map_const', List.length_range]
    intro k hk
    rw [Function.comp_apply, scheduleLevel, if_neg (by omega), if_neg (by omega)]

/-- The levels of the line of an undisturbed command from `A` to `TE` are the samples of its frame (R89). -/
theorem line_of_run {s : State} {i : Instr} (hc : s.cfg.WellFormed) (h : Accepts s i) :
    (List.range (s.cfg.endCycle (s.streamFor i).length - s.cfg.startLat)).map
        (fun k => (run (s.cfg.startLat + k + 1) (s.commandedBy i)).bind State.line) =
      (frameWave s.cfg (s.streamFor i)).samples.map some := by
  rw [frameWave_samples_eq hc _ (s.pinLevel (s.maskOf i)), List.map_map]
  refine List.map_congr_left fun k hk => ?_
  rw [List.mem_range] at hk
  obtain ⟨u, hu, hs⟩ := run_onSchedule hc h (t := s.cfg.startLat + k) (by omega)
  rw [hu, Option.bind_some, hs.line]
  rfl

/-- Settles O32: on every cycle from `A` on the run is on its schedule, whose levels are the samples of the frame. -/
theorem lineCarriesTheFrame : Obligations.LineCarriesTheFrame := fun _ _ => line_of_run

/-! ### Maximal runs (R89) -/

/-- The first maximal run has the level of the first cycle. -/
theorem runsOf_cons_eq (x : Bool) (l : List Bool) : ∃ n w, runsOf (x :: l) = (x, n) :: w := by
  rw [runsOf]
  split
  · exact ⟨1, [], rfl⟩
  · split
    · subst_vars
      exact ⟨_, _, rfl⟩
    · exact ⟨_, _, rfl⟩

/-- A level begins a run of its own before a different one. -/
theorem runsOf_cons_of_ne {x : Bool} {l : List Bool} (h : l.head? ≠ some x) : runsOf (x :: l) = (x, 1) :: runsOf l := by
  cases l with
  | nil => rfl
  | cons y l =>
    obtain ⟨n, w, hr⟩ := runsOf_cons_eq y l
    have hxy : ¬ x = y := fun hxy => h (by rw [hxy]; rfl)
    rw [runsOf, hr]
    exact if_neg hxy

/-- A level before its own run makes the run longer. -/
theorem runsOf_cons_of_run {x : Bool} {n : Nat} {l : List Bool} {w : Wave} (h : runsOf l = (x, n) :: w) :
    runsOf (x :: l) = (x, n + 1) :: w := by
  rw [runsOf, h]
  exact if_pos rfl

/-- A block of one level before a different one is a run of its own. -/
theorem runsOf_replicate_append {x : Bool} {l : List Bool} (h : l.head? ≠ some x) (n : Nat) :
    runsOf (List.replicate (n + 1) x ++ l) = (x, n + 1) :: runsOf l := by
  induction n with
  | zero => exact runsOf_cons_of_ne h
  | succ n ih => exact runsOf_cons_of_run ih

/-! ### Reading a frame back (R106) -/

/-- A low shorter than the reset low, followed by a high, separates two bits (R106). -/
theorem decodeBits_low {c : Config} {d : Nat} (hd : d < c.resetCyc) {l : List Bool} (hl : l.head? = some true) :
    decodeBits c (runsOf (List.replicate d false ++ l)) = decodeBits c (runsOf l) := by
  cases d with
  | zero => rfl
  | succ d =>
    rw [runsOf_replicate_append (by simp [hl])]
    exact if_neg (by omega)

section
variable {c : Config} (h : c.WellFormed)
include h

/-- A high of the length of a bit reads as that bit (R106): the two lengths differ. -/
theorem decodeBits_high (x : Bool) (w : Wave) : decodeBits c ((true, c.tHigh x) :: w) = (decodeBits c w).map (x :: ·) := by
  obtain ⟨-, hlt, -⟩ := wf_times h
  cases x with
  | true => exact if_pos rfl
  | false => exact (if_neg hlt.ne).trans (if_pos rfl)

/-- The cells of any bits with the latch after them, and a low shorter than the reset low before them, read back as those bits (R106): the
low before a cell only separates, and the one before the latch merges with it. -/
theorem decodeBits_cells (l : List Bool) {d : Nat} (hd : d < c.resetCyc) :
    decodeBits c (runsOf (List.replicate d false ++ (Wave.samples (l.flatMap (cellWave c)) ++ List.replicate c.latchCyc false))) = some l := by
  obtain ⟨-, -, -, hreset, hlatch⟩ := wf_times h
  induction l generalizing d with
  | nil =>
    obtain ⟨n, hn⟩ : ∃ n, d + c.latchCyc = n + 1 := ⟨d + c.latchCyc - 1, by omega⟩
    have hruns := runsOf_replicate_append (x := false) (l := []) (by simp) n
    rw [List.append_nil] at hruns
    rw [show Wave.samples (([] : List Bool).flatMap (cellWave c)) = [] from rfl, List.nil_append, List.replicate_append_replicate, hn, hruns]
    exact if_pos (by omega)
  | cons x l ih =>
    have hbounds := tHigh_bounds h x
    have hsum := tHigh_add_tLow h x
    obtain ⟨high, hhigh⟩ : ∃ n, c.tHigh x = n + 1 := ⟨c.tHigh x - 1, by omega⟩
    obtain ⟨low, hlow⟩ : ∃ n, c.tLow x = n + 1 := ⟨c.tLow x - 1, by omega⟩
    have hcell : Wave.samples ((x :: l).flatMap (cellWave c)) =
        List.replicate (high + 1) true ++ (List.replicate (low + 1) false ++ Wave.samples (l.flatMap (cellWave c))) := by
      rw [← hhigh, ← hlow, ← List.append_assoc, ← cellWave_samples]
      exact List.flatMap_append
    rw [hcell, List.append_assoc, List.append_assoc, decodeBits_low hd rfl, runsOf_replicate_append (by simp [List.replicate_succ]), ← hhigh,
      decodeBits_high h, ih (by omega), Option.map_some]

end

/-- The eight bits of a byte, sent most significant first, are put together as they were (R44, R106). -/
theorem byteOfBits_bitsOf : ∀ b : Byte, byteOfBits (bitsOf b) = b := by
  decide

/-- The bits of a stream are grouped into its bytes (R106). -/
theorem groupBytes_streamBits (stream : List Byte) : groupBytes (streamBits stream) = some stream := by
  induction stream with
  | nil => rfl
  | cons b stream ih =>
    have hgroup : groupBytes (streamBits (b :: stream)) = (groupBytes (streamBits stream)).map (byteOfBits (bitsOf b) :: ·) := rfl
    rw [hgroup, ih, byteOfBits_bitsOf]
    rfl

/-- Settles O29: the cells read back as the bits of the stream, and these group into its bytes. -/
theorem decodeReadsAnyFrameBack : Obligations.DecodeReadsAnyFrameBack := by
  intro c stream h
  have hbits := decodeBits_cells h (streamBits stream) (d := 0) (by have := wf_times h; omega)
  rw [decodeWave, frameWave_samples]
  exact (congrArg (Option.bind · groupBytes) hbits).trans (groupBytes_streamBits stream)

/-- Settles O33: the line carries the frame (O32), and any frame reads back as its stream (O29). -/
theorem lineDecodesToTheStream : Obligations.LineDecodesToTheStream := fun _ _ hc h =>
  ⟨_, line_of_run hc h, decodeReadsAnyFrameBack _ _ hc⟩

end Sys2Proof.Machine
end

section
/-! Acceptance (R84): the outcome of each check for a command presented in IDLE, what an accepted command latches with its stream in wire
bytes, and the step around it. -/
namespace Sys2Proof.Machine

/-! ### The masks and counts that pass the checks -/

/-- The default mask of a well-formed configuration selects one pin (R13, R112). -/
theorem popcount_defaultMask {c : Config} (h : c.WellFormed) : popcount c.defaultMask = 1 := by
  have pins : ∀ p, p < 8 → popcount (1#8 <<< p) = 1 := by decide
  have hpin := meets_of_wf h .defaultPinInPort
  simp only [Config.meets, decide_eq_true_eq] at hpin
  exact pins c.defaultPin (by omega)

/-- The largest `COUNT` a format may have (R87). -/
def countLimit : Fmt → Nat
  | .raw => 65535
  | .rgb => 21845
  | .rgbw => 16383
  | .pack4 => 21845

theorem streamLength_le_iff (f : Fmt) (n : Half) : streamLength f n ≤ maxStream ↔ n.toNat ≤ countLimit f := by
  cases f <;> simp only [streamLength, bpe, maxStream, countLimit] <;> omega

/-- A byte count always passes: COUNT has 16 bits (R100). -/
theorem toNat_le_countLimit_raw (n : Half) : n.toNat ≤ countLimit .raw := Nat.le_of_lt_succ n.isLt

/-! ### The checks in IDLE (R84) -/

section
variable {s : State} (hf : s.fault = .none) (hp : s.phase = .idle)
include hf hp

/-- A command executed in IDLE runs the checks of acceptance (R84). -/
theorem exec_checks (i : Instr) : exec i s = .next (s.check i.fmt (opcode i) i.pinSel i.src i.count i.mask) := by
  rw [exec_of_running hf, State.busy, hp]
  rfl

theorem exec_invalidMask {i : Instr} (h : popcount (s.maskOf i) ≠ 1) :
    exec i s = .next { s with fault := .fault (.invalidMask (s.maskOf i)) } :=
  (exec_checks hf hp i).trans (congrArg _ (check_invalidMask h))

theorem exec_countTooLarge {i : Instr} (h : popcount (s.maskOf i) = 1) (hl : maxStream < streamLength i.fmt i.count) :
    exec i s = .next { s with fault := .refused (.countTooLarge i.count) } :=
  (exec_checks hf hp i).trans (congrArg _ (check_countTooLarge h hl))

theorem exec_countExceedsExtent {i : Instr} (h : popcount (s.maskOf i) = 1) (hl : streamLength i.fmt i.count ≤ maxStream)
    (he : s.extent i.fmt i.src < i.count.toNat) :
    exec i s = .next { s with fault := .fault (.countExceedsExtent i.count (s.extent i.fmt i.src)) } :=
  (exec_checks hf hp i).trans (congrArg _ (check_countExceedsExtent h hl he))

/-- With a one-bit mask the fault of acceptance is decided by the two checks of the count. -/
theorem exec_fault_of_oneBit {i : Instr} (h : popcount (s.maskOf i) = 1) {t : State} (ht : exec i s = .next t) :
    t.fault = if maxStream < streamLength i.fmt i.count then .refused (.countTooLarge i.count)
      else if s.extent i.fmt i.src < i.count.toNat then .fault (.countExceedsExtent i.count (s.extent i.fmt i.src)) else .none := by
  rw [exec_checks hf hp] at ht
  obtain rfl := Host.Outcome.next.inj ht
  split
  · rw [check_countTooLarge h ‹_›, State.refuse_fault]
  · split
    · rw [check_countExceedsExtent h (Nat.le_of_not_lt ‹_›) ‹_›, State.raise_fault]
    · rw [check_latches h (Nat.le_of_not_lt ‹_›) (Nat.le_of_not_lt ‹_›), State.latch_fault, hf]

end

/-- A command that passes every check is accepted (R84). -/
theorem exec_accepted {s : State} {i : Instr} (h : Accepts s i) : exec i s = .next (s.accepted i) :=
  (exec_checks h.running h.idle i).trans (congrArg _ (check_accepted h))

/-! ### The presentation and the step -/

/-- Settles O9: the checks one after the other, the presented command being the encoding of what it decodes to. -/
theorem acceptanceChecksInOrder : Obligations.AcceptanceChecksInOrder := by
  intro s c
  refine ⟨fun r h => whenRunning_of_fault h _, fun r h => whenRunning_of_refused h _, popcount_defaultMask,
    fun hf hb => .of_eq (present_busy hf hb c), fun hf hb ⟨e, he⟩ => .of_eq (present_reserved hf hb he), fun i hd hf hb => ?_⟩
  obtain rfl := decode_eq_ok_iff.mp hd
  have hp : s.phase = .idle := by simpa [State.busy] using hb
  rw [present_of_decode hd]
  refine ⟨fun hm => .of_eq (exec_invalidMask hf hp hm), fun hm hl => .of_eq (exec_countTooLarge hf hp hm hl),
    fun hm hl he => .of_eq (exec_countExceedsExtent hf hp hm hl he), fun hm hl he => ?_⟩
  exact ⟨_, exec_accepted ⟨hf, hp, hm, hl, he⟩, _, _, _, _, _, _, _, rfl⟩

/-- Settles O19: a presentation that latches a command leaves no fault recorded. -/
theorem stoppedCommandChangesOnlyFault : Obligations.StoppedCommandChangesOnlyFault := by
  intro s t c ht hfault
  obtain ⟨x, -, rfl⟩ | ⟨-, i, -, rfl⟩ := present_cases ht
  · exact .refl _
  · obtain ⟨hf, -⟩ := whenRunning_next (show whenRunning s _ = .next _ from ht)
    exact absurd hf hfault

/-- Settles O8: the start of the cycle does nothing while a command runs, and the rest of the cycle nothing once the refusal is recorded. -/
theorem busyRefusesEveryCommand : Obligations.BusyRefusesEveryCommand := by
  intro s e rest c hf hc hin he hp
  have hb := (nextPhase_ne_idle hf hc).mp hp
  have hstart : s.popped.finish = { s with inbox := rest } := by
    rw [finish_of_busy (by rw [popped_finish_busy, hb]), popped_of_inbox hin]
  refine .of_eq ?_
  rw [step_cycle hf hc (by rw [State.event, hin]), cycle_some he, hstart,
    present_busy (s := { s with inbox := rest }) hf (by rw [← finish_of_busy hb]; exact hb), onNext_next, clockEdge_of_faulted (by simp)]
  rfl

/-- The checks neither read nor write SHIFT, SUB, CYC and LATCHCNT (R84). -/
theorem check_withScratch (s u : State) (f : Fmt) (c : Byte) (p : Bool) (r : Ref) (n : Half) (m : Byte) :
    (s.withScratch u).check f c p r n m = (s.check f c p r n m).withScratch u := by
  unfold State.check
  rw [show (s.withScratch u).effectiveMask p m = s.effectiveMask p m from rfl,
    show (s.withScratch u).extent f r = s.extent f r from rfl]
  dsimp only
  split
  · rfl
  · split
    · rfl
    · split <;> rfl

theorem exec_withScratch {s t : State} {i : Instr} (h : exec i s = .next t) (u : State) :
    exec i (s.withScratch u) = .next (t.withScratch u) := by
  rw [exec_eq_accept] at h
  obtain ⟨hf, h⟩ := whenRunning_next (show whenRunning s _ = .next t from h)
  rw [exec_of_running (s := s.withScratch u) hf, check_withScratch, show (s.withScratch u).busy = s.busy from rfl,
    ← Host.Outcome.next.inj h]
  split <;> rfl

/-- A command that is executed records a fault or a refusal, or starts (R84, R88). -/
theorem exec_cases {s t : State} {i : Instr} (h : exec i s = .next t) : t.fault ≠ .none ∨ t.phase = .sending ∧ t.fresh = true := by
  rw [← present_of_decode (decode_encode i)] at h
  obtain ⟨x, hx, rfl⟩ | ⟨-, j, -, rfl⟩ := present_cases h
  · exact .inl hx
  · exact .inr ⟨rfl, rfl⟩

/-- What stood in SHIFT, SUB, CYC and LATCHCNT before a command shows in no other register after the cycle that executes it (R30, R35). -/
theorem clockEdge_exec_withScratch {s t : State} {i : Instr} (h : exec i s = .next t) (u : State) (e : CycleInput) :
    SameButHidden (t.clockEdge e) ((t.withScratch u).clockEdge e) := by
  by_cases hf : t.fault = .none
  · obtain hn | ⟨hp, hfresh⟩ := exec_cases h
    · exact absurd hf hn
    have hrun : SameRunning t (t.withScratch u) :=
      ⟨by simp [hp], rfl, fun hcell => absurd hcell.2.1 (by simp [hfresh]), fun hl => by simp [hp] at hl⟩
    have hb : t.busy = true := by simp [State.busy, hp]
    rw [clockEdge_busy hf hb, clockEdge_busy (s := t.withScratch u) hf hb]
    exact ⟨_, _, _, _, _, _, _, (hrun.runCycle e).eq⟩
  · rw [clockEdge_of_faulted hf, clockEdge_of_faulted (s := t.withScratch u) hf]
    exact ⟨_, _, _, _, _, _, _, rfl⟩

/-- The start of a cycle leaves PHASE as the coming cycle's, and all but LATCHCNT as it was (R91). -/
theorem popped_finish_eq {s : State} {x : Event} {rest : List Event} (hf : s.fault = .none) (hc : s.cfg.WellFormed)
    (hin : s.inbox = x :: rest) :
    s.popped.finish =
      ({ s with phase := if s.nextPhase = .idle then .idle else s.phase, inbox := rest } : State).withScratch s.finish := by
  have hphase : s.finish.phase = if s.nextPhase = .idle then .idle else s.phase := by
    split
    · simpa [State.busy] using (nextPhase_idle_iff hf hc).mp ‹_›
    · rw [finish_of_busy ((nextPhase_ne_idle hf hc).mp ‹_›)]
  rw [popped_of_inbox hin, finish_withInbox, ← hphase]
  unfold State.finish
  split <;> rfl

/-- Settles O5: the start of the cycle touches LATCHCNT at most besides PHASE, and neither the command nor the rest of the cycle reads what it
was. -/
theorem stepRunsTheDecodedCommand : Obligations.StepRunsTheDecodedCommand := by
  intro s e rest c i hf hc hin he hd
  have ht := exec_of_running (s := { s with phase := if s.nextPhase = .idle then .idle else s.phase, inbox := rest }) hf i
  refine ⟨_, ht, _, ?_, clockEdge_exec_withScratch ht s.finish e⟩
  rw [step_cycle hf hc (by rw [State.event, hin]), cycle_decoded he hd, popped_finish_eq hf hc hin, exec_withScratch ht, onNext_next]

/-! ### What each command latches (R97 to R102) -/

/-- An accepted command leaves what R84 latches, the registers of R30 aside. -/
theorem exec_latches {s : State} {i : Instr} (h : Accepts s i) {stream : List Byte} (hst : s.streamFor i = stream) :
    ∃ t, exec i s = .next t ∧ SameButHidden { s with
      cmd := opcode i, src := i.src, count := i.count, mask := i.mask, emask := s.maskOf i, stream := stream
      phase := .sending, fresh := true, clk := 0, held1 := s.port, held0 := ~~~ s.port } t := by
  subst hst
  exact ⟨_, exec_accepted h, _, _, _, _, _, _, _, rfl⟩

/-- A record is of the format it is read for (R37). -/
theorem kind_of_readRecord {s : State} {f : Fmt} {r : Ref} {k : Nat} {e : Element} (h : s.readRecord f r k = some e) : e.kind = f := by
  have hk : k < s.extent f r := by
    by_contra hk
    rw [readRecord_of_extent_le (Nat.le_of_not_lt hk)] at h
    cases h
  cases hx : sourceAt s.sources f r with
  | none =>
    rw [extent_of_sourceAt_none hx] at hk
    exact absurd hk (Nat.not_lt_zero k)
  | some x =>
    rw [extent_of_sourceAt hx] at hk
    obtain ⟨e', he', hkind⟩ := elementOf_of_lt_length hk s.cfg s.mem r
    rw [readRecord_of_sourceAt hx, he', Option.some.injEq] at h
    rw [← h, hkind, kind_of_sourceAt hx]

/-- The stream in the wire bytes of a format: those of each record in order (R85, R86). -/
theorem streamOf_eq_wire {s : State} {f : Fmt} {wire : Option Element → List Byte} (hnone : wire none = [])
    (hwire : ∀ e, e.kind = f → wire (some e) = bytesOf s.cfg.pack4Pos e) (r : Ref) (n : Half) :
    s.streamOf f r n = (List.range n.toNat).flatMap fun k => wire (s.readRecord f r k) := by
  refine List.flatMap_congr fun k _ => ?_
  rw [State.recordBytes]
  split
  · rw [‹s.readRecord f r k = none›, hnone]
  · rename_i e he
    rw [he, hwire e (kind_of_readRecord he)]

theorem streamOf_raw (s : State) (r : Ref) (n : Half) :
    s.streamOf .raw r n = (List.range n.toNat).flatMap fun k => wireRaw (s.readRecord .raw r k) :=
  streamOf_eq_wire rfl (fun | .raw _, _ => rfl) r n

theorem streamOf_rgb (s : State) (r : Ref) (n : Half) :
    s.streamOf .rgb r n = (List.range n.toNat).flatMap fun k => wireRgb (s.readRecord .rgb r k) :=
  streamOf_eq_wire rfl (fun | .rgb _, _ => rfl) r n

theorem streamOf_rgbw (s : State) (r : Ref) (n : Half) :
    s.streamOf .rgbw r n = (List.range n.toNat).flatMap fun k => wireRgbw (s.readRecord .rgbw r k) :=
  streamOf_eq_wire rfl (fun | .rgbw _, _ => rfl) r n

theorem streamOf_pack4 (s : State) (r : Ref) (n : Half) :
    s.streamOf .pack4 r n = (List.range n.toNat).flatMap fun k => wirePack4 s.cfg.pack4Pos (s.readRecord .pack4 r k) :=
  streamOf_eq_wire rfl (fun | .pack4 _, _ => rfl) r n

/-- In IDLE with no fault a command is accepted if its mask has one bit and its count is within R87's limit and the extent. -/
theorem accepts_of_le {s : State} {i : Instr} (hf : s.fault = .none) (hp : s.phase = .idle) (hm : popcount (s.maskOf i) = 1)
    (hl : i.count.toNat ≤ countLimit i.fmt) (he : i.count.toNat ≤ s.extent i.fmt i.src) : Accepts s i :=
  ⟨hf, hp, hm, (streamLength_le_iff _ _).mpr hl, he⟩

/-- A RAW command on the default pin has no limit but the extent (R100). -/
theorem accepts_transmitRaw {s : State} {r : Ref} {n : Half} {m : Byte} (hc : s.cfg.WellFormed) (hf : s.fault = .none)
    (hp : s.phase = .idle) (he : n.toNat ≤ s.extent .raw r) : Accepts s (.transmitRaw r n m) :=
  accepts_of_le hf hp (popcount_defaultMask hc) (toNat_le_countLimit_raw n) he

/-- Settles O10: the default pin's mask has one bit, and RGB records are sent green, red, blue. -/
theorem transmitRgbIsAccepted : Obligations.TransmitRgbIsAccepted := fun s r n m hf hp hc hn he =>
  exec_latches (i := .transmitRgb r n m) (accepts_of_le hf hp (popcount_defaultMask hc) hn he) (streamOf_rgb s r n)

/-- Settles O11: as O10, on the pin presented. -/
theorem transmitRgbPinIsAccepted : Obligations.TransmitRgbPinIsAccepted := fun s r n pin hf hp hm hn he =>
  exec_latches (i := .transmitRgbPin r n pin) (accepts_of_le hf hp hm hn he) (streamOf_rgb s r n)

/-- Settles O12: as O10, with the limit and the wire order of RGBW. -/
theorem transmitRgbwIsAccepted : Obligations.TransmitRgbwIsAccepted := fun s r n m hf hp hc hn he =>
  exec_latches (i := .transmitRgbw r n m) (accepts_of_le hf hp (popcount_defaultMask hc) hn he) (streamOf_rgbw s r n)

/-- Settles O13: no byte count exceeds R87's limit, and RAW bytes are sent as they are. -/
theorem transmitRawIsAccepted : Obligations.TransmitRawIsAccepted := fun s r n m hf hp hc he =>
  exec_latches (accepts_transmitRaw (m := m) hc hf hp he) (streamOf_raw s r n)

/-- Settles O14: as O13, on the pin presented. -/
theorem transmitRawPinIsAccepted : Obligations.TransmitRawPinIsAccepted := fun s r n pin hf hp hm he =>
  exec_latches (i := .transmitRawPin r n pin) (accepts_of_le hf hp hm (toNat_le_countLimit_raw n) he) (streamOf_raw s r n)

/-- Settles O15: as O10, with the nibbles at the positions of the configuration. -/
theorem transmit4bppIsAccepted : Obligations.Transmit4bppIsAccepted := fun s r n m hf hp hc hn he =>
  exec_latches (i := .transmit4bpp r n m) (accepts_of_le hf hp (popcount_defaultMask hc) hn he) (streamOf_pack4 s r n)

/-! ### Which commands are stopped, and by what (R84, R87) -/

/-- Settles O16: the mask is looked at first, and a command without a pin has the default pin's. -/
theorem invalidMaskFaultsPinCommands : Obligations.InvalidMaskFaultsPinCommands := by
  intro s r n pin hf hp
  refine ⟨fun hm => ⟨.of_eq (exec_invalidMask (i := .transmitRgbPin r n pin) hf hp hm),
    .of_eq (exec_invalidMask (i := .transmitRawPin r n pin) hf hp hm)⟩, fun hc i t m hi ht => ?_⟩
  have hmask : s.maskOf i = s.cfg.defaultMask := by rw [State.maskOf, State.effectiveMask, hi]; rfl
  rw [exec_fault_of_oneBit hf hp (hmask ▸ popcount_defaultMask hc) ht]
  split
  · nofun
  · split <;> simp

/-- The counts above R87's limit, format by format. -/
theorem length_exceeds_iff (f : Fmt) (n : Half) : 65535 < bpe f * n.toNat ↔ countLimit f < n.toNat := by
  rw [← Nat.not_le, ← Nat.not_le]
  exact not_congr (streamLength_le_iff f n)

/-- Settles O17: of the two checks of the count only the first records `CountTooLarge`, and the limits are R87's. -/
theorem countThresholdsRefuse : Obligations.CountThresholdsRefuse := by
  intro s i hf hp hm
  refine ⟨⟨fun h => ?_, fun hl => .of_eq (exec_countTooLarge hf hp hm hl)⟩, ?_⟩
  · by_contra hl
    obtain ⟨t, ht, hfault⟩ := h.fault
    rw [exec_fault_of_oneBit hf hp hm ht, if_neg (by exact hl)] at hfault
    split at hfault <;> cases hfault
  · rw [length_exceeds_iff]
    have hraw := toNat_le_countLimit_raw i.count
    cases i.fmt with
    | raw => exact iff_false_intro (Nat.not_lt.mpr hraw)
    | _ => rfl

end Sys2Proof.Machine
end

section
/-! The byte stream (R64, R85, R86) and the packed layout (R105), and commands of different formats that send the same stream (R103, R104). -/
namespace Sys2Proof.Machine

/-- Settles O21: each format's arm of the converter, as R85 gives it. -/
theorem converterWireOrder : Obligations.ConverterWireOrder :=
  ⟨fun _ _ _ _ _ _ => ⟨rfl, rfl, rfl⟩, fun _ _ => rfl, rfl, rfl, rfl, rfl⟩

/-! ### Blocks of a stream (R86) -/

/-- Block `k` of a list of blocks of `b` entries each begins at `b * k`. -/
theorem block_of_flatMap_range {α : Type} {g : Nat → List α} {b n k : Nat} (hlen : ∀ j, j < n → (g j).length = b) (hk : k < n) :
    (((List.range n).flatMap g).drop (b * k)).take b = g k := by
  obtain ⟨m, rfl⟩ := Nat.exists_eq_add_of_lt hk
  have hbefore : ((List.range k).flatMap g).length = b * k := by
    rw [List.length_flatMap, List.map_congr_left (fun j hj => hlen j (Nat.lt_trans (List.mem_range.mp hj) hk)), List.map_const',
      List.sum_replicate_nat, List.length_range, Nat.mul_comm]
  rw [Nat.add_assoc, List.range_add, List.range_succ_eq_map, List.flatMap_append, List.drop_left' hbefore, List.map_cons, List.flatMap_cons,
    List.take_left' (hlen _ (by omega))]
  rfl

/-- Settles O22: the stream is made of one block of `BPE(FMT)` bytes for each element. -/
theorem streamFollowsTheRecords : Obligations.StreamFollowsTheRecords := by
  intro s f r n h
  refine ⟨length_streamOf h, fun k hk => ?_⟩
  have hrec : ∀ j, j < n.toNat → ∃ e, s.readRecord f r j = some e ∧ (bytesOf s.cfg.pack4Pos e).length = bpe f :=
    fun j hj => readRecord_of_lt_extent (Nat.lt_of_lt_of_le hj h)
  have hlen : ∀ j, j < n.toNat → (s.recordBytes f r j).length = bpe f := fun j hj => by
    obtain ⟨e, he, hl⟩ := hrec j hj
    rw [State.recordBytes, he, hl]
  obtain ⟨e, he, -⟩ := hrec k hk
  refine ⟨e, he, ?_⟩
  rw [State.streamOf, block_of_flatMap_range hlen hk, State.recordBytes, he]

/-- A list of `b * n` blocks is a list of `n` groups of `b` blocks. -/
theorem flatMap_range_mul {α : Type} (g : Nat → List α) (b n : Nat) :
    (List.range (b * n)).flatMap g = (List.range n).flatMap fun k => (List.range b).flatMap fun j => g (b * k + j) := by
  induction n with
  | zero => rfl
  | succ n ih =>
    rw [Nat.mul_succ, List.range_add, List.flatMap_append, ih, List.range_succ, List.flatMap_append, List.flatMap_map]
    simp

/-! ### The packed layout (R64, R105) -/

theorem nibblesApart_comm (p q : Nat) : nibblesApart p q = nibblesApart q p := Bool.or_comm _ _

section
variable {p q i : Nat} (x : BitVec 4)

/-- A nibble put at a position inside the word is found there. -/
theorem getLsbD_nibble (hp : nibbleInWord p = true) (hi : i < 4) : (x.setWidth 16 <<< p).getLsbD (p + i) = x.getLsbD i := by
  have hin : p + 4 ≤ 16 := of_decide_eq_true hp
  rw [BitVec.getLsbD_shiftLeft, BitVec.getLsbD_setWidth, Nat.add_sub_cancel_left, decide_eq_true (by omega : p + i < 16),
    decide_eq_false (by omega : ¬ p + i < p), decide_eq_true (by omega : i < 16)]
  rfl

/-- A nibble leaves the positions of a nibble apart from it at 0. -/
theorem getLsbD_nibble_apart (h : nibblesApart p q = true) (hi : i < 4) : (x.setWidth 16 <<< q).getLsbD (p + i) = false := by
  rw [BitVec.getLsbD_shiftLeft, BitVec.getLsbD_setWidth]
  obtain h | h := Bool.or_eq_true_iff.mp h
  · have hlt : p + i < q := by have := of_decide_eq_true h; omega
    simp [hlt]
  · have hge : 4 ≤ p + i - q := by have := of_decide_eq_true h; omega
    simp [BitVec.getLsbD_of_ge x _ hge]

end

/-- A nibble whose four bits are those of `x` is `x`, zero-extended (R64). -/
theorem nibbleByte_eq {v : Half} {p : Nat} {x : BitVec 4} (h : ∀ i, i < 4 → v.getLsbD (p + i) = x.getLsbD i) :
    nibbleByte v p = x.setWidth 8 := by
  refine congrArg (BitVec.setWidth 8) (BitVec.eq_of_getLsbD_eq fun i hi => ?_)
  rw [BitVec.getLsbD_extractLsb', decide_eq_true hi, Bool.true_and, h i hi]

/-- Settles O25: each of the three disjoint nibbles is found where it was put, and the other two leave its bits alone. -/
theorem packedRoundTrip : Obligations.PackedRoundTrip := by
  intro c g r b h
  have hin := meets_of_wf h .nibblesInWord
  have hapart := meets_of_wf h .nibblesDisjoint
  simp only [Config.meets, Bool.and_eq_true] at hin hapart
  obtain ⟨⟨hg, hr⟩, hb⟩ := hin
  obtain ⟨⟨hgr, hgb⟩, hrb⟩ := hapart
  refine Prod.ext (nibbleByte_eq fun i hi => ?_) (Prod.ext (nibbleByte_eq fun i hi => ?_) (nibbleByte_eq fun i hi => ?_)) <;>
    rw [pack, BitVec.getLsbD_or, BitVec.getLsbD_or]
  · rw [getLsbD_nibble g hg hi, getLsbD_nibble_apart r hgr hi, getLsbD_nibble_apart b hgb hi, Bool.or_false, Bool.or_false]
  · rw [getLsbD_nibble r hr hi, getLsbD_nibble_apart g (nibblesApart_comm _ _ ▸ hgr) hi, getLsbD_nibble_apart b hrb hi, Bool.false_or,
      Bool.or_false]
  · rw [getLsbD_nibble b hb hi, getLsbD_nibble_apart g (nibblesApart_comm _ _ ▸ hgb) hi,
      getLsbD_nibble_apart r (nibblesApart_comm _ _ ▸ hrb) hi, Bool.false_or, Bool.false_or]

/-! ### One stream, two commands (R103, R104) -/

/-- Two accepted commands with the same stream and the same effective mask drive the same (R89). -/
theorem run_driven_of_same_stream {s : State} {i j : Instr} (hc : s.cfg.WellFormed) (hi : Accepts s i) (hj : Accepts s j)
    (hst : s.streamFor j = s.streamFor i) (hm : s.maskOf j = s.maskOf i) (k : Nat) :
    (run k (s.commandedBy j)).map State.driven = (run k (s.commandedBy i)).map State.driven := by
  have latched : ∀ l, Accepts s l → ({ s with inbox := [] } : State).check l.fmt (opcode l) l.pinSel l.src l.count l.mask =
      { s with
        inbox := [], cmd := opcode l, src := l.src, count := l.count, mask := l.mask, emask := s.maskOf l, stream := s.streamFor l
        phase := .sending, startCnt := 0, byteIdx := 0, bitIdx := 0, fresh := true, clk := 0, held1 := s.port, held0 := ~~~ s.port } :=
    fun l hl => check_accepted (hl.withInbox [])
  refine run_driven_eq hi.running hc hi.idle (u := s.accepted j) ?_ k
  rw [latched i hi, latched j hj, hst, hm]
  rfl

/-- Three times a count within R87's limit does not wrap. -/
theorem toNat_three_mul {c : Half} (h : c.toNat ≤ 21845) : (3 * c).toNat = 3 * c.toNat := by
  rw [BitVec.toNat_mul]
  exact Nat.mod_eq_of_lt (by show 3 * c.toNat < 65536; omega)

/-- Settles O36: green, red, blue of each record are the three bytes of the RAW source, so the streams are the same. -/
theorem rawDrivesWhatRgbDrives : Obligations.RawDrivesWhatRgbDrives := by
  intro s bytes records c m m' hc hf hp hlimit hrgb hraw hrec
  have hst : s.streamFor (.transmitRaw bytes (3 * c) m) = s.streamFor (.transmitRgb records c m') := by
    refine (streamOf_raw s bytes (3 * c)).trans (.trans ?_ (streamOf_rgb s records c).symm)
    rw [toNat_three_mul hlimit, flatMap_range_mul]
    refine List.flatMap_congr fun k hk => ?_
    obtain ⟨p, h, hg, hr, hb⟩ := hrec k (List.mem_range.mp hk)
    rw [h, show List.range 3 = [0, 1, 2] from rfl]
    simp [hg, hr, hb, wireRaw, wireRgb]
  have hi : Accepts s (.transmitRaw bytes (3 * c) m) := accepts_transmitRaw hc hf hp (by rwa [toNat_three_mul hlimit])
  have hj : Accepts s (.transmitRgb records c m') := accepts_of_le hf hp (popcount_defaultMask hc) hlimit hrgb
  exact ⟨hst, run_driven_of_same_stream hc hj hi hst rfl⟩

/-- A zero-extended nibble has a zero high nibble (R64). -/
theorem highNibble_setWidth : ∀ x : BitVec 4, (x.setWidth 8 : Byte).extractLsb' 4 4 = 0x0#4 := by
  decide

/-- A packed word's wire bytes have zero high nibbles (R64). -/
theorem highNibble_of_mem_wirePack4 {p : PackPos} {e : Option Element} {b : Byte} (h : b ∈ wirePack4 p e) : b.extractLsb' 4 4 = 0x0#4 := by
  unfold wirePack4 at h
  split at h
  · simp only [List.mem_cons, List.not_mem_nil, or_false] at h
    obtain rfl | rfl | rfl := h <;> exact highNibble_setWidth _
  · cases h

/-- A RAW source that holds a list of bytes has it as its stream (R100). -/
theorem streamOf_raw_of_bytes {s : State} {r : Ref} {n : Half} {l : List Byte} (hn : n.toNat = l.length)
    (h : ∀ k, k < l.length → s.readRecord .raw r k = some (.raw (l.getD k 0x00#8))) : s.streamOf .raw r n = l := by
  have hbytes : ∀ k ∈ List.range l.length, wireRaw (s.readRecord .raw r k) = [l.getD k 0x00#8] := fun k hk => by
    rw [h k (List.mem_range.mp hk)]
    rfl
  rw [streamOf_raw, hn, List.flatMap_congr hbytes, ← List.map_eq_flatMap]
  refine List.ext_getElem (by simp) fun k _ hk => ?_
  simp [hk]

/-- Settles O37: the RAW source holds the packed command's stream, so the streams are the same. -/
theorem packedDrivesWhatRawDrives : Obligations.PackedDrivesWhatRawDrives := by
  intro s packed bytes c m m' hc hf hp hlimit hpack hraw hrec
  have hlen : (s.streamFor (.transmit4bpp packed c m)).length = 3 * c.toNat := length_streamOf hpack
  refine ⟨fun b hb => ?_, ?_⟩
  · rw [show s.streamFor (.transmit4bpp packed c m) = _ from streamOf_pack4 s packed c] at hb
    obtain ⟨k, -, hk⟩ := List.mem_flatMap.mp hb
    exact highNibble_of_mem_wirePack4 hk
  · have hi : Accepts s (.transmitRaw bytes (3 * c) m') := accepts_transmitRaw hc hf hp (by rwa [toNat_three_mul hlimit])
    have hj : Accepts s (.transmit4bpp packed c m) := accepts_of_le hf hp (popcount_defaultMask hc) hlimit hpack
    have hst : s.streamFor (.transmitRaw bytes (3 * c) m') = s.streamFor (.transmit4bpp packed c m) :=
      streamOf_raw_of_bytes ((toNat_three_mul hlimit).trans hlen.symm) (hlen ▸ hrec)
    exact run_driven_of_same_stream hc hi hj hst.symm rfl

end Sys2Proof.Machine
end

section
/-! A stall in LATCHING (R113): while it lasts the core is held and only the count of cycles goes on, so what follows is the undisturbed run
some cycles later; the core never reads that count, which is there for the cycle that a fault records (R115). -/
namespace Sys2Proof.Machine

/-! ### Stalled cycles -/

/-- `s` after `d` more clock cycles in which only the count of cycles has changed. -/
def State.delayed (s : State) (d : Nat) : State :=
  { s with clk := s.clk + d }

theorem delayed_delayed (s : State) (m n : Nat) : (s.delayed m).delayed n = s.delayed (n + m) := by
  simp only [State.delayed, Nat.add_assoc, Nat.add_comm n m]

theorem finish_delayed (s : State) (d : Nat) : (s.delayed d).finish = s.finish.delayed d := by
  unfold State.finish
  rw [show (s.delayed d).phase = s.phase from rfl, show (s.delayed d).cfg = s.cfg from rfl,
    show (s.delayed d).latchCnt = s.latchCnt from rfl]
  split <;> rfl

/-- A command runs on the coming cycle, which is not before `TS`: a stall on it is no preemption (R113). -/
structure Holdable (s : State) : Prop where
  fault : s.fault = .none
  cfg : s.cfg.WellFormed
  running : s.finish.busy = true
  latching : s.beforeLatch = false

theorem Holdable.delayed {s : State} (h : Holdable s) (d : Nat) : Holdable (s.delayed d) :=
  ⟨h.fault, h.cfg, by rw [finish_delayed]; exact h.running, h.latching⟩

/-- A machine that is about to show LATCHING can be held by a stall. -/
theorem Holdable.of_nextPhase {s : State} (hf : s.fault = .none) (hc : s.cfg.WellFormed) (hn : s.nextPhase = .latching) : Holdable s where
  fault := hf
  cfg := hc
  running := (nextPhase_ne_idle hf hc).mp (by simp [hn])
  latching := by
    rw [← Bool.not_eq_true, ← nextPhase_sending_iff hf hc, hn]
    nofun

/-- A stalled cycle holds the core (R113). -/
theorem step_held {s : State} (h : Holdable s) (b : List Event) :
    step (s.withInbox (.cycle { stall := true } :: b)) = .next ((s.delayed 1).withInbox b) := by
  have hb : (s.withInbox (.cycle { stall := true } :: b)).finish.busy = true := by
    rw [State.withInbox, finish_withInbox]
    exact h.running
  rw [step_running (s := s.withInbox (_ :: b)) h.fault h.cfg rfl rfl hb]
  exact congrArg Host.Outcome.next (runCycle_held rfl h.latching rfl)

/-- A stall of `d` cycles holds the core for as long as it lasts. -/
theorem run_held {s : State} (h : Holdable s) (d : Nat) (b : List Event) :
    run d (s.withInbox (List.replicate d (.cycle { stall := true }) ++ b)) = some ((s.delayed d).withInbox b) := by
  induction d generalizing s with
  | zero => rfl
  | succ d ih =>
    rw [List.replicate_succ, List.cons_append]
    simp only [run, step_held h]
    rw [ih (h.delayed 1), delayed_delayed]

/-! ### The rest of the run, later -/

/-- The core's step does not read the count of cycles (R88). -/
theorem advance_delayed (s : State) (d : Nat) : (s.delayed d).advance = s.advance.delayed d := by
  have take_delayed : ∀ m, (s.delayed d).take m = (s.take m).delayed d := fun m => by
    cases m with
    | continueCell o =>
      simp only [State.take, State.continueCell, show (s.delayed d).cfg = s.cfg from rfl,
        show (s.delayed d).wireBit = s.wireBit from rfl]
      split <;> rfl
    | _ => rfl
  exact take_delayed s.nextMove

/-- Nor does a cycle in which nothing happens outside the core. -/
theorem clockEdge_quiet_delayed {s : State} (hf : s.fault = .none) (d : Nat) :
    (s.delayed d).clockEdge {} = (s.clockEdge {}).delayed d := by
  cases hb : s.busy with
  | false => rw [clockEdge_idle (s := s.delayed d) hf hb, clockEdge_idle hf hb, world_nil, world_nil]
  | true =>
    rw [clockEdge_busy (s := s.delayed d) hf hb, clockEdge_busy hf hb, runCycle_quiet _ _ rfl rfl, runCycle_quiet _ _ rfl rfl,
      advance_delayed]
    simp only [State.delayed, Nat.add_right_comm s.clk d 1]

/-- A run with nothing to come goes the same way from a later cycle on. -/
theorem run_delayed {n : Nat} {s t : State} (hin : s.inbox = []) (h : run n s = some t) (d : Nat) :
    run n (s.delayed d) = some (t.delayed d) := by
  induction n generalizing s with
  | zero =>
    obtain rfl := Option.some.inj h
    rfl
  | succ n ih =>
    by_cases hgo : s.fault = .none ∧ s.cfg.WellFormed
    · obtain ⟨hf, hc⟩ := hgo
      have hquiet : (s.finish.clockEdge {}).inbox = [] := by rw [clockEdge_quiet_inbox, finish_inbox, hin]
      simp only [run, step_quiet hc hf hin] at h
      simp only [run, step_quiet (u := s.delayed d) hc hf hin, finish_delayed,
        clockEdge_quiet_delayed (s := s.finish) (by rwa [finish_fault])]
      exact ih hquiet h
    · rw [run_succ_of_stopped hgo] at h
      cases h

/-! ### The end of the command (R91, R113) -/

section
variable {s : State} {i : Instr} (hc : s.cfg.WellFormed) (h : Accepts s i)
include hc h

/-- From the cycle before `TS` to the one before `TE - 1` an undisturbed run is about to show LATCHING (R88). -/
theorem run_holdable {t : Nat} (hTS : s.cfg.latchStartCycle (s.streamFor i).length ≤ t + 1)
    (hTE : t + 1 < s.cfg.endCycle (s.streamFor i).length) :
    ∃ u, run (t + 1) (s.commandedBy i) = some u ∧ Holdable u ∧ u.inbox = [] ∧ u.phase ≠ .idle := by
  obtain ⟨u, hu, hs, hp⟩ := run_place hc h (t := t) (by omega)
  obtain ⟨v, hv, -, hpv⟩ := run_step hc (ne_zero_of_popcount h.oneBit) hs hp hTE
  have hnext : u.nextPhase = .latching := (nextPhase_of_step hs.inbox hv).trans (hpv.latching hTS)
  exact ⟨u, hu, .of_nextPhase hs.fault (hs.cfg ▸ hc) hnext, hs.inbox, place_busy hp⟩

/-- A stall on cycle `TE` does not keep the machine from IDLE (R91; log 15). -/
theorem step_stalled_at_end :
    ∃ u v, run (s.cfg.endCycle (s.streamFor i).length) (s.commandedBy i) = some u ∧
      step (u.withInbox [.cycle { stall := true }]) = .next v ∧ v.fault = .none ∧ v.busy = false ∧ v.line = some false := by
  obtain ⟨u, v, hu, hv, hs, hidle, hlow⟩ := run_to_end hc h
  have hb : u.finish.busy = false :=
    (nextPhase_idle_iff hs.fault (hs.cfg ▸ hc)).mp ((nextPhase_of_step hs.inbox hv).trans (by rw [hidle]))
  obtain ⟨w, hw, _, _, _, _, _, _, _, rfl⟩ := step_to_idle (s := u.withInbox [.cycle { stall := true }]) (rest := []) hs.fault (hs.cfg ▸ hc)
    rfl rfl (by rw [State.withInbox, finish_withInbox]; exact hb)
  refine ⟨u, _, hu, hw, hs.fault, rfl, ?_⟩
  rw [line_of_emask (em := s.maskOf i) (by exact hs.fault) (by exact hs.emask) h.oneBit, ← hlow]
  rfl

end

/-- Settles O41: held for `d` cycles, the command then goes through the rest of the undisturbed run. -/
theorem stallInLatchingDelaysTheEnd : Obligations.StallInLatchingDelaysTheEnd := by
  intro i s hc h
  refine ⟨fun t d hTS hTE => ?_, step_stalled_at_end hc h⟩
  obtain ⟨u, hu, hheld, hin, hbusy⟩ := run_holdable hc h hTS hTE
  refine ⟨u, hu, fun k hk => ?_, fun k hk => ?_⟩
  · have hrun := run_held hheld k (List.replicate (d - k) (.cycle { stall := true }))
    rw [List.replicate_append_replicate, Nat.add_sub_cancel' hk] at hrun
    exact ⟨_, hrun, hheld.fault, decide_eq_true hbusy, rfl, rfl⟩
  · obtain ⟨v, hv, hon⟩ := run_onSchedule hc h (t := t + k) (by omega)
    rw [Nat.add_right_comm, run_add hu k] at hv
    have hrun := run_held hheld d []
    rw [List.append_nil, show (u.delayed d).withInbox [] = u.delayed d by rw [State.withInbox, ← hin]; rfl] at hrun
    exact ⟨v.delayed d, (run_add hrun k).trans (run_delayed hin hv d), hon.fault, hon.busy, hon.line⟩

end Sys2Proof.Machine
end

section
/-! What a cycle of a running command records (R114), as one equation, and the host's duties that keep it from recording anything (R124). -/
namespace Sys2Proof.Machine

/-! ### The order of the run-time conditions -/

theorem popped_hitsPin (s : State) : s.popped.hitsPin = s.hitsPin := by
  funext w
  cases w <;> rfl

theorem popped_hitsElement (s : State) : s.popped.hitsElement = s.hitsElement := by
  funext w
  cases w <;> rfl

section
variable {s : State} {e : CycleInput}

/-- The cycle's stall is no preemption: the core is not stalled or `TS` has come (R113). -/
theorem not_preempted (hf : s.fault = .none) (hc : s.cfg.WellFormed) (h : ¬ (e.stall = true ∧ s.nextPhase = .sending)) :
    (e.stall && s.popped.beforeLatch) = false := by
  rwa [nextPhase_sending_iff hf hc, ← Bool.and_eq_true, Bool.not_eq_true] at h

/-- No write of the cycle reaches the selected pin (R50). -/
theorem popped_any_hitsPin_eq_false (h : ¬ ∃ w ∈ e.writes, s.hitsPin w = true) : e.writes.any s.popped.hitsPin = false := by
  rwa [popped_hitsPin, ← Bool.not_eq_true, List.any_eq_true]

end

/-- Settles O45: the conditions one after the other, each met or passed by. -/
theorem runTimeConditionsInOrder : Obligations.RunTimeConditionsInOrder := by
  intro s e rest hf hc hi hn hp
  refine ⟨_, step_running hf hc (by rw [State.event, hi]) hn ((nextPhase_ne_idle hf hc).mp hp), ?_⟩
  by_cases hstall : e.stall = true ∧ s.nextPhase = .sending
  · rw [if_pos hstall, runCycle_preempted hstall.1 (by exact (nextPhase_sending_iff hf hc).mp hstall.2)]
    rfl
  · have hpre := not_preempted hf hc hstall
    rw [if_neg hstall]
    by_cases hpin : ∃ w ∈ e.writes, s.hitsPin w = true
    · rw [if_pos hpin, runCycle_pinConflict hpre (by rwa [popped_hitsPin])]
      rfl
    · have hany := popped_any_hitsPin_eq_false hpin
      rw [if_neg hpin]
      cases hk : e.writes.findSome? s.hitsElement with
      | some k =>
        rw [runCycle_sourceModified hpre hany (by rwa [popped_hitsElement])]
        rfl
      | none => exact runCycle_unfaulted hf hpre hany (by rwa [popped_hitsElement])

/-! ### The host's duties -/

/-- The duties of R124 are kept on a cycle exactly when none of the run-time conditions of R114 is met on it. -/
theorem dutiesKept_iff (s : State) (e : CycleInput) :
    DutiesKept s e ↔ ¬ (e.stall = true ∧ s.nextPhase = .sending) ∧ (¬ ∃ w ∈ e.writes, s.hitsPin w = true) ∧
      e.writes.findSome? s.hitsElement = none := by
  simp only [not_and, not_exists, Bool.not_eq_true, List.findSome?_eq_none_iff]
  exact ⟨fun h => ⟨h.unstalled, h.pinAlone, h.recordsStable⟩, fun ⟨hu, hp, hr⟩ => ⟨hu, hp, hr⟩⟩

/-- Settles O46: of the conditions in their order none is recorded exactly when each is passed by. -/
theorem faultOnlyWhenADutyIsBroken : Obligations.FaultOnlyWhenADutyIsBroken := by
  intro s t e rest hf hc hi hn hp ht
  obtain ⟨t', ht', hrec⟩ := runTimeConditionsInOrder s e rest hf hc hi hn hp
  obtain rfl := Host.Outcome.next.inj (ht.symm.trans ht')
  rw [dutiesKept_iff, hrec]
  by_cases hstall : e.stall = true ∧ s.nextPhase = .sending
  · rw [if_pos hstall]
    exact ⟨nofun, fun h => absurd hstall h.1⟩
  · by_cases hpin : ∃ w ∈ e.writes, s.hitsPin w = true
    · rw [if_neg hstall, if_pos hpin]
      exact ⟨nofun, fun h => absurd hpin h.2.1⟩
    · rw [if_neg hstall, if_neg hpin]
      cases e.writes.findSome? s.hitsElement with
      | some k => exact ⟨nofun, nofun⟩
      | none => exact ⟨fun _ => ⟨hstall, hpin, rfl⟩, fun _ => rfl⟩

end Sys2Proof.Machine
end

section
/-! The check of a configuration (R112): the conditions written out, the construction that refuses one that fails, and the step that every
other machine without a fault takes (R109). -/
namespace Sys2Proof.Machine

/-- What R112 asks of a configuration, condition by condition. -/
theorem wellFormed_iff (c : Config) : c.WellFormed ↔
    1 ≤ c.t0h ∧ c.t0h < c.t1h ∧ c.t1h < c.tbit ∧ 1 ≤ c.resetUs ∧ 1 ≤ c.fcpu ∧ c.tbit < c.resetCyc ∧ c.resetCyc ≤ c.latchCyc ∧
      c.defaultPin ≤ 7 ∧
      (c.pack4Pos.gpos + 4 ≤ 16 ∧ c.pack4Pos.rpos + 4 ≤ 16 ∧ c.pack4Pos.bpos + 4 ≤ 16) ∧
      (c.pack4Pos.gpos + 4 ≤ c.pack4Pos.rpos ∨ c.pack4Pos.rpos + 4 ≤ c.pack4Pos.gpos) ∧
      (c.pack4Pos.gpos + 4 ≤ c.pack4Pos.bpos ∨ c.pack4Pos.bpos + 4 ≤ c.pack4Pos.gpos) ∧
      (c.pack4Pos.rpos + 4 ≤ c.pack4Pos.bpos ∨ c.pack4Pos.bpos + 4 ≤ c.pack4Pos.rpos) := by
  rw [Config.WellFormed, Config.firstFailure, List.find?_eq_none]
  simp [ConfigCondition.all, Config.meets, nibbleInWord, nibblesApart, and_assoc]

/-- Construction refuses exactly the configurations that are not well-formed (R112). -/
theorem build_refused_iff {c : Config} : (∃ k, build c = .refused (.configInvalid k)) ↔ ¬ c.WellFormed := by
  unfold build Config.WellFormed
  cases c.firstFailure <;> simp

/-- A well-formed configuration gives the state after reset (R35, R112). -/
theorem build_of_wellFormed {c : Config} (h : c.WellFormed) : build c = .next (State.resetWith c) := by
  rw [build, h]

/-- Settles O56: the check written out condition by condition, and a machine that takes a step has passed it. -/
theorem configurationIsChecked : Obligations.ConfigurationIsChecked := by
  intro c
  refine ⟨?_, fun hc => .of_eq (build_of_wellFormed hc), ?_⟩
  · rw [build_refused_iff, wellFormed_iff]
  · rintro s rfl hc t ht
    obtain ⟨-, hwf, -⟩ := step_cases ht
    exact hc hwf

/-- Settles O6: a reset always takes place, and so does a clock cycle. -/
theorem stepCompletesUnlessFaulted : Obligations.StepCompletesUnlessFaulted := by
  intro s hf hc
  cases he : s.event with
  | reset => exact ⟨_, step_reset hf hc he⟩
  | cycle e =>
    rw [step_cycle hf hc he]
    exact cycle_next (s := s.popped) hf e

end Sys2Proof.Machine
end

section
/-! The reset event (R125): a core after reset selects no pin, so its line has no level whatever value the port is drawn at (R33). -/
namespace Sys2Proof.Machine

/-- A mask that does not select exactly one pin gives no level of the line (R32, R33). -/
theorem line_of_popcount_ne_one {s : State} (h : popcount s.emask ≠ 1) : s.line = none := by
  simp [State.line, h]

@[simp] theorem State.coreReset_line (s : State) : s.coreReset.line = none :=
  line_of_popcount_ne_one (show popcount 0#8 ≠ 1 by decide)

/-- Settles O55: the step is the reset of the core on the remaining events, which leaves no mask behind. -/
theorem resetEventReturnsToIdle : Obligations.ResetEventReturnsToIdle := by
  intro s rest hf hc hi
  have hstep : step s = .next { s with inbox := rest }.coreReset := by
    rw [step_reset hf hc (by rw [State.event, hi]), popped_of_inbox hi]
  exact ⟨_, hstep, rfl, rfl, rfl, State.coreReset_line _, rfl, rfl, rfl, rfl⟩

end Sys2Proof.Machine
end
